-- ==== Sys2Proof/Word.lean ====
section
/-! DEFINITION. The word and byte types (spec/00_scope.md R10: every register, data word and address is 32 bits wide). -/

namespace Sys2Proof

/-- A register, data word or address (R10). Bit 0 is the least significant. -/
abbrev Word := BitVec 32

/-- One byte of memory (R49, R50). -/
abbrev Byte := BitVec 8

end Sys2Proof
end

