-- ==== Sys2Proof/Config.lean ====
section
/-! DEFINITION. What an implementation fixes: the constants of R7, the parameters of R8, the three agents of R6 and the
free values, which have no body (R13, R73, R75, R77, R84, R302). -/

namespace Sys2Proof

/-- The three agents of R6. `pulseUnit` is the flash macro. -/
inductive Agent where
  | host
  | controller
  | pulseUnit
deriving DecidableEq, Repr, Inhabited

/-- The two bank ids of R7 (`NUM_BANKS` = 2). -/
inductive Bank where
  | b0
  | b1
deriving DecidableEq, Repr

/-- R8: the parameters the source leaves open. Addresses and sizes are exact integers (R11). -/
structure Params where
  /-- `FLASH_BASE`: the first byte of bank 0. -/
  flashBase : Nat
  /-- `BANK_SIZE`: bytes per bank. -/
  bankSize : Nat
  /-- `FPC_BASE`: the base of the register window. -/
  fpcBase : Nat
  /-- `RESERVED`: the word addresses that the burst hardware reports as reserved. -/
  reserved : List Nat
deriving DecidableEq, Repr

namespace Config

/-- `SECTOR_SIZE` (R7). -/
def sectorSize : Nat := 4096

/-- `BURST_MAX` (R7). -/
def burstMax : Nat := 16

/-- `BURST_ALIGN` (R7). -/
def burstAlign : Nat := 16

/-- `MAX_PROGRAM_PULSES` (R7). -/
def maxProgramPulses : Nat := 5

/-- `MAX_ERASE_PULSES` (R7). -/
def maxErasePulses : Nat := 50

/-- The size of the register window (R20). -/
def windowSize : Nat := 64

/-- The size of the host's address space (R60). -/
def addressSpace : Nat := 2 ^ 32

/-- What a byte reads as that nothing has written, in flash and in SYSMEM. The launch contents are an input (R9), so the
spec fixes none; `ERASED_BYTE` of R7 is taken. DESIGN CHOICE, unsafe: log 6. -/
def unlistedByte : Byte := 0xFF#8

/-- The defaults of R8. `FPC_BASE` is OPEN there: the value of the spec's examples is taken. DESIGN CHOICE, unsafe: log 4. -/
def defaults : Params :=
  { flashBase := 0x0, bankSize := 0x20000, fpcBase := 0x40011000, reserved := [] }

/-- FREE VALUE: the `k`-th draw (R13), a bit string as long as its reader needs. Nothing constrains it. DESIGN CHOICE of
form, safe: log 3. -/
opaque freeBits : Nat → Nat

/-- FREE VALUE: the agent whose turn it is when no schedule is given and more than one could step (R6, R14, R79).
DESIGN CHOICE of form, safe: log 1. -/
opaque freeAgent : Nat → Agent

end Config

/-- The byte after the flash range (R8). -/
def Params.flashEnd (p : Params) : Nat := p.flashBase + 2 * p.bankSize

/-- `NSECT`, the sectors per bank (R8). -/
def Params.nsect (p : Params) : Nat := p.bankSize / Config.sectorSize

end Sys2Proof
end

