-- ==== Sys2Proof/Syntax.lean ====
section
/-! DEFINITION. The commands of R101, one constructor per row of spec/opcode_table.json, and the host's own syntax
(R20, R108, R109). -/

namespace Sys2Proof

/-- The six commands (R101). `execb` is the field `EXECB` of the command word (R102); NOP and INIT ignore it. -/
inductive Instr where
  | nop (execb : BitVec 2)
  | init (execb : BitVec 2)
  | writeWord (execb : BitVec 2)
  | writeArray (execb : BitVec 2)
  | fastWrite (execb : BitVec 2)
  | erase (execb : BitVec 2)
deriving DecidableEq, Repr

/-- The access widths of a host transaction (R64, R67, R108). -/
inductive Width where
  | w8
  | w16
  | w32
deriving DecidableEq, Repr

/-- The registers of the window (R20). -/
inductive Reg where
  | cmd
  | addr
  | data
  | count
  | src
  | clkmhz
  | status
  | written
  | pulsecnt
  | weprot0
  | weprot1
deriving DecidableEq, Repr

/-- A host transaction (R108), or the busy-wait loop `POLL` (R110). A narrow store stores the low bits of its value. -/
inductive HostOp where
  | store (w : Width) (a : Word) (v : Word)
  | load (w : Width) (a : Word)
  | poll
deriving DecidableEq, Repr

/-- The pseudo-instructions of R109, one per operation of the source. -/
inductive Pseudo where
  | flashInit (mhz : Word)
  | flashWrite (addr data : Word) (e : BitVec 2)
  | flashWriteArray (src addr count : Word) (e : BitVec 2)
  | flashFastWrite (src addr count : Word) (e : BitVec 2)
  | flashErase (addr : Word) (e : BitVec 2)
deriving DecidableEq, Repr

end Sys2Proof
end

