-- ==== Sys2Proof/WellFormed.lean ====
section
/-! DEFINITION. Which command terms are encodings of a command (R104), and which parameters are legal (R8, R60). -/

namespace Sys2Proof

/-- R102, R104: a mutating command declares at least one bank; NOP and INIT take any `EXECB`. -/
def Instr.wf : Instr → Bool
  | .nop _ => true
  | .init _ => true
  | .writeWord e => e != 0
  | .writeArray e => e != 0
  | .fastWrite e => e != 0
  | .erase e => e != 0

/-- R8: a power of two from 4096 to 131072. -/
abbrev Params.BankSizeOk (p : Params) : Prop :=
  p.bankSize ∈ [4096, 8192, 16384, 32768, 65536, 131072]

/-- R8: `FLASH_BASE` is a multiple of `BANK_SIZE`. That the range lies in the 32-bit address space (R60) is DEDUCED: log 5. -/
abbrev Params.FlashRangeOk (p : Params) : Prop :=
  p.flashBase % p.bankSize = 0 ∧ p.flashEnd ≤ Config.addressSpace

/-- R8: `FPC_BASE` is a multiple of 64 and the window does not overlap flash. That it lies in the address space is
DEDUCED: log 5. -/
abbrev Params.WindowOk (p : Params) : Prop :=
  p.fpcBase % Config.windowSize = 0 ∧ p.fpcBase + Config.windowSize ≤ Config.addressSpace ∧
    (p.fpcBase + Config.windowSize ≤ p.flashBase ∨ p.flashEnd ≤ p.fpcBase)

/-- R8: `RESERVED` is a set of 4-aligned flash addresses. -/
abbrev Params.ReservedOk (p : Params) : Prop :=
  ∀ a ∈ p.reserved, a % 4 = 0 ∧ p.flashBase ≤ a ∧ a < p.flashEnd

/-- The constraints of R8 on the parameters. -/
abbrev Params.Wf (p : Params) : Prop :=
  p.BankSizeOk ∧ p.FlashRangeOk ∧ p.WindowOk ∧ p.ReservedOk

end Sys2Proof
end

