-- ==== Sys2Proof/Decode.lean ====
section
/-! DEFINITION. The decoder of command words (R104), total and rejecting by name, the encoder (R100, R101, R107), the
register map (R20) and the expansions of the host's pseudo-instructions (R109). -/

namespace Sys2Proof

/-- Why a command word is ILLEGAL (R104, R105). -/
inductive Illegal where
  /-- A bit of [31:10] or [7:4] is set. -/
  | reservedBits
  /-- `OP` is 0x6 to 0xF. -/
  | reservedOp (op : BitVec 4)
  /-- A mutating command with `EXECB` = 0b00. -/
  | noExecb (op : BitVec 4)
deriving DecidableEq, Repr

/-- `OP`, bits [3:0] of a command word (R100). -/
def opField (c : Word) : BitVec 4 := c.extractLsb' 0 4

/-- `EXECB`, bits [9:8] of a command word (R100). -/
def execbField (c : Word) : BitVec 2 := c.extractLsb' 8 2

/-- The reserved bits [31:10] and [7:4] are all 0 (R100). -/
def reservedClear (c : Word) : Bool := c.extractLsb' 10 22 == 0 && c.extractLsb' 4 4 == 0

/-- R104: `EXECB` = 0b00 makes a mutating command illegal. -/
def declared (op : BitVec 4) (e : BitVec 2) (i : Instr) : Except Illegal Instr :=
  if e = 0 then .error (.noExecb op) else .ok i

/-- R104: the decoder, total on all 2^32 words; the first match decides. -/
def decode (c : Word) : Except Illegal Instr :=
  if reservedClear c then
    match (opField c).toNat with
    | 0 => .ok (.nop (execbField c))
    | 1 => .ok (.init (execbField c))
    | 2 => declared (opField c) (execbField c) (.writeWord (execbField c))
    | 3 => declared (opField c) (execbField c) (.writeArray (execbField c))
    | 4 => declared (opField c) (execbField c) (.fastWrite (execbField c))
    | 5 => declared (opField c) (execbField c) (.erase (execbField c))
    | _ => .error (.reservedOp (opField c))
  else .error .reservedBits

/-- R101: the operation code of a command. -/
def opcode : Instr → BitVec 4
  | .nop _ => 0x0
  | .init _ => 0x1
  | .writeWord _ => 0x2
  | .writeArray _ => 0x3
  | .fastWrite _ => 0x4
  | .erase _ => 0x5

/-- R102: the bank declaration of a command. -/
def execbOf : Instr → BitVec 2
  | .nop e => e
  | .init e => e
  | .writeWord e => e
  | .writeArray e => e
  | .fastWrite e => e
  | .erase e => e

/-- R100: the command word of a command, bit 31 first: 22 zeros, `EXECB`, 4 zeros, `OP`. -/
def encode (i : Instr) : Word := 0#22 ++ execbOf i ++ 0#4 ++ opcode i

/-- The decoder on an instruction of `nbits` bits of spec/opcode_table.json: every command is one 32-bit word (R106). -/
def decodeTableWord (nbits w : Nat) : Option Instr :=
  if nbits ≤ 32 ∧ w < 2 ^ 32 then (decode (BitVec.ofNat 32 w)).toOption else none

/-- A row of R107: a word `c` selects the command when `c & mask = value` and the side condition on `EXECB` holds. -/
structure OpcodeRow where
  mnemonic : String
  value : Word
  mask : Word
  needsExecb : Bool
deriving DecidableEq, Repr

/-- R107, row by row. -/
def opcodeTable : List OpcodeRow :=
  [ ⟨"NOP", 0x00000000, 0xFFFFFCFF, false⟩
  , ⟨"INIT", 0x00000001, 0xFFFFFCFF, false⟩
  , ⟨"WRITE_WORD", 0x00000002, 0xFFFFFCFF, true⟩
  , ⟨"WRITE_ARRAY", 0x00000003, 0xFFFFFCFF, true⟩
  , ⟨"FAST_WRITE", 0x00000004, 0xFFFFFCFF, true⟩
  , ⟨"ERASE", 0x00000005, 0xFFFFFCFF, true⟩ ]

/-- R107: the row selects the word. -/
def OpcodeRow.selects (r : OpcodeRow) (c : Word) : Bool :=
  c &&& r.mask == r.value && (!r.needsExecb || c.extractLsb' 8 2 != 0)

/-- R101: the mnemonic of a command, as R107 spells it. -/
def mnemonic : Instr → String
  | .nop _ => "NOP"
  | .init _ => "INIT"
  | .writeWord _ => "WRITE_WORD"
  | .writeArray _ => "WRITE_ARRAY"
  | .fastWrite _ => "FAST_WRITE"
  | .erase _ => "ERASE"

/-- The bytes of an access width (R108). -/
def Width.bytes : Width → Nat
  | .w8 => 1
  | .w16 => 2
  | .w32 => 4

/-- R20: the offset of a register in the window. -/
def Reg.offset : Reg → Nat
  | .cmd => 0x00
  | .addr => 0x04
  | .data => 0x08
  | .count => 0x0C
  | .src => 0x10
  | .clkmhz => 0x14
  | .status => 0x18
  | .written => 0x1C
  | .pulsecnt => 0x20
  | .weprot0 => 0x24
  | .weprot1 => 0x28

/-- R20: the register at a 4-aligned offset; `none` for the reserved offsets 0x2C to 0x3C. -/
def Reg.ofOffset : Nat → Option Reg
  | 0x00 => some .cmd
  | 0x04 => some .addr
  | 0x08 => some .data
  | 0x0C => some .count
  | 0x10 => some .src
  | 0x14 => some .clkmhz
  | 0x18 => some .status
  | 0x1C => some .written
  | 0x20 => some .pulsecnt
  | 0x24 => some .weprot0
  | 0x28 => some .weprot1
  | _ => none

/-- R108: `FPC.<NAME>`, the host address of a register. -/
def regAddr (p : Params) (r : Reg) : Word := BitVec.ofNat 32 (p.fpcBase + r.offset)

/-- R108: `W32 FPC.<NAME>, v`. -/
def storeReg (p : Params) (r : Reg) (v : Word) : HostOp := .store .w32 (regAddr p r) v

/-- R108: `R32 FPC.<NAME>`. -/
def loadReg (p : Params) (r : Reg) : HostOp := .load .w32 (regAddr p r)

/-- R108: `CMD <MNEMONIC>, b<EXECB>`. -/
def command (p : Params) (i : Instr) : HostOp := storeReg p .cmd (encode i)

/-- R109: the expansion of a pseudo-instruction. INIT completes in its acceptance step and needs no `POLL`. -/
def Pseudo.expand (p : Params) : Pseudo → List HostOp
  | .flashInit mhz => [storeReg p .clkmhz mhz, command p (.init 0)]
  | .flashWrite a d e => [storeReg p .addr a, storeReg p .data d, command p (.writeWord e), .poll]
  | .flashWriteArray src a n e =>
    [storeReg p .src src, storeReg p .addr a, storeReg p .count n, command p (.writeArray e), .poll]
  | .flashFastWrite src a n e =>
    [storeReg p .src src, storeReg p .addr a, storeReg p .count n, command p (.fastWrite e), .poll]
  | .flashErase a e => [storeReg p .addr a, command p (.erase e), .poll]

end Sys2Proof
end

