-- ==== Sys2Proof/Machine/State.lean ====
section
/-! DEFINITION. The machine's state (spec/10_state.md, R20 to R51), its faults and refusals, and its state after reset
(R51, R300). -/

namespace Sys2Proof.Machine

/-- A memory: the listed bytes of FLASH (R49) or SYSMEM (R50), in the canonical form of `Memory.wf`. -/
abbrev Memory := List Host.Cell

/-- R40: the controller's phase, 2 bits. -/
inductive Phase where
  | idle
  | issue
  | wait
  | next
deriving DecidableEq, Repr

/-- R40: the encoding of a phase. -/
def Phase.code : Phase → BitVec 2
  | .idle => 0
  | .issue => 1
  | .wait => 2
  | .next => 3

/-- R41: the operation in progress. `none` is the reset value 0 (log 11). -/
inductive Op where
  | none
  | writeWord
  | writeArray
  | fastWrite
  | erase
deriving DecidableEq, Repr

/-- R41: the code that `op` holds. -/
def Op.code : Op → BitVec 4
  | .none => 0
  | .writeWord => 2
  | .writeArray => 3
  | .fastWrite => 4
  | .erase => 5

/-- R48: a request to the flash macro. The N of `Prog` is the length of `words` (log 11). -/
inductive Request where
  | prog (ta : Word) (words : List Word) (pre burst : Bool)
  | erase (ta : Word)
deriving DecidableEq, Repr

/-- Whose turn it is (R6, R81), or a reset from outside (R302; log 12). -/
inductive Turn where
  | agent (a : Agent)
  | reset
deriving DecidableEq, Repr

/-- The state of the block, its memories, and the model's own record of the host and of the order of steps. -/
structure State where
  /-- R8: the parameters; no step changes them (log 4). -/
  params : Params
  /-- `ADDR` (R21). -/
  addr : Word
  /-- `DATA` (R21). -/
  data : Word
  /-- `COUNT` (R21). -/
  count : Word
  /-- `SRC` (R21). -/
  src : Word
  /-- `CLKMHZ` (R22). -/
  clkmhz : Word
  /-- `STATUS.RESULT` (R23). -/
  result : BitVec 1
  /-- `STATUS.ERRKIND` (R23). -/
  errkind : BitVec 4
  /-- `STATUS.LASTOP` (R23). -/
  lastop : BitVec 4
  /-- `WRITTEN` (R24). -/
  written : Word
  /-- `PCNT`, the storage of `PULSECNT[7:0]` (R25, R47). -/
  pcnt : BitVec 8
  /-- `WEPROT0` (R26). -/
  weprot0 : Word
  /-- `WEPROT1` (R26). -/
  weprot1 : Word
  /-- `phase` (R40). -/
  phase : Phase
  /-- `op` (R41). -/
  op : Op
  /-- `TA` (R42). -/
  ta : Word
  /-- `N` (R42). -/
  n : BitVec 5
  /-- `BURST` (R42). -/
  burst : Bool
  /-- `EXB` (R42). -/
  exb : BitVec 2
  /-- `A_BASE` (R42). -/
  aBase : Word
  /-- `A_SRC` (R42). -/
  aSrc : Word
  /-- `A_COUNT` (R42). -/
  aCount : Word
  /-- `A_IDX` (R42). -/
  aIdx : Word
  /-- `S[0..15]`, the reference words (R43). -/
  sref : Vector Word 16
  /-- `W[0..15]`, the issued words (R43). -/
  wiss : Vector Word 16
  /-- `PRE_EN` (R44). -/
  preEn : Bool
  /-- `POST_EN` (R44). -/
  postEn : Bool
  /-- `MF_DONE` (R45). -/
  mfDone : Bool
  /-- `MF_PRE` (R45). -/
  mfPre : Bool
  /-- `MF_REGV` (R45). -/
  mfRegv : Bool
  /-- `LK_BANK` (R46). -/
  lkBank : Bank
  /-- `LK_MASK` (R46). -/
  lkMask : Word
  /-- `LK_SAVE` (R46). -/
  lkSave : Word
  /-- `LK_HELD` (R46). -/
  lkHeld : Bool
  /-- `MPEND` (R48). -/
  mpend : Option Request
  /-- `FLASH` (R49). -/
  flash : Memory
  /-- `SYSMEM` (R50). -/
  sysmem : Memory
  /-- The model's own: the value that the last host load returned (log 2). -/
  rdata : Word
  /-- The model's own: the rest of the host's program (log 2). -/
  host : List HostOp
  /-- The model's own: which agent steps next; where it ends, see `agentChosen` (log 1). -/
  sched : List Turn
  /-- The model's own: the free values still given; where they end, `Config.freeBits` gives them (log 3). -/
  tape : List Nat
  /-- The model's own: how many free values have been taken (log 3). -/
  drawn : Nat
deriving DecidableEq, Repr

/-- R280: the model faults, host actions to which the block gives no meaning. Each is the spec's own fault, so each is
safe: the run stops where the spec says it stops. -/
inductive Fault where
  /-- `F_BUSY_WRITE` (R281): raised by a host store to the register window while a command runs. Safe. -/
  | busyWrite (offset : Nat) (value : Word)
  /-- `F_BAD_WIDTH` (R282): raised by a host access to the window that is not 4 bytes at a 4-aligned address. Safe. -/
  | badWidth (addr : Word) (w : Width)
  /-- `F_RESERVED_OFFSET` (R282): raised by a host access to the offsets 0x2C to 0x3C. Safe. -/
  | reservedOffset (addr : Word) (w : Width)
  /-- `F_FLASH_STORE` (R283): raised by a host store to the flash range. Safe. -/
  | flashStore (addr : Word) (w : Width) (value : Word)
  /-- `F_MISALIGNED` (R284): raised by a host access to flash or SYSMEM that is not naturally aligned. Safe. -/
  | misaligned (addr : Word) (w : Width)
  /-- `F_SRC_IN_BLOCK` (R285): raised by the controller's read of a source word that touches the window. Safe. -/
  | srcInBlock (addr : Nat)
deriving DecidableEq, Repr

/-- R280: the fault code of the spec. -/
def Fault.code : Fault → Nat
  | .busyWrite _ _ => 1
  | .badWidth _ _ => 2
  | .reservedOffset _ _ => 3
  | .flashStore _ _ _ => 4
  | .misaligned _ _ => 5
  | .srcInBlock _ => 6

/-- Why a step has no meaning. No instruction of this model ends in one. -/
inductive Refusal where
  /-- Raised by an arm of `exec` that has no meaning yet; no arm raises it now. Safe: the run stops. -/
  | notModelled (mnemonic : String)
deriving DecidableEq, Repr

/-- What a step answers. -/
abbrev Result := Host.Outcome State Fault Refusal

/-- R51, R300: every register and latch at its reset value, both memories with nothing listed, the model's own fields
empty (log 13). -/
def State.reset : State :=
  { params := Config.defaults
    addr := 0, data := 0, count := 0, src := 0, clkmhz := 0
    result := 0, errkind := 0, lastop := 0, written := 0, pcnt := 0
    weprot0 := 0xFFFFFFFF, weprot1 := 0xFFFFFFFF
    phase := .idle, op := .none
    ta := 0, n := 0, burst := false, exb := 0
    aBase := 0, aSrc := 0, aCount := 0, aIdx := 0
    sref := Vector.replicate 16 0, wiss := Vector.replicate 16 0
    preEn := false, postEn := false
    mfDone := false, mfPre := false, mfRegv := false
    lkBank := .b0, lkMask := 0, lkSave := 0, lkHeld := false
    mpend := none
    flash := [], sysmem := []
    rdata := 0, host := [], sched := [], tape := [], drawn := 0 }

end Sys2Proof.Machine
end

