-- ==== Sys2Proof/Machine/Flags.lean ====
section
/-! DEFINITION. The status word (R23), the error kinds (R270), and the verify and correction functions of
program_verify_fsm and of the flash macro (R72 to R75, R172, R173). -/

namespace Sys2Proof.Machine

/-- R270: the error kinds that the block reports. Code 5 (TIMEOUT) and the codes 7 to 15 are never reported. -/
inductive ErrKind where
  | none
  | invalidAddress
  | bankConflict
  | verifyExhausted
  | regionLockViolation
  | illegalCommand
deriving DecidableEq, Repr

/-- R270: the code of an error kind in `STATUS.ERRKIND`. -/
def ErrKind.code : ErrKind → BitVec 4
  | .none => 0
  | .invalidAddress => 1
  | .bankConflict => 2
  | .verifyExhausted => 3
  | .regionLockViolation => 4
  | .illegalCommand => 6

/-- R7, R17: the two result codes, `NOERROR` = 0 and `ERROR` = 1. -/
def resultNoError : BitVec 1 := 0

/-- R17: the result code `ERROR`. -/
def resultError : BitVec 1 := 1

/-- R40: `STATUS.BUSY` is derived from the phase. -/
def State.busy (s : State) : Bool := s.phase != .idle

/-- R23: the status word, bit 31 first: [31:12] zero, LASTOP, ERRKIND, [3:2] zero, RESULT, BUSY. -/
def State.status (s : State) : Word :=
  0#20 ++ s.lastop ++ s.errkind ++ 0#2 ++ s.result ++ BitVec.ofBool s.busy

/-- R72: some target bit of the issued word (a 0 bit of `w`) already reads 0. -/
def preFails (w old : Word) : Bool := ~~~w &&& ~~~old != 0

/-- R73: the word after a committed pulse whose failed bits are `f`, cut down to `f ⊆ ~w & old`. -/
def programWord (old w f : Word) : Word := old &&& (w ||| (f &&& (~~~w &&& old)))

/-- R75: the byte after an erase pulse whose failed bits are `z`, cut down to `z ⊆ ~old`. -/
def eraseByte (old z : Byte) : Byte := ~~~(z &&& ~~~old)

/-- R172: the correction after a pre-verify failure, reference `s`, contents `e`. -/
def preCorrect (s e : Word) : Word := s ||| ~~~(e ||| s)

/-- R173: the correction after a post-verify failure, `~failBits` with `failBits = ~s & e`. -/
def postCorrect (s e : Word) : Word := ~~~(~~~s &&& e)

end Sys2Proof.Machine
end

