-- ==== Sys2Proof/Machine/Operands.lean ====
section
/-! DEFINITION. The address helpers of R15, the validators of spec/40_validation.md, lock bits (R27, R161), and the
register file as the host reads and writes it (R20 to R30, R150, R153). Addresses are exact integers (R11). -/

namespace Sys2Proof.Machine

/-- R15: `off(a)`. -/
def off (p : Params) (a : Nat) : Nat := a - p.flashBase

/-- R15: `InFlash(a)`. -/
abbrev InFlash (p : Params) (a : Nat) : Prop := p.flashBase ≤ a ∧ a < p.flashEnd

/-- R20: the address lies in the register window. -/
abbrev InWindow (p : Params) (a : Nat) : Prop := p.fpcBase ≤ a ∧ a < p.fpcBase + Config.windowSize

/-- R15: `bank(a)`. -/
def bankOf (p : Params) (a : Nat) : Bank := if off p a / p.bankSize = 0 then .b0 else .b1

/-- R15: `sidx(a)`, the sector's index within its bank. -/
def sidx (p : Params) (a : Nat) : Nat := off p a % p.bankSize / Config.sectorSize

/-- R15: `sbase(a)`, the sector's first byte. -/
def sbase (p : Params) (a : Nat) : Nat := a - off p a % Config.sectorSize

/-- R15: `max_offset`. -/
def maxOffset (p : Params) : Nat := 2 * p.bankSize - 1

/-- R130. -/
abbrev WriteAddrValid (p : Params) (a : Nat) : Prop := a % 4 = 0 ∧ InFlash p a

/-- R131, for 1 ≤ n ≤ 16. -/
abbrev MassWriteAddrValid (p : Params) (a n : Nat) : Prop :=
  a % Config.burstAlign = 0 ∧ InFlash p a ∧ InFlash p (a + 4 * n - 1)

/-- R132. -/
abbrev EraseAddrValid (p : Params) (a : Nat) : Prop := a % Config.sectorSize = 0 ∧ InFlash p a

/-- R133. -/
abbrev IsInBank0 (p : Params) (a : Nat) : Prop := p.flashBase ≤ a ∧ a < p.flashBase + p.bankSize

/-- R133. -/
abbrev IsInBank1 (p : Params) (a : Nat) : Prop := p.flashBase + p.bankSize ≤ a ∧ a < p.flashEnd

/-- R135: the target range `[lo, hi]` meets a bank that `EXECB` declares. -/
abbrev BankConflict (p : Params) (lo hi : Nat) (e : BitVec 2) : Prop :=
  (e.getLsbD 0 = true ∧ (IsInBank0 p lo ∨ IsInBank0 p hi)) ∨
    (e.getLsbD 1 = true ∧ (IsInBank1 p lo ∨ IsInBank1 p hi))

/-- R137, for n ≥ 1. -/
abbrev SrcValid (src n : Nat) : Prop := src % 4 = 0 ∧ src + 4 * n - 1 ≤ Config.addressSpace - 1

/-- R216: the burst length, `COUNT` clamped to 16. -/
def burstLength (s : State) : Nat := min s.count.toNat Config.burstMax

/-- R84, R102: the bank is declared in `EXECB` value `e`. -/
def declares (e : BitVec 2) : Bank → Bool
  | .b0 => e.getLsbD 0
  | .b1 => e.getLsbD 1

/-- R27: the bits of a lock register that are hardwired to 1. -/
def hardwired (p : Params) : Word := ~~~(BitVec.ofNat 32 (2 ^ p.nsect - 1))

/-- R26: the lock register of a bank. -/
def State.weprot (s : State) : Bank → Word
  | .b0 => s.weprot0
  | .b1 => s.weprot1

/-- R26: write the lock register of a bank. -/
def State.setWeprot (b : Bank) (v : Word) (s : State) : State :=
  { s with
    weprot0 := if b = .b0 then v else s.weprot0
    weprot1 := if b = .b1 then v else s.weprot1 }

/-- R71: `Locked(a)`, the lock bit of the sector of `a`. -/
def State.locked (s : State) (a : Nat) : Bool := (s.weprot (bankOf s.params a)).getLsbD (sidx s.params a)

/-- R161: the mask of `LockSpan(lo, hi)`. -/
def lockMask (p : Params) (lo hi : Nat) : Word := 1#32 <<< sidx p lo ||| 1#32 <<< sidx p hi

/-- R153: a register as the host reads it. `CMD` reads 0 (R30). -/
def State.readReg (s : State) : Reg → Word
  | .cmd => 0
  | .addr => s.addr
  | .data => s.data
  | .count => s.count
  | .src => s.src
  | .clkmhz => s.clkmhz
  | .status => s.status
  | .written => s.written
  | .pulsecnt => s.pcnt.setWidth 32
  | .weprot0 => s.weprot0
  | .weprot1 => s.weprot1

/-- R150: the host's write of `v` to a register that is not `CMD`, while idle. Read-only registers ignore it. -/
def State.writeReg (r : Reg) (v : Word) (s : State) : State :=
  match r with
  | .cmd | .status | .written | .pulsecnt => s
  | .addr => { s with addr := v }
  | .data => { s with data := v }
  | .count => { s with count := v }
  | .src => { s with src := v }
  | .clkmhz => { s with clkmhz := v }
  | .weprot0 => { s with weprot0 := v ||| hardwired s.params }
  | .weprot1 => { s with weprot1 := v ||| hardwired s.params }

end Sys2Proof.Machine
end

