-- ==== Sys2Proof/Machine/Ops.lean ====
section
/-! DEFINITION. The shared operations: memory (R13, R62, R68), free values (R13), the lock save and restore (R162, R163),
completion and the taking of an error (R160, R272), acceptance (R155, R157), the start of a word or burst (R156) and the
issue step (R158). -/

namespace Sys2Proof.Machine

/-! ### Memory -/

/-- What an address that is not listed reads as (log 6). -/
def Memory.unlisted : Byte := Config.unlistedByte

/-- The byte at an address. -/
def Memory.read (m : Memory) (a : Nat) : Byte :=
  match m.find? (fun c => c.1 == a) with
  | some c => c.2
  | none => Memory.unlisted

/-- The canonical form: addresses strictly rising, no byte listed that reads as an unlisted one. -/
def Memory.wf (m : Memory) : Bool :=
  decide (m.IsChain (fun c d => c.1 < d.1)) && m.all (fun c => c.2 != Memory.unlisted)

/-- The listed cells of the `n` bytes at `lo` whose byte `k` is `f k`. -/
def cellsAt (lo n : Nat) (f : Nat → Byte) : Memory :=
  ((List.range n).map (fun k => (lo + k, f k))).filter (fun c => c.2 != Memory.unlisted)

/-- Replace the `n` bytes at `lo` by `f 0`, `f 1`, …: the one operation that changes a memory. -/
def Memory.fill (m : Memory) (lo n : Nat) (f : Nat → Byte) : Memory :=
  m.filter (fun c => decide (c.1 < lo)) ++ cellsAt lo n f ++ m.filter (fun c => decide (lo + n ≤ c.1))

/-- R62: byte `k` of a little-endian value. -/
def byteOf (v : Word) (k : Nat) : Byte := v.extractLsb' (8 * k) 8

/-- R62: the little-endian value of `n` bytes at `a`. -/
def readLE (byteAt : Nat → Byte) (a : Nat) : Nat → Word
  | 0 => 0
  | n + 1 => readLE byteAt (a + 1) n <<< 8 ||| (byteAt a).setWidth 32

/-- R13: `MemWrite`, `n` bytes of `v` little-endian. -/
def Memory.writeLE (m : Memory) (a n : Nat) (v : Word) : Memory := m.fill a n (byteOf v)

/-- R13: `FlashWord(a)`, exact. -/
def Memory.word (m : Memory) (a : Nat) : Word := readLE m.read a 4

/-- The `n` words from `a` on. -/
def Memory.words (m : Memory) (a n : Nat) : List Word := (List.range n).map (fun i => m.word (a + 4 * i))

/-- Replace the words from `a` on by `ws`. -/
def Memory.putWords (m : Memory) (a : Nat) (ws : List Word) : Memory :=
  m.fill a (4 * ws.length) (fun k => byteOf (ws.getD (k / 4) 0) (k % 4))

/-- R60: the byte at an address of flash or SYSMEM. -/
def State.memByte (s : State) (a : Nat) : Byte := if InFlash s.params a then s.flash.read a else s.sysmem.read a

/-- R13: `MemRead(a, n)`. -/
def State.memRead (s : State) (a n : Nat) : Word := readLE s.memByte a n

/-- R68: some byte of `[a, a+4)` lies in the register window. -/
def touchesWindow (p : Params) (a : Nat) : Bool := (List.range 4).any (fun k => decide (InWindow p (a + k)))

/-- R68: `SrcRead(a)`; `none` where it faults with `F_SRC_IN_BLOCK`. -/
def State.srcRead (s : State) (a : Nat) : Option Word :=
  if touchesWindow s.params a then none else some (s.memRead a 4)

/-! ### Free values -/

/-- R13 `draw`: the next free value, a bit string (log 3). -/
def State.drawValue (s : State) : Nat := s.tape.headD (Config.freeBits s.drawn)

/-- The state after one draw. -/
def State.drawNext (s : State) : State := { s with tape := s.tape.tail, drawn := s.drawn + 1 }

/-- Word `i` of a drawn bit string. -/
def drawWord (d i : Nat) : Word := BitVec.ofNat 32 (d >>> (32 * i))

/-- Byte `k` of a drawn bit string. -/
def drawByte (d k : Nat) : Byte := BitVec.ofNat 8 (d >>> (8 * k))

/-! ### Write-protect locks -/

/-- R161, R162: `Unlock(lo, hi)`. -/
def State.unlock (lo hi : Nat) (s : State) : State :=
  let b := bankOf s.params lo
  let m := lockMask s.params lo hi
  { (s.setWeprot b (s.weprot b &&& ~~~m)) with
    lkBank := b, lkMask := m, lkSave := s.weprot b &&& m, lkHeld := true }

/-- R163: `Restore()`. -/
def State.restore (s : State) : State :=
  { (s.setWeprot s.lkBank ((s.weprot s.lkBank &&& ~~~s.lkMask) ||| s.lkSave)) with lkHeld := false }

/-- R160: the restore of `finish`, if a save is outstanding. -/
def State.restoreIfHeld (s : State) : State := if s.lkHeld then s.restore else s

/-! ### Completion, and the taking of an error -/

/-- R160, R272: `finish(res, kind, written)`, the completion of every mutating command, and with an error kind the taking
of that error: there is no vector and no return (R272, R274). -/
def State.finish (res : BitVec 1) (kind : ErrKind) (count : Word) (s : State) : State :=
  { s.restoreIfHeld with result := res, errkind := kind.code, written := count, phase := .idle }

/-- R272: the error entry, `finish(1, kind, written)`. -/
def State.fail (kind : ErrKind) (count : Word) (s : State) : State := s.finish resultError kind count

/-- R160: `finish(0, NONE, written)`. -/
def State.succeed (count : Word) (s : State) : State := s.finish resultNoError .none count

/-! ### Acceptance -/

/-- R155, R157, R152: the report registers at acceptance of a command word. -/
def State.report (lastop : BitVec 4) (res : BitVec 1) (kind : ErrKind) (s : State) : State :=
  { s with lastop := lastop, result := res, errkind := kind.code, written := 0, pcnt := 0 }

/-- R155: acceptance of a mutating command, up to its own acceptance part. -/
def State.accept (o : Op) (e : BitVec 2) (s : State) : State :=
  { s.report o.code resultNoError .none with op := o, exb := e }

/-- R157: the completion of an ILLEGAL command word. -/
def State.illegal (c : Word) (s : State) : State := s.report (opField c) resultError .illegalCommand

/-- R154: a store of `c` to `CMD` has a meaning only while idle. -/
def whenIdle (c : Word) (s : State) (k : State → Result) : Result :=
  if s.phase = .idle then k s else .fault (.busyWrite 0 c)

/-- R104, R155: what every mutating command does with its word: it faults while busy, is ILLEGAL with `EXECB` = 0b00
(log 10), and otherwise is accepted and runs its own acceptance part. -/
def acceptMutating (c : Word) (o : Op) (e : BitVec 2) (part : State → Result) (s : State) : Result :=
  whenIdle c s (fun s => if e = 0 then .next (s.illegal c) else part (s.accept o e))

/-! ### Words, bursts and issues -/

/-- R156, R174, R220: set the first elements of a register file. Elements beyond them keep their values (R43). -/
def setLanes (v : Vector Word 16) (ws : List Word) : Vector Word 16 :=
  Vector.ofFn (fun i => ws.getD i.val v[i])

/-- R43: the first `N` elements of a register file. -/
def lanes (v : Vector Word 16) (n : BitVec 5) : List Word := v.toList.take n.toNat

/-- R156: `StartProgram(ta, n, src_words, burst)`, `n` the number of words. -/
def State.startProgram (ta : Nat) (ws : List Word) (burst : Bool) (s : State) : State :=
  { (s.unlock ta (ta + 4 * ws.length - 1)) with
    ta := BitVec.ofNat 32 ta
    n := BitVec.ofNat 5 ws.length
    burst := burst
    sref := setLanes s.sref ws
    wiss := setLanes s.wiss ws
    preEn := true
    postEn := true
    pcnt := 0
    phase := .issue }

/-- R158: the request of an issue. -/
def State.request (s : State) : Request :=
  if s.op = .erase then .erase s.ta else .prog s.ta (lanes s.wiss s.n) s.preEn s.burst

/-- R158: the issue step, enabled in ISSUE with no request pending. -/
def State.issue (s : State) : State :=
  { s with
    mfDone := false, mfPre := false, mfRegv := false
    pcnt := s.pcnt + 1
    mpend := some s.request
    phase := .wait }

/-- R176, R224, R246: another issue if the count is below the cap, else the exit `exhausted`. -/
def retry (cap : Nat) (exhausted : State → State) (s : State) : State :=
  if s.pcnt.toNat < cap then { s with phase := .issue } else exhausted s

end Sys2Proof.Machine
end

