-- ==== Sys2Proof/Machine/Erase.lean ====
section
/-! DEFINITION. ERASE: acceptance (flash_erase_engine) and the verify and retry of erase_verify_retry_unit
(spec/44_erase.md). -/

namespace Sys2Proof.Machine

/-- R241: the acceptance part of ERASE. -/
def acceptErase (s : State) : State :=
  let a := s.addr.toNat
  if ¬ EraseAddrValid s.params a then s.fail .invalidAddress 0
  else if BankConflict s.params a (a + 4095) s.exb then s.fail .bankConflict 0
  else { (s.unlock a (a + 4095)) with ta := s.addr, pcnt := 0, phase := .issue }

/-- R240: ERASE's acceptance step. -/
def execErase (e : BitVec 2) (s : State) : Result :=
  acceptMutating (encode (.erase e)) .erase e (fun s => .next (acceptErase s)) s

/-- R245: `EraseVerify(sb)`, the burst-compare of the sector's 1024 words with all-ones. -/
def eraseVerify (m : Memory) (sb : Nat) : Bool :=
  (List.range 1024).all (fun k => m.word (sb + 4 * k) == 0xFFFFFFFF)

/-- R244: an erase that exhausts its pulses. -/
def eraseExhausted (s : State) : State := s.fail .verifyExhausted 0

/-- R244: the wait step of an erase. -/
def waitErase (s : State) : State :=
  if eraseVerify s.flash s.ta.toNat then s.succeed 0
  else retry Config.maxErasePulses eraseExhausted s

end Sys2Proof.Machine
end

