-- ==== Sys2Proof/Machine/ProgramArray.lean ====
section
/-! DEFINITION. WRITE_ARRAY's sequencer and FAST_WRITE's burst loop (spec/43_program_array.md). -/

namespace Sys2Proof.Machine

/-- R201: the acceptance part of WRITE_ARRAY. -/
def acceptWriteArray (s : State) : State :=
  if s.src.toNat % 4 ≠ 0 then s.fail .invalidAddress 0
  else { s with aBase := s.addr, aSrc := s.src, aCount := s.count, aIdx := 0, phase := .next }

/-- R200: WRITE_ARRAY's acceptance step. -/
def execWriteArray (e : BitVec 2) (s : State) : Result :=
  acceptMutating (encode (.writeArray e)) .writeArray e (fun s => .next (acceptWriteArray s)) s

/-- R203: the target address of the current word. -/
def State.arrayTarget (s : State) : Nat := s.aBase.toNat + 4 * s.aIdx.toNat

/-- R203: the source address of the current word. -/
def State.arraySource (s : State) : Nat := s.aSrc.toNat + 4 * s.aIdx.toNat

/-- R203: the NEXT step of WRITE_ARRAY. -/
def nextWord (s : State) : Result :=
  if s.aIdx = s.aCount then .next (s.succeed s.aIdx)
  else
    let s := { s with pcnt := 0 }
    let a := s.arrayTarget
    if ¬ WriteAddrValid s.params a then .next (s.fail .invalidAddress s.aIdx)
    else if s.arraySource + 3 > Config.addressSpace - 1 then .next (s.fail .invalidAddress s.aIdx)
    else if BankConflict s.params a (a + 3) s.exb then .next (s.fail .bankConflict s.aIdx)
    else
      match s.srcRead s.arraySource with
      | none => .fault (.srcInBlock s.arraySource)
      | some d => .next (s.startProgram a [d] false)

/-- R217: the source words of a burst, read in order from `src`; the address of the first that touches the window where
one does (R68, log 15). -/
def State.srcWords (s : State) (src : Nat) : Nat → Except Nat (List Word)
  | 0 => .ok []
  | n + 1 =>
    match s.srcRead src with
    | none => .error src
    | some d =>
      match State.srcWords s (src + 4) n with
      | .ok ds => .ok (d :: ds)
      | .error a => .error a

/-- R217: the acceptance part of FAST_WRITE. -/
def acceptFastWrite (s : State) : Result :=
  let n := burstLength s
  let a := s.addr.toNat
  let src := s.src.toNat
  if n = 0 then .next (s.succeed 0)
  else if ¬ MassWriteAddrValid s.params a n then .next (s.fail .invalidAddress 0)
  else if ¬ SrcValid src n then .next (s.fail .invalidAddress 0)
  else if BankConflict s.params a (a + 4 * n - 1) s.exb then .next (s.fail .bankConflict 0)
  else
    match s.srcWords src n with
    | .error bad => .fault (.srcInBlock bad)
    | .ok ds => .next (s.startProgram a ds true)

/-- R215: FAST_WRITE's acceptance step. -/
def execFastWrite (e : BitVec 2) (s : State) : Result :=
  acceptMutating (encode (.fastWrite e)) .fastWrite e acceptFastWrite s

/-- R42, R160: the completion of a burst, `finish` with `BURST` cleared: it is 1 only while FAST_WRITE runs (log 19). -/
def State.finishBurst (res : BitVec 1) (kind : ErrKind) (count : Word) (s : State) : State :=
  { s.finish res kind count with burst := false }

/-- R220, R223: a burst that exhausts its issues reports no word. -/
def burstExhausted (s : State) : State := s.finishBurst resultError .verifyExhausted 0

/-- R220: the wait step of a burst; each correction is applied to every lane (R219). -/
def waitBurst (s : State) : State :=
  let rs := lanes s.sref s.n
  let es := s.flash.words s.ta.toNat rs.length
  if s.mfRegv then s.finishBurst resultError .regionLockViolation 0
  else if s.mfPre then
    retry Config.maxProgramPulses burstExhausted
      { s with wiss := setLanes s.wiss (List.zipWith preCorrect rs es), preEn := false }
  else if es ≠ rs then
    retry Config.maxProgramPulses burstExhausted
      { s with wiss := setLanes s.wiss (List.zipWith postCorrect rs es) }
  else s.finishBurst resultNoError .none (s.n.setWidth 32)

end Sys2Proof.Machine
end

