-- ==== Sys2Proof/Machine/ProgramWord.lean ====
section
/-! DEFINITION. WRITE_WORD and the word loop of program_verify_fsm (spec/42_program_word.md). -/

namespace Sys2Proof.Machine

/-- R171: the acceptance part of WRITE_WORD. -/
def acceptWriteWord (s : State) : State :=
  let a := s.addr.toNat
  if ¬ WriteAddrValid s.params a then s.fail .invalidAddress 0
  else if BankConflict s.params a (a + 3) s.exb then s.fail .bankConflict 0
  else s.startProgram a [s.data] false

/-- R170: WRITE_WORD's acceptance step. -/
def execWriteWord (e : BitVec 2) (s : State) : Result :=
  acceptMutating (encode (.writeWord e)) .writeWord e (fun s => .next (acceptWriteWord s)) s

/-- R174 `WordSuccess`: WRITE_WORD completes; WRITE_ARRAY goes on to its next word (R205). -/
def wordSuccess (s : State) : State :=
  if s.op = .writeArray then
    { s.restore with aIdx := s.aIdx + 1, written := s.aIdx + 1, phase := .next }
  else s.succeed 1

/-- R174 `WordExhausted`: WRITE_WORD reports no word, WRITE_ARRAY the words before this one (R206). -/
def wordExhausted (s : State) : State :=
  if s.op = .writeArray then s.fail .verifyExhausted s.aIdx else s.fail .verifyExhausted 0

/-- R174: the wait step of a word, pre-verify before post-verify (R74, R275). -/
def waitWord (s : State) : State :=
  let r := s.sref[0]
  let e := s.flash.word s.ta.toNat
  if s.mfPre then
    retry Config.maxProgramPulses wordExhausted
      { s with wiss := setLanes s.wiss [preCorrect r e], preEn := false }
  else if e ≠ r then
    retry Config.maxProgramPulses wordExhausted { s with wiss := setLanes s.wiss [postCorrect r e] }
  else wordSuccess s

end Sys2Proof.Machine
end

