-- ==== Sys2Proof/Machine/Controller.lean ====
section
/-! DEFINITION. The controller's step (spec/41_control.md R158, R159, R165). -/

namespace Sys2Proof.Machine

/-- R165: the controller has a step. -/
def State.controllerEnabled (s : State) : Bool :=
  match s.phase with
  | .idle => false
  | .issue => s.mpend.isNone
  | .wait => s.mfDone && s.op != .none
  | .next => true

/-- R159: the wait step, by the operation in progress. No operation is in progress under `Op.none`: held (log 14). -/
def waitStep (s : State) : State :=
  match s.op with
  | .writeWord | .writeArray => waitWord s
  | .fastWrite => waitBurst s
  | .erase => waitErase s
  | .none => s

/-- R158, R159, R165, R203: the controller's step; where it is held, nothing changes (R14, log 9). -/
def controllerStep (s : State) : Result :=
  match s.phase with
  | .idle => .next s
  | .issue => .next (if s.mpend = none then s.issue else s)
  | .wait => .next (if s.mfDone then waitStep s else s)
  | .next => nextWord s

end Sys2Proof.Machine
end

