-- ==== Sys2Proof/Machine/FlashMacro.lean ====
section
/-! DEFINITION. The flash macro's completion step (spec/20_memory.md R71 to R79). -/

namespace Sys2Proof.Machine

/-- R71, R77: a burst meets a violating word at `a`: one in `RESERVED` or in a locked sector. -/
def State.violates (s : State) (a : Nat) : Bool := s.params.reserved.contains a || s.locked a

/-- R71, R77: the index of the first violating word of `n` words at `ta`, if there is one. -/
def State.firstViolation (s : State) (ta n : Nat) : Option Nat :=
  (List.range n).find? (fun i => s.violates (ta + 4 * i))

/-- R77: the words a violating burst leaves. Each word before the first violating one is programmed or not, by its own
draw (the bit of `d` after those of all words), with its own failed bits; the others are unchanged. -/
def violatedWords (d v : Nat) (ws olds : List Word) : List Word :=
  (List.range ws.length).map (fun i =>
    let old := olds.getD i 0
    if i < v ∧ d.testBit (32 * ws.length + i) then programWord old (ws.getD i 0) (drawWord d i) else old)

/-- R73, R78: the words a committed pulse leaves; a word in a locked sector is unchanged. -/
def State.pulsedWords (s : State) (d ta : Nat) (ws olds : List Word) : List Word :=
  (List.range ws.length).map (fun i =>
    let old := olds.getD i 0
    if s.locked (ta + 4 * i) then old else programWord old (ws.getD i 0) (drawWord d i))

/-- R72: some word of the request fails pre-verify. -/
def anyPreFails (ws olds : List Word) : Bool := (List.zipWith preFails ws olds).any id

/-- The end of every completion step (R71, R75, R76). -/
def State.completed (s : State) : State := { s with mfDone := true, mpend := none }

/-- R71: the completion of a program request, `d` the draw. -/
def completeProg (d : Nat) (ta : Nat) (ws : List Word) (pre burst : Bool) (s : State) : State :=
  let olds := s.flash.words ta ws.length
  match if burst then s.firstViolation ta ws.length else none with
  | some v =>
    { s.completed with flash := s.flash.putWords ta (violatedWords d v ws olds), mfRegv := true }
  | none =>
    if pre && anyPreFails ws olds then { s.completed with mfPre := true }
    else { s.completed with flash := s.flash.putWords ta (s.pulsedWords d ta ws olds) }

/-- R75: the completion of an erase request, `d` the draw. -/
def completeErase (d : Nat) (sb : Nat) (s : State) : State :=
  if s.locked sb then s.completed
  else
    { s.completed with
      flash := s.flash.fill sb Config.sectorSize
        (fun k => eraseByte (s.flash.read (sb + k)) (drawByte d k)) }

/-- R71, R75: the completion of a request, `d` the draw. -/
def complete (d : Nat) (r : Request) (s : State) : State :=
  match r with
  | .prog ta ws pre burst => completeProg d ta.toNat ws pre burst s
  | .erase ta => completeErase d ta.toNat s

/-- R71: the flash macro's step: it completes the pending request, or has no step (log 9). -/
def pulseUnitStep (s : State) : State :=
  match s.mpend with
  | none => s
  | some r => complete s.drawValue r s.drawNext

end Sys2Proof.Machine
end

