-- ==== Sys2Proof/Machine/Control.lean ====
section
/-! DEFINITION. The commands that complete in their acceptance step (spec/41_control.md R151, R152). -/

namespace Sys2Proof.Machine

/-- R151: NOP changes nothing. `EXECB` is ignored. -/
def execNop (e : BitVec 2) (s : State) : Result :=
  whenIdle (encode (.nop e)) s (fun s => .next s)

/-- R152: INIT reports success and changes nothing else, whatever `CLKMHZ` holds. `EXECB` is ignored. -/
def execInit (e : BitVec 2) (s : State) : Result :=
  whenIdle (encode (.init e)) s (fun s => .next (s.report 1 resultNoError .none))

end Sys2Proof.Machine
end

