-- ==== Sys2Proof/Machine/Dispatch.lean ====
section
/-! DEFINITION. One arm per command: the meaning of its store to CMD (spec/41_control.md R150, R155). -/

namespace Sys2Proof.Machine

def exec (i : Instr) (s : State) : Host.Outcome State Fault Refusal :=
  match i with
  | .nop e => Sys2Proof.Machine.execNop e s
  | .init e => Sys2Proof.Machine.execInit e s
  | .writeWord e => Sys2Proof.Machine.execWriteWord e s
  | .writeArray e => Sys2Proof.Machine.execWriteArray e s
  | .fastWrite e => Sys2Proof.Machine.execFastWrite e s
  | .erase e => Sys2Proof.Machine.execErase e s

end Sys2Proof.Machine
end

