-- ==== Sys2Proof/Machine/HostPort.lean ====
section
/-! DEFINITION. The host's accesses (spec/20_memory.md R64 to R67, R84; spec/41_control.md R150, R153, R154;
spec/30_encoding.md R104, R110). -/

namespace Sys2Proof.Machine

/-- The three regions of R60. -/
inductive Region where
  | flash
  | window
  | sysmem
deriving DecidableEq, Repr

/-- R60: the region of an address. An access belongs to the region of its first byte (log 8). -/
def regionOf (p : Params) (a : Nat) : Region :=
  if InFlash p a then .flash else if InWindow p a then .window else .sysmem

/-- R64, R67: natural alignment. -/
def aligned (w : Width) (a : Word) : Bool := a.toNat % w.bytes == 0

/-- R66: an access that the register window admits. -/
def admitted (w : Width) (a : Word) : Bool := w == .w32 && aligned w a

/-- The low bytes of a value, as a narrow access carries them. -/
def narrow (w : Width) (v : Word) : Word := (v.setWidth (8 * w.bytes)).setWidth 32

/-- R104, R150: a store of `c` to `CMD` while idle. -/
def storeCmd (c : Word) (s : State) : Result :=
  match decode c with
  | .ok i => exec i s
  | .error _ => whenIdle c s (fun s => .next (s.illegal c))

/-- R150, R154, R282: a host store to the window. The busy check comes first (log 7). -/
def storeWindow (w : Width) (a v : Word) (s : State) : Result :=
  if s.busy then .fault (.busyWrite (a.toNat - s.params.fpcBase) (narrow w v))
  else if !admitted w a then .fault (.badWidth a w)
  else
    match Reg.ofOffset (a.toNat - s.params.fpcBase) with
    | none => .fault (.reservedOffset a w)
    | some .cmd => storeCmd v s
    | some r => .next (s.writeReg r v)

/-- R65, R67, R150: a host store. A store to flash faults whatever its alignment (log 7). -/
def hostStore (w : Width) (a v : Word) (s : State) : Result :=
  match regionOf s.params a.toNat with
  | .flash => .fault (.flashStore a w (narrow w v))
  | .window => storeWindow w a v s
  | .sysmem =>
    if !aligned w a then .fault (.misaligned a w)
    else .next { s with sysmem := s.sysmem.writeLE a.toNat w.bytes v }

/-- R84: while a command runs, a flash bank that it does not declare reads as a free value. -/
def State.readsFree (s : State) (a : Word) : Bool :=
  s.busy && !declares s.exb (bankOf s.params a.toNat)

/-- R64, R84: a host load from flash, drawn where R84 says so. -/
def loadFlash (w : Width) (a : Word) (s : State) : State :=
  if s.readsFree a then { s.drawNext with rdata := narrow w (drawWord s.drawValue 0) }
  else { s with rdata := s.memRead a.toNat w.bytes }

/-- R153, R282: a host load from the window. -/
def loadWindow (w : Width) (a : Word) (s : State) : Result :=
  if !admitted w a then .fault (.badWidth a w)
  else
    match Reg.ofOffset (a.toNat - s.params.fpcBase) with
    | none => .fault (.reservedOffset a w)
    | some r => .next { s with rdata := s.readReg r }

/-- R64, R67, R153: a host load; its value goes to `rdata` (log 2). -/
def hostLoad (w : Width) (a : Word) (s : State) : Result :=
  match regionOf s.params a.toNat with
  | .flash => if !aligned w a then .fault (.misaligned a w) else .next (loadFlash w a s)
  | .window => loadWindow w a s
  | .sysmem =>
    if !aligned w a then .fault (.misaligned a w)
    else .next { s with rdata := s.memRead a.toNat w.bytes }

/-- R110: one pass of `POLL`: a load of `STATUS`, and the loop goes on while bit 0 reads 1. -/
def hostPoll (s : State) : State :=
  let s := { s with rdata := s.readReg .status }
  if s.rdata.getLsbD 0 then { s with host := .poll :: s.host } else s

/-- R108: one host operation. -/
def hostOp (o : HostOp) (s : State) : Result :=
  match o with
  | .store w a v => hostStore w a v s
  | .load w a => hostLoad w a s
  | .poll => .next (hostPoll s)

/-- R6: the host's step: the next operation of its program, or none (log 9). -/
def hostStep (s : State) : Result :=
  match s.host with
  | [] => .next s
  | o :: rest => hostOp o { s with host := rest }

end Sys2Proof.Machine
end

