-- ==== Sys2Proof/Machine/Reset.lean ====
section
/-! DEFINITION. Reset while the machine runs (spec/70_reset_and_hazards.md R300 to R302). -/

namespace Sys2Proof.Machine

/-- R302: the array after a reset that cut off request `r`: every word of a program request, and every byte of an erase
request's sector, is drawn freely, locked or not (log 16). -/
def cutOff (d : Nat) (r : Request) (m : Memory) : Memory :=
  match r with
  | .prog ta ws _ _ => m.putWords ta.toNat ((List.range ws.length).map (drawWord d))
  | .erase ta => m.fill ta.toNat Config.sectorSize (drawByte d)

/-- R300, R301: the reset values, with both memories, the parameters and the model's own record kept (log 12). -/
def State.restart (s : State) : State :=
  { State.reset with
    params := s.params, flash := s.flash, sysmem := s.sysmem
    rdata := s.rdata, host := s.host, sched := s.sched, tape := s.tape, drawn := s.drawn }

/-- R302: reset at any time. -/
def resetStep (s : State) : State :=
  match s.mpend with
  | none => s.restart
  | some r => { s.drawNext.restart with flash := cutOff s.drawValue r s.flash }

end Sys2Proof.Machine
end

