-- ==== Sys2Proof/Machine/Agents.lean ====
section
/-! DEFINITION. Whose turn it is, and one turn (spec/00_scope.md R6, R14; spec/20_memory.md R81). -/

namespace Sys2Proof.Machine

/-- R6: one step of an agent. -/
def agentStep (a : Agent) (s : State) : Result :=
  match a with
  | .host => hostStep s
  | .controller => controllerStep s
  | .pulseUnit => .next (pulseUnitStep s)

/-- One turn: an agent's step, or a reset. -/
def turnStep (t : Turn) (s : State) : Result :=
  match t with
  | .agent a => agentStep a s
  | .reset => .next (resetStep s)

/-- Where no schedule is given: the only agent that could step, or a free choice (R14, R79, log 1). A pending request is
never the only candidate, since it may stay pending for ever. -/
def State.unscheduled (s : State) : Result :=
  if s.mpend = none ∧ s.controllerEnabled = false then hostStep s
  else if s.mpend = none ∧ s.host = [] then controllerStep s
  else agentStep (Config.freeAgent s.drawn) { s with drawn := s.drawn + 1 }

/-- The next step of the total order of R81. -/
def State.nextTurn (s : State) : Result :=
  match s.sched with
  | [] => s.unscheduled
  | t :: rest => turnStep t { s with sched := rest }

/-- The host operation that stores a command word of spec/opcode_table.json (R106, R108). -/
def commandStore (p : Params) (nbits w : Nat) : HostOp := storeReg p .cmd (BitVec.ofNat 32 (w % 2 ^ min nbits 32))

/-- The store of a command word as the very next step (log 12). -/
def State.nextCommand (s : State) (nbits w : Nat) : State :=
  { s with host := commandStore s.params nbits w :: s.host, sched := .agent .host :: s.sched }

end Sys2Proof.Machine
end

