-- ==== Sys2Proof/Machine/Step.lean ====
section
/-! DEFINITION. The machine's one step, and the placing of a command where the next step runs it. -/

namespace Sys2Proof.Machine

/-- One atomic step of one agent, or a reset (R14, R69, R81). -/
def step (s : State) : Host.Outcome State Fault Refusal := s.nextTurn

/-- The command word whose bits are `w` is the host's next store to `CMD`, and the next turn is the host's (log 12). -/
def State.withFetchWord (s : State) (nbits w : Nat) : State := s.nextCommand nbits w

end Sys2Proof.Machine
end

