-- ==== Sys2Proof/Safety.lean ====
section
/-! DEFINITION. What a sound state is: the invariant that every step keeps, in the words of the rules it comes from, and
the runs that claims speak of. -/

namespace Sys2Proof.Machine

/-! ### The target of the command in progress -/

/-- R135: the length in bytes of the target range of the word, burst or erase in progress. -/
def State.targetLength (s : State) : Nat := if s.op = .erase then Config.sectorSize else 4 * s.n.toNat

/-- R135: the last byte of the target range of the word, burst or erase in progress. -/
def State.targetEnd (s : State) : Nat := s.ta.toNat + s.targetLength - 1

/-- R135: the address lies in the target range of the word, burst or erase in progress. -/
abbrev State.InTarget (s : State) (a : Nat) : Prop := s.ta.toNat ≤ a ∧ a ≤ s.targetEnd

/-- A word, burst or erase is in progress: between its start and the end of its last wait step (R40). -/
abbrev State.Active (s : State) : Prop := s.phase = .issue ∨ s.phase = .wait

/-- R7: the cap on the issues of the operation in progress. -/
def State.cap (s : State) : Nat := if s.op = .erase then Config.maxErasePulses else Config.maxProgramPulses

/-! ### The parts of the invariant -/

/-- R49, R50, R60: both memories are in canonical form, and each lists only addresses of its own region. -/
abbrev State.MemoriesOk (s : State) : Prop :=
  s.flash.wf = true ∧ s.sysmem.wf = true ∧ (∀ c ∈ s.flash, InFlash s.params c.1) ∧
    (∀ c ∈ s.sysmem, c.1 < Config.addressSpace ∧ ¬ InFlash s.params c.1 ∧ ¬ InWindow s.params c.1)

/-- R27: the hardwired bits of both lock registers are 1. -/
abbrev State.HardwiredOk (s : State) : Prop :=
  s.weprot0 &&& hardwired s.params = hardwired s.params ∧ s.weprot1 &&& hardwired s.params = hardwired s.params

/-- R23, R41, R102, R270: the report registers; while a command runs, RESULT and ERRKIND are 0, LASTOP is the running
operation's code, and some bank is declared. -/
abbrev State.ReportOk (s : State) : Prop :=
  s.errkind ∈ [0#4, 1#4, 2#4, 3#4, 4#4, 6#4] ∧ (s.result = 0 ↔ s.errkind = 0) ∧
    (s.busy = true → s.result = 0 ∧ s.op ≠ .none ∧ s.lastop = s.op.code ∧ s.exb ≠ 0) ∧ (s.phase = .next → s.op = .writeArray)

/-- R130 to R132, R135, R43: the target of a word, burst or erase in progress is valid and lies in no declared bank. -/
abbrev State.TargetOk (s : State) : Prop :=
  s.Active →
    ¬ BankConflict s.params s.ta.toNat s.targetEnd s.exb ∧
    (s.op = .erase → EraseAddrValid s.params s.ta.toNat) ∧
    (s.op = .fastWrite → 1 ≤ s.n.toNat ∧ s.n.toNat ≤ 16 ∧ MassWriteAddrValid s.params s.ta.toNat s.n.toNat) ∧
    (s.op = .writeWord ∨ s.op = .writeArray → s.n = 1 ∧ WriteAddrValid s.params s.ta.toNat) ∧
    (s.op ≠ .erase → s.postEn = true)

/-- R42: `BURST` is 1 exactly while FAST_WRITE runs. -/
abbrev State.BurstOk (s : State) : Prop := s.burst = true ↔ s.busy = true ∧ s.op = .fastWrite

/-- R46, R161 to R163: a lock save is outstanding exactly while a word, burst or erase is in progress, and is that of its
target; the target's sectors are unlocked. -/
abbrev State.LockOk (s : State) : Prop :=
  (s.lkHeld = true ↔ s.Active) ∧
    (s.lkHeld = true →
      s.lkBank = bankOf s.params s.ta.toNat ∧ s.lkMask = lockMask s.params s.ta.toNat s.targetEnd ∧
      s.lkSave &&& s.lkMask = s.lkSave ∧ s.weprot s.lkBank &&& s.lkMask = 0)

/-- R45, R48, R165: a request is pending exactly in WAIT before its completion, and it is the one that was issued. -/
abbrev State.RequestOk (s : State) : Prop :=
  (s.mpend ≠ none ↔ s.phase = .wait ∧ s.mfDone = false) ∧ (s.mpend ≠ none → s.mpend = some s.request)

/-- R25, R47, R176, R224, R246: the pulse counter never passes its cap. -/
abbrev State.CountOk (s : State) : Prop :=
  s.pcnt.toNat ≤ Config.maxErasePulses ∧ (s.phase = .issue → s.pcnt.toNat < s.cap) ∧
    (s.phase = .wait → 1 ≤ s.pcnt.toNat ∧ s.pcnt.toNat ≤ s.cap)

/-- R203, R205, R207: WRITE_ARRAY has counted the words before the current one, and works on the current one. -/
abbrev State.ArrayOk (s : State) : Prop :=
  s.op = .writeArray → s.busy = true →
    s.written = s.aIdx ∧ s.aIdx.toNat ≤ s.aCount.toNat ∧
    (s.Active → s.aIdx.toNat < s.aCount.toNat ∧ s.ta.toNat = s.arrayTarget)

/-- The invariant. Every step keeps it, and it holds at reset. -/
structure State.Inv (s : State) : Prop where
  params : s.params.Wf
  memories : s.MemoriesOk
  hardwired : s.HardwiredOk
  report : s.ReportOk
  target : s.TargetOk
  burst : s.BurstOk
  lock : s.LockOk
  request : s.RequestOk
  count : s.CountOk
  array : s.ArrayOk

/-! ### What claims speak of -/

/-- R175, R45: an issue with pre-verify enabled that is not the first of its word or burst cannot fail pre-verify, so
`MF_PRE` is set at the first issue only; the macro flags are clear until the completion. -/
abbrev State.RetryOk (s : State) : Prop :=
  s.op ≠ .erase →
    (((s.phase = .issue ∧ 1 ≤ s.pcnt.toNat) ∨ (s.phase = .wait ∧ s.mfDone = false ∧ 2 ≤ s.pcnt.toNat)) →
      s.preEn = true →
      ∀ i < s.n.toNat, preFails (s.wiss.toList.getD i 0) (s.flash.word (s.ta.toNat + 4 * i)) = false) ∧
    (s.phase = .wait → s.mfDone = true → s.mfPre = true → s.pcnt.toNat = 1) ∧
    (s.phase = .wait → s.mfDone = false → s.mfPre = false ∧ s.mfRegv = false)

/-- R164: a lock register as it will read once an outstanding save is restored. -/
def State.restored (s : State) (b : Bank) : Word := s.restoreIfHeld.weprot b

/-- The schedule under which the controller and the flash macro take one pulse: issue, completion, wait step. -/
def onePulse : List Turn := [.agent .controller, .agent .pulseUnit, .agent .controller]

/-- The schedule of `k` pulses. A turn of an agent that has no step changes nothing, so a command that ends sooner is
left as it ended. -/
def pulses (k : Nat) : List Turn := (List.replicate k onePulse).flatten

/-- The machine run under a schedule, one step per turn. -/
def State.runTurns (s : State) (ts : List Turn) : Result := core.run ts.length { s with sched := ts }

/-- R321: the rest of the host's program stores nothing to the register window. It may load, poll, and store to SYSMEM. -/
abbrev State.HostQuiet (s : State) : Prop :=
  ∀ o ∈ s.host, match o with
    | .store _ a _ => ¬ InWindow s.params a.toNat
    | .load _ _ => True
    | .poll => True

/-- The host's turn is next and its next operation is `o`; `rest` and `ops` are what then remains. -/
abbrev State.HostNext (s : State) (o : HostOp) (rest : List Turn) (ops : List HostOp) : Prop :=
  s.sched = .agent .host :: rest ∧ s.host = o :: ops

/-- The state in which the host's next operation runs: it is taken from its program, and its turn from the schedule. -/
def State.taken (s : State) (rest : List Turn) (ops : List HostOp) : State := { s with sched := rest, host := ops }

end Sys2Proof.Machine
end

