-- ==== Sys2Proof/Certificates/Slice0/Obligations.lean ====
section
/-! DEFINITION. The statements for the provers. Each docstring names the rules that its statement formalises. -/

open Sys2Proof Sys2Proof.Machine

/-! ### Encoding -/

/-- R100, R104, R107: a word decodes to a command exactly when the command is well formed and encodes to that word. -/
def Obligations.DecodeInvertsEncode : Prop :=
  ∀ (c : Word) (i : Instr), decode c = .ok i ↔ i.wf = true ∧ encode i = c

/-- R107: the decoder answers a command exactly for the words that a row of the opcode table selects, and the command of
that row; and the example words of the rule. -/
def Obligations.DecoderAgreesWithOpcodeTable : Prop :=
  (∀ (c : Word) (i : Instr), decode c = .ok i → ∃ r ∈ opcodeTable, r.selects c = true ∧ r.mnemonic = mnemonic i) ∧
  (∀ (c : Word), ∀ r ∈ opcodeTable, r.selects c = true → ∃ i, decode c = .ok i ∧ mnemonic i = r.mnemonic) ∧
  decode 0x00000102 = .ok (.writeWord 1) ∧ decode 0x00000205 = .ok (.erase 2) ∧ decode 0x00000001 = .ok (.init 0)

/-- R107: one word of every command, written from its pattern. -/
def Obligations.PatternWordsDecode : Prop :=
  decode 0x00000300 = .ok (.nop 3) ∧ decode 0x00000001 = .ok (.init 0) ∧ decode 0x00000102 = .ok (.writeWord 1) ∧
  decode 0x00000203 = .ok (.writeArray 2) ∧ decode 0x00000304 = .ok (.fastWrite 3) ∧
  decode 0x00000105 = .ok (.erase 1)

/-! ### The step and the commands -/

/-- R104, R150: the host's store of a command word to CMD, on its turn, is `exec` of the decoded command. -/
def Obligations.StepRunsTheDecodedCommand : Prop :=
  ∀ (s : State) (rest : List Turn) (ops : List HostOp) (c : Word) (i : Instr), s.params.Wf →
    s.HostNext (storeReg s.params .cmd c) rest ops → decode c = .ok i → step s = exec i (s.taken rest ops)

/-- R157: an illegal word stored to CMD while idle completes at once as an error and changes nothing else. -/
def Obligations.IllegalWordCompletesAsError : Prop :=
  ∀ (s : State) (rest : List Turn) (ops : List HostOp) (c : Word) (why : Illegal), s.params.Wf →
    s.HostNext (storeReg s.params .cmd c) rest ops → s.phase = .idle → decode c = .error why →
    step s = .next
      { s.taken rest ops with
        lastop := c.extractLsb' 0 4, result := 1, errkind := 6, written := 0, pcnt := 0 }

/-- R154, R281: a host store to any address of the window while a command runs faults with F_BUSY_WRITE, and the fault
records the offset and the value. That this fault comes before those of R282 for a narrow, misaligned or reserved-offset
store is the model's choice (log 7), and so are the recorded value of a narrow store and the region of an access that
passes the window's end (log 8). -/
def Obligations.WindowStoreWhileBusyFaults : Prop :=
  ∀ (s : State) (rest : List Turn) (ops : List HostOp) (w : Width) (a v : Word), s.params.Wf →
    s.HostNext (.store w a v) rest ops → InWindow s.params a.toNat → s.phase ≠ .idle →
    step s = .fault (.busyWrite (a.toNat - s.params.fpcBase) (narrow w v)) ∧
      (Fault.busyWrite (a.toNat - s.params.fpcBase) (narrow w v)).code = 1

/-- R151: a word of OP 0 with its reserved bits 0 is NOP, whatever EXECB is; NOP changes nothing while idle, and faults
while busy; a word of OP 0 with a reserved bit set is ILLEGAL. -/
def Obligations.NopChangesNothing : Prop :=
  (∀ e : BitVec 2, decode (0#22 ++ e ++ 0#8) = .ok (.nop e)) ∧
  (∀ (e : BitVec 2) (s : State), s.phase = .idle → exec (.nop e) s = .next s) ∧
  (∀ (e : BitVec 2) (s : State), s.phase ≠ .idle → exec (.nop e) s = .fault (.busyWrite 0 (encode (.nop e)))) ∧
  (∀ c : Word, c.extractLsb' 0 4 = 0 → (c.extractLsb' 10 22 ≠ 0 ∨ c.extractLsb' 4 4 ≠ 0) →
    decode c = .error .reservedBits)

/-- R152: INIT reports success, whatever CLKMHZ holds, and changes nothing else; it faults while busy. -/
def Obligations.InitReportsSuccess : Prop :=
  (∀ (e : BitVec 2) (s : State), s.phase = .idle →
    exec (.init e) s = .next { s with lastop := 1, result := 0, errkind := 0, written := 0, pcnt := 0 }) ∧
  (∀ (e : BitVec 2) (s : State), s.phase ≠ .idle → exec (.init e) s = .fault (.busyWrite 0 (encode (.init e))))

/-- R155, R156, R161, R162, R171: a valid WRITE_WORD latches its word, unlocks the one lock bit of its sector, and is
ready to issue; everything else is unchanged. -/
def Obligations.WriteWordAccepted : Prop :=
  ∀ (e : BitVec 2) (s : State), s.params.Wf → s.phase = .idle → e ≠ 0 → WriteAddrValid s.params s.addr.toNat →
    ¬ BankConflict s.params s.addr.toNat (s.addr.toNat + 3) e →
    exec (.writeWord e) s = .next
      (let a := s.addr.toNat
       let b := bankOf s.params a
       let m := 1#32 <<< sidx s.params a
       { s with
         lastop := 2, op := .writeWord, exb := e, result := 0, errkind := 0, written := 0, pcnt := 0
         ta := s.addr, n := 1, burst := false, sref := setLanes s.sref [s.data], wiss := setLanes s.wiss [s.data]
         preEn := true, postEn := true
         lkBank := b, lkMask := m, lkSave := s.weprot b &&& m, lkHeld := true
         weprot0 := if b = .b0 then s.weprot0 &&& ~~~m else s.weprot0
         weprot1 := if b = .b1 then s.weprot1 &&& ~~~m else s.weprot1
         phase := .issue })

/-- R136, R139, R171: a WRITE_WORD with an invalid address, or else with a target in a declared bank, completes at once
with that error, and changes only the report and the latches `op` and `EXB`. -/
def Obligations.WriteWordRejected : Prop :=
  ∀ (e : BitVec 2) (s : State), s.phase = .idle → s.lkHeld = false → e ≠ 0 →
    (¬ WriteAddrValid s.params s.addr.toNat →
      exec (.writeWord e) s = .next
        { s with
          lastop := 2, op := .writeWord, exb := e, result := 1, errkind := 1, written := 0, pcnt := 0 }) ∧
    (WriteAddrValid s.params s.addr.toNat → BankConflict s.params s.addr.toNat (s.addr.toNat + 3) e →
      exec (.writeWord e) s = .next
        { s with
          lastop := 2, op := .writeWord, exb := e, result := 1, errkind := 2, written := 0, pcnt := 0 })

/-- R201: WRITE_ARRAY with a 4-aligned source latches its operands and goes to NEXT; with a misaligned source it completes
with INVALID_ADDRESS. -/
def Obligations.WriteArrayAccepted : Prop :=
  ∀ (e : BitVec 2) (s : State), s.phase = .idle → s.lkHeld = false → e ≠ 0 →
    (s.src.toNat % 4 = 0 →
      exec (.writeArray e) s = .next
        { s with
          lastop := 3, op := .writeArray, exb := e, result := 0, errkind := 0, written := 0, pcnt := 0
          aBase := s.addr, aSrc := s.src, aCount := s.count, aIdx := 0, phase := .next }) ∧
    (s.src.toNat % 4 ≠ 0 →
      exec (.writeArray e) s = .next
        { s with
          lastop := 3, op := .writeArray, exb := e, result := 1, errkind := 1, written := 0, pcnt := 0 })

/-- R156, R162, R216, R217: a valid FAST_WRITE latches all of its source words, unlocks every lock bit that its range
spans, and is ready to issue; everything else is unchanged. -/
def Obligations.FastWriteAccepted : Prop :=
  ∀ (e : BitVec 2) (s : State) (ds : List Word), s.phase = .idle → e ≠ 0 → ds.length = min s.count.toNat 16 →
    ds ≠ [] → MassWriteAddrValid s.params s.addr.toNat ds.length → SrcValid s.src.toNat ds.length →
    ¬ BankConflict s.params s.addr.toNat (s.addr.toNat + 4 * ds.length - 1) e →
    (∀ i < ds.length, s.srcRead (s.src.toNat + 4 * i) = some (ds.getD i 0)) →
    exec (.fastWrite e) s = .next
      (let a := s.addr.toNat
       let b := bankOf s.params a
       let m := 1#32 <<< sidx s.params a ||| 1#32 <<< sidx s.params (a + 4 * ds.length - 1)
       { s with
         lastop := 4, op := .fastWrite, exb := e, result := 0, errkind := 0, written := 0, pcnt := 0
         ta := s.addr, n := BitVec.ofNat 5 ds.length, burst := true
         sref := setLanes s.sref ds, wiss := setLanes s.wiss ds, preEn := true, postEn := true
         lkBank := b, lkMask := m, lkSave := s.weprot b &&& m, lkHeld := true
         weprot0 := if b = .b0 then s.weprot0 &&& ~~~m else s.weprot0
         weprot1 := if b = .b1 then s.weprot1 &&& ~~~m else s.weprot1
         phase := .issue })

/-- R136, R139, R217, R226: FAST_WRITE of no words succeeds with nothing done and no check made; else the first failing
check of the target range, the source range and the bank decides the error. -/
def Obligations.FastWriteRejected : Prop :=
  ∀ (e : BitVec 2) (s : State), s.phase = .idle → s.lkHeld = false → e ≠ 0 →
    let n := min s.count.toNat 16
    let ended (r : BitVec 1) (k : BitVec 4) : State :=
      { s with lastop := 4, op := .fastWrite, exb := e, result := r, errkind := k, written := 0, pcnt := 0 }
    (n = 0 → exec (.fastWrite e) s = .next (ended 0 0)) ∧
    (n ≠ 0 → ¬ MassWriteAddrValid s.params s.addr.toNat n → exec (.fastWrite e) s = .next (ended 1 1)) ∧
    (n ≠ 0 → MassWriteAddrValid s.params s.addr.toNat n → ¬ SrcValid s.src.toNat n →
      exec (.fastWrite e) s = .next (ended 1 1)) ∧
    (n ≠ 0 → MassWriteAddrValid s.params s.addr.toNat n → SrcValid s.src.toNat n →
      BankConflict s.params s.addr.toNat (s.addr.toNat + 4 * n - 1) e → exec (.fastWrite e) s = .next (ended 1 2))

/-- R68, R217, R285: a FAST_WRITE that passes its checks and whose source word `i` is the first to touch the register
window faults, and the fault records that word's address. That it is the first one is the model's choice (log 15). -/
def Obligations.FastWriteSourceInWindowFaults : Prop :=
  ∀ (e : BitVec 2) (s : State) (i : Nat), s.phase = .idle → e ≠ 0 →
    let n := min s.count.toNat 16
    i < n → MassWriteAddrValid s.params s.addr.toNat n → SrcValid s.src.toNat n →
    ¬ BankConflict s.params s.addr.toNat (s.addr.toNat + 4 * n - 1) e →
    (∃ k < 4, InWindow s.params (s.src.toNat + 4 * i + k)) →
    (∀ j < i, ∀ k < 4, ¬ InWindow s.params (s.src.toNat + 4 * j + k)) →
    exec (.fastWrite e) s = .fault (.srcInBlock (s.src.toNat + 4 * i))

/-- R155, R161, R162, R241: a valid ERASE latches its sector, unlocks its one lock bit, and is ready to issue; everything
else is unchanged. -/
def Obligations.EraseAccepted : Prop :=
  ∀ (e : BitVec 2) (s : State), s.params.Wf → s.phase = .idle → e ≠ 0 → EraseAddrValid s.params s.addr.toNat →
    ¬ BankConflict s.params s.addr.toNat (s.addr.toNat + 4095) e →
    exec (.erase e) s = .next
      (let a := s.addr.toNat
       let b := bankOf s.params a
       let m := 1#32 <<< sidx s.params a
       { s with
         lastop := 5, op := .erase, exb := e, result := 0, errkind := 0, written := 0, pcnt := 0
         ta := s.addr, lkBank := b, lkMask := m, lkSave := s.weprot b &&& m, lkHeld := true
         weprot0 := if b = .b0 then s.weprot0 &&& ~~~m else s.weprot0
         weprot1 := if b = .b1 then s.weprot1 &&& ~~~m else s.weprot1
         phase := .issue })

/-- R136, R139, R241: an ERASE of an invalid address, or else of a sector in a declared bank, completes at once with that
error, and changes only the report and the latches `op` and `EXB`. -/
def Obligations.EraseRejected : Prop :=
  ∀ (e : BitVec 2) (s : State), s.phase = .idle → s.lkHeld = false → e ≠ 0 →
    (¬ EraseAddrValid s.params s.addr.toNat →
      exec (.erase e) s = .next
        { s with lastop := 5, op := .erase, exb := e, result := 1, errkind := 1, written := 0, pcnt := 0 }) ∧
    (EraseAddrValid s.params s.addr.toNat → BankConflict s.params s.addr.toNat (s.addr.toNat + 4095) e →
      exec (.erase e) s = .next
        { s with lastop := 5, op := .erase, exb := e, result := 1, errkind := 2, written := 0, pcnt := 0 })

/-- R139: whatever command is stored while idle, if it has ended after its acceptance step it has changed only the report
registers and the latches `op` and `EXB`: no memory, no lock bit, no macro flag, no request, no other latch. -/
def Obligations.CommandEndedAtAcceptanceChangesOnlyTheReport : Prop :=
  ∀ (i : Instr) (s t : State), s.lkHeld = false → exec i s = .next t → t.phase = .idle →
    t = { s with
          lastop := t.lastop, result := t.result, errkind := t.errkind, written := t.written, pcnt := t.pcnt
          op := t.op, exb := t.exb }

/-! ### The controller -/

/-- R158: the issue step clears the macro flags, counts the issue and hands the request to the flash macro. -/
def Obligations.IssueStep : Prop :=
  ∀ s : State, s.phase = .issue → s.mpend = none →
    controllerStep s = .next
      { s with
        mfDone := false, mfPre := false, mfRegv := false, pcnt := s.pcnt + 1
        mpend := some (if s.op = .erase then .erase s.ta
          else .prog s.ta (s.wiss.toList.take s.n.toNat) s.preEn s.burst)
        phase := .wait }

/-- R14, R159, R165, R273: the controller has no step while idle, and is held in WAIT until MF_DONE. -/
def Obligations.ControllerIsHeld : Prop :=
  ∀ s : State, (s.phase = .idle ∨ (s.phase = .wait ∧ s.mfDone = false)) → controllerStep s = .next s

/-- R172 to R176: after a pre-verify failure, or else after a post-verify failure, a word whose count is below the cap is
issued again with its corrected value; a pre-verify failure disables pre-verify. -/
def Obligations.WordIsRetried : Prop :=
  ∀ s : State, s.phase = .wait → s.mfDone = true → (s.op = .writeWord ∨ s.op = .writeArray) → s.pcnt.toNat < 5 →
    let r := s.sref[0]
    let e := s.flash.word s.ta.toNat
    (s.mfPre = true →
      controllerStep s = .next
        { s with wiss := setLanes s.wiss [r ||| ~~~(e ||| r)], preEn := false, phase := .issue }) ∧
    (s.mfPre = false → e ≠ r →
      controllerStep s = .next { s with wiss := setLanes s.wiss [~~~(~~~r &&& e)], phase := .issue })

/-- R160, R163, R174, R176: WRITE_WORD ends with success when the word equals its reference data, and with
VERIFY_EXHAUSTED when an error remains at the cap; on both paths the lock is restored. -/
def Obligations.WriteWordEnds : Prop :=
  ∀ s : State, s.phase = .wait → s.mfDone = true → s.op = .writeWord → s.lkHeld = true →
    let e := s.flash.word s.ta.toNat
    (s.mfPre = false → e = s.sref[0] →
      controllerStep s = .next { s.restore with result := 0, errkind := 0, written := 1, phase := .idle }) ∧
    (s.mfPre = false → e ≠ s.sref[0] → 5 ≤ s.pcnt.toNat →
      controllerStep s = .next
        { s.restore with
          wiss := setLanes s.wiss [~~~(~~~s.sref[0] &&& e)]
          result := 1, errkind := 3, written := 0, phase := .idle }) ∧
    (s.mfPre = true → 5 ≤ s.pcnt.toNat →
      controllerStep s = .next
        { s.restore with
          wiss := setLanes s.wiss [s.sref[0] ||| ~~~(e ||| s.sref[0])], preEn := false
          result := 1, errkind := 3, written := 0, phase := .idle })

/-- R205, R206: inside WRITE_ARRAY a finished word restores its lock, counts itself and goes to NEXT; a word that exhausts
its issues ends the command and reports the words before it. -/
def Obligations.ArrayWordEnds : Prop :=
  ∀ s : State, s.phase = .wait → s.mfDone = true → s.op = .writeArray → s.lkHeld = true →
    let e := s.flash.word s.ta.toNat
    (s.mfPre = false → e = s.sref[0] →
      controllerStep s = .next { s.restore with aIdx := s.aIdx + 1, written := s.aIdx + 1, phase := .next }) ∧
    (s.mfPre = false → e ≠ s.sref[0] → 5 ≤ s.pcnt.toNat →
      controllerStep s = .next
        { s.restore with
          wiss := setLanes s.wiss [~~~(~~~s.sref[0] &&& e)]
          result := 1, errkind := 3, written := s.aIdx, phase := .idle }) ∧
    (s.mfPre = true → 5 ≤ s.pcnt.toNat →
      controllerStep s = .next
        { s.restore with
          wiss := setLanes s.wiss [s.sref[0] ||| ~~~(e ||| s.sref[0])], preEn := false
          result := 1, errkind := 3, written := s.aIdx, phase := .idle })

/-- R203, R207, R208: a NEXT step ends a finished array, starts the next word with its own checks, lock and count, or
ends the array at the first word that fails a check. -/
def Obligations.ArrayNextStep : Prop :=
  ∀ s : State, s.phase = .next → s.lkHeld = false →
    let i := s.aIdx.toNat
    let a := s.aBase.toNat + 4 * i
    let src := s.aSrc.toNat + 4 * i
    (s.aIdx = s.aCount →
      controllerStep s = .next { s with result := 0, errkind := 0, written := s.aIdx, phase := .idle }) ∧
    (s.aIdx ≠ s.aCount → (¬ WriteAddrValid s.params a ∨ src + 3 > 2 ^ 32 - 1) →
      controllerStep s = .next
        { s with pcnt := 0, result := 1, errkind := 1, written := s.aIdx, phase := .idle }) ∧
    (s.aIdx ≠ s.aCount → WriteAddrValid s.params a → src + 3 ≤ 2 ^ 32 - 1 → BankConflict s.params a (a + 3) s.exb →
      controllerStep s = .next
        { s with pcnt := 0, result := 1, errkind := 2, written := s.aIdx, phase := .idle }) ∧
    (s.aIdx ≠ s.aCount → WriteAddrValid s.params a → src + 3 ≤ 2 ^ 32 - 1 →
      ¬ BankConflict s.params a (a + 3) s.exb → (∃ k < 4, InWindow s.params (src + k)) →
      controllerStep s = .fault (.srcInBlock src)) ∧
    (s.aIdx ≠ s.aCount → WriteAddrValid s.params a → src + 3 ≤ 2 ^ 32 - 1 →
      ¬ BankConflict s.params a (a + 3) s.exb → (∀ k < 4, ¬ InWindow s.params (src + k)) →
      controllerStep s = .next
        { s.unlock a (a + 3) with
          ta := BitVec.ofNat 32 a, n := 1, burst := false
          sref := setLanes s.sref [s.memRead src 4], wiss := setLanes s.wiss [s.memRead src 4]
          preEn := true, postEn := true, pcnt := 0, phase := .issue })

/-- R42, R219, R220, R222 to R224: the wait step of a burst. A region violation ends it at once; a pre-verify failure, or else
a post-verify failure, corrects every lane and retries below the cap, or ends the burst at the cap; a verified burst ends
with its word count. Every end of the burst restores the lock and clears BURST, which R42 sets only while FAST_WRITE runs
(log 19). -/
def Obligations.BurstWaitStep : Prop :=
  ∀ s : State, s.phase = .wait → s.mfDone = true → s.op = .fastWrite → s.lkHeld = true →
    let rs := s.sref.toList.take s.n.toNat
    let es := (List.range rs.length).map (fun i => s.flash.word (s.ta.toNat + 4 * i))
    (s.mfRegv = true →
      controllerStep s = .next { s.restore with result := 1, errkind := 4, written := 0, phase := .idle, burst := false }) ∧
    (s.mfRegv = false → s.mfPre = true → s.pcnt.toNat < 5 →
      controllerStep s = .next
        { s with wiss := setLanes s.wiss (List.zipWith preCorrect rs es), preEn := false, phase := .issue }) ∧
    (s.mfRegv = false → s.mfPre = true → 5 ≤ s.pcnt.toNat →
      controllerStep s = .next
        { s.restore with
          wiss := setLanes s.wiss (List.zipWith preCorrect rs es), preEn := false
          result := 1, errkind := 3, written := 0, phase := .idle, burst := false }) ∧
    (s.mfRegv = false → s.mfPre = false → es ≠ rs → s.pcnt.toNat < 5 →
      controllerStep s = .next
        { s with wiss := setLanes s.wiss (List.zipWith postCorrect rs es), phase := .issue }) ∧
    (s.mfRegv = false → s.mfPre = false → es ≠ rs → 5 ≤ s.pcnt.toNat →
      controllerStep s = .next
        { s.restore with
          wiss := setLanes s.wiss (List.zipWith postCorrect rs es)
          result := 1, errkind := 3, written := 0, phase := .idle, burst := false }) ∧
    (s.mfRegv = false → s.mfPre = false → es = rs →
      controllerStep s = .next
        { s.restore with result := 0, errkind := 0, written := s.n.setWidth 32, phase := .idle, burst := false })

/-- R244 to R246: an erase ends with success when every byte of its sector reads all ones, is pulsed again below the cap
of 50, and ends with VERIFY_EXHAUSTED at the cap. -/
def Obligations.EraseWaitStep : Prop :=
  ∀ s : State, s.phase = .wait → s.mfDone = true → s.op = .erase → s.lkHeld = true →
    let clean := ∀ k < 4096, s.flash.read (s.ta.toNat + k) = 0xFF#8
    (clean →
      controllerStep s = .next { s.restore with result := 0, errkind := 0, written := 0, phase := .idle }) ∧
    (¬ clean → s.pcnt.toNat < 50 → controllerStep s = .next { s with phase := .issue }) ∧
    (¬ clean → 50 ≤ s.pcnt.toNat →
      controllerStep s = .next { s.restore with result := 1, errkind := 3, written := 0, phase := .idle })

/-- R161 to R163: `Unlock` saves and clears the bits of its span in the lock register of its bank, `Restore` puts the
saved bits back into the lock register of the saved bank, and neither touches anything else. -/
def Obligations.UnlockClearsItsSpan : Prop :=
  (∀ (s : State) (lo hi : Nat),
    let b := bankOf s.params lo
    let m := 1#32 <<< sidx s.params lo ||| 1#32 <<< sidx s.params hi
    s.unlock lo hi =
      { s with
        lkBank := b, lkMask := m, lkSave := s.weprot b &&& m, lkHeld := true
        weprot0 := if b = .b0 then s.weprot0 &&& ~~~m else s.weprot0
        weprot1 := if b = .b1 then s.weprot1 &&& ~~~m else s.weprot1 }) ∧
  ∀ s : State, s.restore =
    { s with
      weprot0 := if s.lkBank = .b0 then (s.weprot0 &&& ~~~s.lkMask) ||| s.lkSave else s.weprot0
      weprot1 := if s.lkBank = .b1 then (s.weprot1 &&& ~~~s.lkMask) ||| s.lkSave else s.weprot1
      lkHeld := false }

/-! ### The flash macro -/

/-- R71, R72, R218: a program request with pre-verify enabled, that meets no region violation and has some word with a
target bit already 0, sets MF_PRE and programs nothing. -/
def Obligations.PreVerifyInhibitsTheRequest : Prop :=
  ∀ (s : State) (ta : Word) (ws : List Word) (burst : Bool), s.mpend = some (.prog ta ws true burst) →
    (burst = true → ∀ i < ws.length,
      ta.toNat + 4 * i ∉ s.params.reserved ∧ s.locked (ta.toNat + 4 * i) = false) →
    (∃ i < ws.length, ~~~(ws.getD i 0) &&& ~~~(s.flash.word (ta.toNat + 4 * i)) ≠ 0) →
    pulseUnitStep s =
      { s with mfPre := true, mfDone := true, mpend := none, tape := s.tape.tail, drawn := s.drawn + 1 }

/-- R71, R73, R78: a program request that meets no region violation and passes pre-verify, or has it disabled, changes
each unlocked word `old` to `old & (w | F)` with some `F ⊆ ~w & old`, no locked word, and no other byte; and every choice
of an `F ⊆ ~w & old` for each word is taken under some first value of the tape. -/
def Obligations.CommittedPulseProgramsItsWords : Prop :=
  ∀ (s : State) (ta : Word) (ws : List Word) (pre burst : Bool), s.mpend = some (.prog ta ws pre burst) →
    (burst = true → ∀ i < ws.length,
      ta.toNat + 4 * i ∉ s.params.reserved ∧ s.locked (ta.toNat + 4 * i) = false) →
    (pre = true → ∀ i < ws.length, ~~~(ws.getD i 0) &&& ~~~(s.flash.word (ta.toNat + 4 * i)) = 0) →
    (∀ i < ws.length,
      let a := ta.toNat + 4 * i
      let old := s.flash.word a
      let w := ws.getD i 0
      (s.locked a = true → (pulseUnitStep s).flash.word a = old) ∧
      (s.locked a = false → ∃ f, f &&& ~~~(~~~w &&& old) = 0 ∧
        (pulseUnitStep s).flash.word a = old &&& (w ||| f))) ∧
    (∀ fs : Nat → Word,
      (∀ i < ws.length, fs i &&& ~~~(~~~(ws.getD i 0) &&& s.flash.word (ta.toNat + 4 * i)) = 0) →
      ∃ d, ∀ i < ws.length,
        let a := ta.toNat + 4 * i
        s.locked a = false → (pulseUnitStep { s with tape := d :: s.tape }).flash.word a =
          s.flash.word a &&& (ws.getD i 0 ||| fs i)) ∧
    (∀ a, (a < ta.toNat ∨ ta.toNat + 4 * ws.length ≤ a) → (pulseUnitStep s).flash.read a = s.flash.read a) ∧
    pulseUnitStep s =
      { s with
        flash := (pulseUnitStep s).flash, mfDone := true, mpend := none
        tape := s.tape.tail, drawn := s.drawn + 1 }

/-- R71, R77: a burst whose first reserved or locked word is word `v` sets MF_REGV and not MF_PRE; each word before `v` is
programmed or unchanged, and word `v`, the words after it and every other byte are unchanged; and every choice of which
words before `v` are programmed, and of an `F ⊆ ~w & old` for each of those, is taken under some first value of the tape. -/
def Obligations.RegionViolationLeavesTheRest : Prop :=
  ∀ (s : State) (ta : Word) (ws : List Word) (pre : Bool) (v : Nat), s.mpend = some (.prog ta ws pre true) →
    v < ws.length → (ta.toNat + 4 * v ∈ s.params.reserved ∨ s.locked (ta.toNat + 4 * v) = true) →
    (∀ i < v, ta.toNat + 4 * i ∉ s.params.reserved ∧ s.locked (ta.toNat + 4 * i) = false) →
    (∀ i < v,
      let a := ta.toNat + 4 * i
      let old := s.flash.word a
      let w := ws.getD i 0
      (pulseUnitStep s).flash.word a = old ∨
        ∃ f, f &&& ~~~(~~~w &&& old) = 0 ∧ (pulseUnitStep s).flash.word a = old &&& (w ||| f)) ∧
    (∀ (go : Nat → Bool) (fs : Nat → Word),
      (∀ i < v, fs i &&& ~~~(~~~(ws.getD i 0) &&& s.flash.word (ta.toNat + 4 * i)) = 0) →
      ∃ d, ∀ i < v,
        let a := ta.toNat + 4 * i
        let old := s.flash.word a
        (pulseUnitStep { s with tape := d :: s.tape }).flash.word a =
          if go i = true then old &&& (ws.getD i 0 ||| fs i) else old) ∧
    (∀ a, (a < ta.toNat ∨ ta.toNat + 4 * v ≤ a) → (pulseUnitStep s).flash.read a = s.flash.read a) ∧
    pulseUnitStep s =
      { s with
        flash := (pulseUnitStep s).flash, mfRegv := true, mfDone := true, mpend := none
        tape := s.tape.tail, drawn := s.drawn + 1 }

/-- R75, R78: the completion of an erase changes each byte `old` of an unlocked sector to `~z` with some `z ⊆ ~old`, no
byte of a locked one, and no byte outside the sector; and every choice of a `z ⊆ ~old` for each byte is taken under some
first value of the tape. -/
def Obligations.ErasePulseErasesItsSector : Prop :=
  ∀ (s : State) (sb : Word), s.mpend = some (.erase sb) →
    (s.locked sb.toNat = true → (pulseUnitStep s).flash = s.flash) ∧
    (s.locked sb.toNat = false → ∀ k < 4096,
      ∃ z, z &&& s.flash.read (sb.toNat + k) = 0 ∧ (pulseUnitStep s).flash.read (sb.toNat + k) = ~~~z) ∧
    (s.locked sb.toNat = false → ∀ zs : Nat → Byte, (∀ k < 4096, zs k &&& s.flash.read (sb.toNat + k) = 0) →
      ∃ d, ∀ k < 4096,
        (pulseUnitStep { s with tape := d :: s.tape }).flash.read (sb.toNat + k) = ~~~(zs k)) ∧
    (∀ a, (a < sb.toNat ∨ sb.toNat + 4096 ≤ a) → (pulseUnitStep s).flash.read a = s.flash.read a) ∧
    pulseUnitStep s =
      { s with
        flash := (pulseUnitStep s).flash, mfDone := true, mpend := none
        tape := s.tape.tail, drawn := s.drawn + 1 }

/-- R70: a flash bit changes only in two ways. A pulse of a program request sets no bit, and a pulse of an erase request
clears none, at any address. -/
def Obligations.PulsesMoveBitsOneWay : Prop :=
  ∀ (s : State) (a : Nat),
    (∀ ta ws pre burst, s.mpend = some (.prog ta ws pre burst) →
      (pulseUnitStep s).flash.read a &&& ~~~(s.flash.read a) = 0) ∧
    (∀ ta, s.mpend = some (.erase ta) → s.flash.read a &&& ~~~((pulseUnitStep s).flash.read a) = 0)

/-! ### Invariants and whole-machine rules -/

/-- R51: the machine right after reset meets the invariant. -/
def Obligations.ResetMeetsTheInvariant : Prop := State.reset.Inv

/-- R23, R27, R29, R40, R42, R46 to R48, R135, R176, R246: every step of every agent, and every reset, keeps the invariant. -/
def Obligations.StepKeepsTheInvariant : Prop :=
  ∀ s t : State, s.Inv → step s = .next t → t.Inv

/-- R49, R50 (the model's form of memory, log 6): every step keeps both memories in canonical form, in every state. -/
def Obligations.StepKeepsMemoriesCanonical : Prop :=
  ∀ s t : State, s.flash.wf = true → s.sysmem.wf = true → step s = .next t →
    t.flash.wf = true ∧ t.sysmem.wf = true

/-- R45, R175: in every run the macro flags are clear before each completion, and MF_PRE is set at the first issue of a
word or burst only: it holds at reset, and with the invariant every step keeps it. -/
def Obligations.PreVerifyFailsOnlyAtTheFirstIssue : Prop :=
  State.reset.RetryOk ∧ ∀ s t : State, s.Inv → s.RetryOk → step s = .next t → t.RetryOk

/-- R164: while a command runs, no step of any agent changes what a lock register will read once the outstanding save
is restored; so, whatever the command, however it ends, and whatever the host does meanwhile short of a store to the
block, both lock registers after it equal their values before it, in every bit. -/
def Obligations.LockRegistersAreRestored : Prop :=
  (∀ (s t : State) (b : Bank), s.Inv → s.phase ≠ .idle → (∀ rest, s.sched ≠ Turn.reset :: rest) →
    step s = .next t → t.restored b = s.restored b) ∧
  ∀ (i : Instr) (s s₁ t : State) (ts : List Turn), s.Inv → s.HostQuiet → Turn.reset ∉ ts → exec i s = .next s₁ →
    s₁.runTurns ts = .next t → t.phase = .idle → t.weprot0 = s.weprot0 ∧ t.weprot1 = s.weprot1

/-- R102, R135, R320: no byte of a bank that the command declares changes while it runs, however its pulses go. -/
def Obligations.DeclaredBanksNeverChange : Prop :=
  ∀ (i : Instr) (s s₁ t : State) (ts : List Turn), s.Inv → s.HostQuiet → Turn.reset ∉ ts → exec i s = .next s₁ →
    s₁.runTurns ts = .next t → ∀ a, InFlash s.params a → declares (execbOf i) (bankOf s.params a) = true →
    t.flash.read a = s.flash.read a

/-- R69, R70, R225, R247: outside a reset, the array changes only when the flash macro completes the pending request, and
then only inside the target of the command in progress. -/
def Obligations.ArrayChangesOnlyInTheTarget : Prop :=
  ∀ (s t : State) (a : Nat), s.Inv → (∀ rest, s.sched ≠ Turn.reset :: rest) → step s = .next t →
    t.flash.read a ≠ s.flash.read a → s.mpend ≠ none ∧ t.mpend = none ∧ s.InTarget a

/-- R170, R171, R174, R176, R177: an accepted WRITE_WORD, whatever its pulses do, has ended after at most five of them:
with the word equal to its data, or with VERIFY_EXHAUSTED after exactly five; the word only loses 1 bits and keeps those
that the data asks for, and nothing else in the array changes.
The run is that of one schedule (log 1), in which the flash macro completes every request (R79). -/
def Obligations.WriteWordRunsToItsEnd : Prop :=
  ∀ (e : BitVec 2) (s : State), s.Inv → s.phase = .idle → e ≠ 0 → WriteAddrValid s.params s.addr.toNat →
    ¬ BankConflict s.params s.addr.toNat (s.addr.toNat + 3) e →
    ∃ s₁ t, exec (.writeWord e) s = .next s₁ ∧ s₁.runTurns (pulses 5) = .next t ∧ t.phase = .idle ∧
      (let a := s.addr.toNat
       let old := s.flash.word a
       let new := t.flash.word a
       ((t.result = 0 ∧ t.errkind = 0 ∧ t.written = 1 ∧ new = s.data) ∨
        (t.result = 1 ∧ t.errkind = 3 ∧ t.written = 0 ∧ t.pcnt = 5)) ∧
       new &&& ~~~old = 0 ∧ (old &&& s.data) &&& ~~~new = 0 ∧
       ∀ b, (b < a ∨ a + 4 ≤ b) → t.flash.read b = s.flash.read b)

/-- R177, R325: a WRITE_WORD that asks a 0 bit of its word to become 1 ends with VERIFY_EXHAUSTED after exactly five
issues, whatever its pulses do.
The run is that of one schedule (log 1), in which the flash macro completes every request (R79). -/
def Obligations.SetBitAttemptExhausts : Prop :=
  ∀ (e : BitVec 2) (s : State), s.Inv → s.phase = .idle → e ≠ 0 → WriteAddrValid s.params s.addr.toNat →
    ¬ BankConflict s.params s.addr.toNat (s.addr.toNat + 3) e → s.data &&& ~~~(s.flash.word s.addr.toNat) ≠ 0 →
    ∃ s₁ t, exec (.writeWord e) s = .next s₁ ∧ s₁.runTurns (pulses 5) = .next t ∧ t.phase = .idle ∧
      t.result = 1 ∧ t.errkind = 3 ∧ t.written = 0 ∧ t.pcnt = 5

/-- R178, first row: on an erased word, under a pulse that clears every bit it is asked to clear, WRITE_WORD succeeds with
one issue.
The run is that of one schedule (log 1), in which the flash macro completes every request (R79). -/
def Obligations.FreshProgramTakesOneIssue : Prop :=
  ∀ (e : BitVec 2) (s : State), s.Inv → s.phase = .idle → e ≠ 0 → WriteAddrValid s.params s.addr.toNat →
    ¬ BankConflict s.params s.addr.toNat (s.addr.toNat + 3) e → s.flash.word s.addr.toNat = 0xFFFFFFFF →
    drawWord s.drawValue 0 &&& ~~~s.data = 0 →
    ∃ s₁ t, exec (.writeWord e) s = .next s₁ ∧ s₁.runTurns (pulses 1) = .next t ∧ t.phase = .idle ∧
      t.result = 0 ∧ t.errkind = 0 ∧ t.written = 1 ∧ t.pcnt = 1 ∧ t.flash.word s.addr.toNat = s.data

/-- R178, second and fourth rows: over a programmed word and with no 0 asked to become 1, the first issue is inhibited by
pre-verify, and under a second pulse that clears every bit it is asked to clear WRITE_WORD succeeds with two issues.
The run is that of one schedule (log 1), in which the flash macro completes every request (R79). -/
def Obligations.ProgramOverProgrammedTakesTwoIssues : Prop :=
  ∀ (e : BitVec 2) (s : State) (d₁ d₂ : Nat) (ds : List Nat), s.Inv → s.phase = .idle → e ≠ 0 →
    WriteAddrValid s.params s.addr.toNat → ¬ BankConflict s.params s.addr.toNat (s.addr.toNat + 3) e →
    s.data &&& ~~~(s.flash.word s.addr.toNat) = 0 → ~~~s.data &&& ~~~(s.flash.word s.addr.toNat) ≠ 0 →
    s.tape = d₁ :: d₂ :: ds → drawWord d₂ 0 &&& ~~~s.data = 0 →
    ∃ s₁ t, exec (.writeWord e) s = .next s₁ ∧ s₁.runTurns (pulses 2) = .next t ∧ t.phase = .idle ∧
      t.result = 0 ∧ t.errkind = 0 ∧ t.written = 1 ∧ t.pcnt = 2 ∧ t.flash.word s.addr.toNat = s.data

/-- R217 to R225: an accepted FAST_WRITE has ended after at most five pulses: with every word equal to its source word, or
with VERIFY_EXHAUSTED or REGION_LOCK_VIOLATION and no word counted; words outside the burst never change.
The run is that of one schedule (log 1), in which the flash macro completes every request (R79). -/
def Obligations.FastWriteRunsToItsEnd : Prop :=
  ∀ (e : BitVec 2) (s : State) (ds : List Word), s.Inv → s.phase = .idle → e ≠ 0 →
    ds.length = min s.count.toNat 16 → ds ≠ [] → MassWriteAddrValid s.params s.addr.toNat ds.length →
    SrcValid s.src.toNat ds.length →
    ¬ BankConflict s.params s.addr.toNat (s.addr.toNat + 4 * ds.length - 1) e →
    (∀ i < ds.length, s.srcRead (s.src.toNat + 4 * i) = some (ds.getD i 0)) →
    ∃ s₁ t, exec (.fastWrite e) s = .next s₁ ∧ s₁.runTurns (pulses 5) = .next t ∧ t.phase = .idle ∧
      ((t.result = 0 ∧ t.errkind = 0 ∧ t.written.toNat = ds.length ∧
          ∀ i < ds.length, t.flash.word (s.addr.toNat + 4 * i) = ds.getD i 0) ∨
       (t.result = 1 ∧ t.written = 0 ∧ (t.errkind = 4 ∨ (t.errkind = 3 ∧ t.pcnt = 5)))) ∧
      ∀ b, (b < s.addr.toNat ∨ s.addr.toNat + 4 * ds.length ≤ b) → t.flash.read b = s.flash.read b

/-- R201 to R208: an accepted WRITE_ARRAY whose source does not touch the window has ended after at most six pulse turns a
word and one more: with a success report exactly when it counted all of its words; nothing changes outside the counted
words and the one after them; and where source and target do not overlap, every counted word equals its source word.
The run is that of one schedule (log 1), in which the flash macro completes every request (R79). -/
def Obligations.WriteArrayRunsToItsEnd : Prop :=
  ∀ (e : BitVec 2) (s : State), s.Inv → s.phase = .idle → e ≠ 0 → s.src.toNat % 4 = 0 →
    let n := s.count.toNat
    let a := s.addr.toNat
    let src := s.src.toNat
    (∀ b, src ≤ b → b < src + 4 * n → ¬ InWindow s.params b) →
    ∃ s₁ t, exec (.writeArray e) s = .next s₁ ∧ s₁.runTurns (pulses (6 * n + 1)) = .next t ∧ t.phase = .idle ∧
      t.written.toNat ≤ n ∧ (t.result = 0 ↔ t.written.toNat = n) ∧
      (∀ b, (b < a ∨ a + 4 * (t.written.toNat + 1) ≤ b) → t.flash.read b = s.flash.read b) ∧
      (src + 4 * n ≤ a ∨ a + 4 * n ≤ src →
        ∀ j < t.written.toNat, t.flash.word (a + 4 * j) = s.memRead (src + 4 * j) 4)

/-- R241 to R247: an accepted ERASE has ended after at most fifty pulses: with every byte of the sector all ones, or with
VERIFY_EXHAUSTED after exactly fifty; no 1 bit is lost, and no byte outside the sector changes.
The run is that of one schedule (log 1), in which the flash macro completes every request (R79). -/
def Obligations.EraseRunsToItsEnd : Prop :=
  ∀ (e : BitVec 2) (s : State), s.Inv → s.phase = .idle → e ≠ 0 → EraseAddrValid s.params s.addr.toNat →
    ¬ BankConflict s.params s.addr.toNat (s.addr.toNat + 4095) e →
    ∃ s₁ t, exec (.erase e) s = .next s₁ ∧ s₁.runTurns (pulses 50) = .next t ∧ t.phase = .idle ∧ t.written = 0 ∧
      ((t.result = 0 ∧ t.errkind = 0 ∧ ∀ k < 4096, t.flash.read (s.addr.toNat + k) = 0xFF#8) ∨
       (t.result = 1 ∧ t.errkind = 3 ∧ t.pcnt = 50)) ∧
      (∀ b, s.flash.read b &&& ~~~(t.flash.read b) = 0) ∧
      ∀ b, (b < s.addr.toNat ∨ s.addr.toNat + 4096 ≤ b) → t.flash.read b = s.flash.read b

/-! ### The host -/

/-- R20 to R30, R153: an aligned 32-bit load of a register, at any time, returns its value and changes nothing else. -/
def Obligations.HostReadsARegister : Prop :=
  ∀ (s : State) (r : Reg) (rest : List Turn) (ops : List HostOp), s.params.Wf →
    s.HostNext (loadReg s.params r) rest ops →
    step s = .next
      { s.taken rest ops with
        rdata := match r with
          | .cmd => 0
          | .addr => s.addr
          | .data => s.data
          | .count => s.count
          | .src => s.src
          | .clkmhz => s.clkmhz
          | .status => s.status
          | .written => s.written
          | .pulsecnt => s.pcnt.setWidth 32
          | .weprot0 => s.weprot0
          | .weprot1 => s.weprot1 }

/-- R21, R26, R27, R150: an aligned 32-bit store while idle sets an operand register or the writable bits of a lock
register, whose bits at or above NSECT stay 1; a store to a read-only register is ignored. -/
def Obligations.HostWritesARegister : Prop :=
  ∀ (s : State) (r : Reg) (v : Word) (rest : List Turn) (ops : List HostOp), s.params.Wf → s.phase = .idle →
    s.HostNext (storeReg s.params r v) rest ops → r ≠ .cmd →
    let u := s.taken rest ops
    let ones : Word := ~~~(BitVec.ofNat 32 (2 ^ (s.params.bankSize / 4096) - 1))
    step s = .next
      (match r with
       | .addr => { u with addr := v }
       | .data => { u with data := v }
       | .count => { u with count := v }
       | .src => { u with src := v }
       | .clkmhz => { u with clkmhz := v }
       | .weprot0 => { u with weprot0 := v ||| ones }
       | .weprot1 => { u with weprot1 := v ||| ones }
       | .cmd | .status | .written | .pulsecnt => u)

/-- R62 to R64, R67, R84: an aligned load returns the stored bytes, little-endian, and changes nothing else: from SYSMEM
at any time, from flash while idle or from a declared bank. -/
def Obligations.LoadReturnsTheStoredBytes : Prop :=
  ∀ (s : State) (w : Width) (a : Word) (rest : List Turn) (ops : List HostOp), s.params.Wf →
    s.HostNext (.load w a) rest ops → ¬ InWindow s.params a.toNat → a.toNat % w.bytes = 0 →
    (InFlash s.params a.toNat → s.phase = .idle ∨ declares s.exb (bankOf s.params a.toNat) = true) →
    ∃ v, step s = .next { s.taken rest ops with rdata := v } ∧
      (∀ k < w.bytes, byteOf v k =
        if InFlash s.params a.toNat then s.flash.read (a.toNat + k) else s.sysmem.read (a.toNat + k)) ∧
      ∀ k, w.bytes ≤ k → byteOf v k = 0

/-- R84: an aligned load from an undeclared bank while a command runs returns a free value, and changes nothing but the
value read and the record of draws. -/
def Obligations.FlashLoadIsFreeWhileBusy : Prop :=
  ∀ (s : State) (w : Width) (a : Word) (rest : List Turn) (ops : List HostOp),
    s.HostNext (.load w a) rest ops → InFlash s.params a.toNat → a.toNat % w.bytes = 0 →
    s.phase ≠ .idle → declares s.exb (bankOf s.params a.toNat) = false →
    step s = .next
      { s.taken rest ops with
        rdata := narrow w (drawWord s.drawValue 0), tape := s.tape.tail, drawn := s.drawn + 1 }

/-- R62, R67: an aligned store to SYSMEM, at any time, stores its bytes, little-endian, and changes no other byte and
nothing else. -/
def Obligations.SysmemStoreStoresItsBytes : Prop :=
  ∀ (s : State) (w : Width) (a v : Word) (rest : List Turn) (ops : List HostOp),
    s.HostNext (.store w a v) rest ops → ¬ InFlash s.params a.toNat → ¬ InWindow s.params a.toNat →
    a.toNat % w.bytes = 0 →
    ∃ m, step s = .next { s.taken rest ops with sysmem := m } ∧
      (∀ k < w.bytes, m.read (a.toNat + k) = byteOf v k) ∧
      ∀ b, (b < a.toNat ∨ a.toNat + w.bytes ≤ b) → m.read b = s.sysmem.read b

/-- R66, R282: a load from the window that is not 4 bytes at a 4-aligned address faults with F_BAD_WIDTH, at any time; an
aligned 32-bit load of a reserved offset faults with F_RESERVED_OFFSET; a store does the same while idle. The
model's choices: while busy the busy fault comes first, and a narrow or misaligned access to a reserved offset, which
meets both faults of R282, faults with F_BAD_WIDTH (log 7); an access that passes the window's end belongs to the window
(log 8). -/
def Obligations.WindowAccessFaults : Prop :=
  ∀ (s : State) (w : Width) (a v : Word) (rest : List Turn) (ops : List HostOp), s.params.Wf →
    InWindow s.params a.toNat →
    let stops (f : Fault) : Prop :=
      (s.HostNext (.load w a) rest ops → step s = .fault f) ∧
      (s.HostNext (.store w a v) rest ops → s.phase = .idle → step s = .fault f)
    ((w ≠ .w32 ∨ a.toNat % 4 ≠ 0) → stops (.badWidth a w)) ∧
    (w = .w32 → a.toNat % 4 = 0 → 0x2C ≤ a.toNat - s.params.fpcBase → stops (.reservedOffset a w))

/-- R65, R283: a host store of any width to the flash range faults with F_FLASH_STORE, at any time. The
model's choices: so does a misaligned one, which R284 covers too (log 7), and the recorded value of a narrow store is cut
to its width, and an access that passes the end of flash belongs to flash (log 8). -/
def Obligations.FlashStoreFaults : Prop :=
  ∀ (s : State) (w : Width) (a v : Word) (rest : List Turn) (ops : List HostOp),
    s.HostNext (.store w a v) rest ops → InFlash s.params a.toNat →
    step s = .fault (.flashStore a w (narrow w v)) ∧ (Fault.flashStore a w (narrow w v)).code = 4

/-- R64, R67, R284: a misaligned load from flash or SYSMEM, and a misaligned store to SYSMEM, fault with F_MISALIGNED, at
any time. The model's choices: a misaligned store to flash is a store to flash (log 7), and a misaligned access
that starts in SYSMEM and runs into the window or into flash belongs to SYSMEM, the region of its first byte (log 8). -/
def Obligations.MisalignedAccessFaults : Prop :=
  ∀ (s : State) (w : Width) (a v : Word) (rest : List Turn) (ops : List HostOp), s.params.Wf →
    ¬ InWindow s.params a.toNat → a.toNat % w.bytes ≠ 0 →
    (s.HostNext (.load w a) rest ops → step s = .fault (.misaligned a w)) ∧
    (s.HostNext (.store w a v) rest ops → ¬ InFlash s.params a.toNat → step s = .fault (.misaligned a w))

/-- R82, R110: one pass of POLL reads STATUS; the loop goes on while BUSY reads 1, and ends when it reads 0. -/
def Obligations.PollLoopsWhileBusy : Prop :=
  ∀ (s : State) (rest : List Turn) (ops : List HostOp), s.HostNext .poll rest ops →
    (s.phase ≠ .idle → step s = .next { s.taken rest (.poll :: ops) with rdata := s.status }) ∧
    (s.phase = .idle → step s = .next { s.taken rest ops with rdata := s.status })

/-- R23, R40: the fields of the status word, bit by bit. -/
def Obligations.StatusWordLayout : Prop :=
  ∀ s : State,
    (s.status.getLsbD 0 = true ↔ s.phase ≠ .idle) ∧ s.status.extractLsb' 1 1 = s.result ∧
    s.status.extractLsb' 2 2 = 0 ∧ s.status.extractLsb' 4 4 = s.errkind ∧ s.status.extractLsb' 8 4 = s.lastop ∧
    s.status.extractLsb' 12 20 = 0

/-! ### Reset -/

/-- R51, R300: the reset value of every register, latch and flag. -/
def Obligations.ResetValues : Prop :=
  (∀ r : Reg, State.reset.readReg r = if r = .weprot0 ∨ r = .weprot1 then 0xFFFFFFFF else 0) ∧
  State.reset.phase.code = 0 ∧ State.reset.op.code = 0 ∧ State.reset.mpend = none ∧
  State.reset.ta = 0 ∧ State.reset.n = 0 ∧ State.reset.burst = false ∧ State.reset.exb = 0 ∧
  State.reset.aBase = 0 ∧ State.reset.aSrc = 0 ∧ State.reset.aCount = 0 ∧ State.reset.aIdx = 0 ∧
  (∀ i : Fin 16, State.reset.sref[i] = 0 ∧ State.reset.wiss[i] = 0) ∧
  State.reset.preEn = false ∧ State.reset.postEn = false ∧
  State.reset.mfDone = false ∧ State.reset.mfPre = false ∧ State.reset.mfRegv = false ∧
  State.reset.lkBank = .b0 ∧ State.reset.lkMask = 0 ∧ State.reset.lkSave = 0 ∧ State.reset.lkHeld = false

/-- R300, R301: a reset with no request pending puts every register and latch to its reset value and changes neither
memory. That the host's program, the schedule, the value last read and the record of draws stay is the model's choice
(log 12). -/
def Obligations.ResetKeepsMemories : Prop :=
  ∀ (s : State) (rest : List Turn), s.sched = Turn.reset :: rest → s.mpend = none →
    step s = .next
      { State.reset with
        params := s.params, flash := s.flash, sysmem := s.sysmem
        rdata := s.rdata, host := s.host, sched := rest, tape := s.tape, drawn := s.drawn }

/-- R302: a reset that cuts off a request abandons the command with no report, changes no byte outside the request's words
or sector, and puts every register and latch to its reset value; and every content of the request's words or sector is
left under some first value of the tape, locked or not (log 16). That the host's program, the schedule, the value last read
and the record of draws stay is the model's choice (log 12). -/
def Obligations.ResetCutsOffTheRequest : Prop :=
  ∀ (s : State) (rest : List Turn), s.Inv → s.sched = Turn.reset :: rest → s.mpend ≠ none →
    let after (m : Memory) (tape : List Nat) : State :=
      { State.reset with
        params := s.params, flash := m, sysmem := s.sysmem
        rdata := s.rdata, host := s.host, sched := rest, tape := tape, drawn := s.drawn + 1 }
    (∃ m, step s = .next (after m s.tape.tail) ∧ ∀ a, ¬ s.InTarget a → m.read a = s.flash.read a) ∧
    ∀ c : Nat → Byte, ∃ d m, step { s with tape := d :: s.tape } = .next (after m s.tape) ∧
      ∀ a, m.read a = if s.InTarget a then c a else s.flash.read a

/-! ### Addresses and corrections -/

/-- R15, R133: of the two bank checks exactly one holds of a flash address, and it is that of its bank. -/
def Obligations.BankChecksAgreeWithBank : Prop :=
  ∀ (p : Params) (a : Nat), p.Wf → InFlash p a →
    (IsInBank0 p a ↔ bankOf p a = .b0) ∧ (IsInBank1 p a ↔ bankOf p a = .b1) ∧
    (IsInBank0 p a ∨ IsInBank1 p a) ∧ ¬ (IsInBank0 p a ∧ IsInBank1 p a)

/-- R172: the correction after a pre-verify failure, its bit-by-bit reading, its equal form, and the rule's example. -/
def Obligations.PreCorrectBitByBit : Prop :=
  (∀ (s e : Word), preCorrect s e = s ||| ~~~(e ||| s) ∧ preCorrect s e = ~~~(~~~s &&& e) ∧
    ∀ i (_ : i < 32), (preCorrect s e)[i] = false ↔ s[i] = false ∧ e[i] = true) ∧
  preCorrect 0xDEAD0000 0xDEADBEEF = 0xFFFF4110
end

