-- ==== Sys2Proof/Laws/Draws.lean ====
section
/-! SUPPORT. Every choice that the rules leave free is some draw (R13, R73, R75, R77, R302; log 3). -/

namespace Sys2Proof.Machine

/-- A drawn bit string may have any first `n` bits. -/
theorem exists_draw (n : Nat) (f : Nat → Bool) : ∃ d : Nat, ∀ k < n, d.testBit k = f k :=
  ⟨Nat.ofBits (fun k : Fin n => f k), fun k hk => Nat.testBit_ofBits_lt _ k hk⟩

theorem getLsbD_drawWord (d i k : Nat) (hk : k < 32) : (drawWord d i).getLsbD k = d.testBit (32 * i + k) := by
  simp [drawWord, BitVec.getLsbD_ofNat, hk, -BitVec.getLsbD_eq_getElem]

theorem getLsbD_drawByte (d i k : Nat) (hk : k < 8) : (drawByte d i).getLsbD k = d.testBit (8 * i + k) := by
  simp [drawByte, BitVec.getLsbD_ofNat, hk, -BitVec.getLsbD_eq_getElem]

/-- The bytes of a drawn word are drawn bytes. -/
theorem byteOf_drawWord (d i k : Nat) (hk : k < 4) : byteOf (drawWord d i) k = drawByte d (4 * i + k) := by
  apply BitVec.eq_of_getLsbD_eq
  intro j hj
  rw [getLsbD_drawByte _ _ _ hj, byteOf, BitVec.getLsbD_extractLsb', getLsbD_drawWord _ _ _ (by omega),
    show 32 * i + (8 * k + j) = 8 * (4 * i + k) + j by omega]
  simp [hj]

/-- A draw may have any first `n` bytes. -/
theorem exists_drawByte (n : Nat) (f : Nat → Byte) : ∃ d, ∀ k < n, drawByte d k = f k := by
  obtain ⟨d, hd⟩ := exists_draw (8 * n) (fun j => (f (j / 8)).getLsbD (j % 8))
  refine ⟨d, fun k hk => BitVec.eq_of_getLsbD_eq fun j hj => ?_⟩
  rw [getLsbD_drawByte _ _ _ hj, hd _ (by omega), show (8 * k + j) / 8 = k by omega,
    show (8 * k + j) % 8 = j by omega]

/-- A draw may have any first `n` words, and any `n` bits after them. -/
theorem exists_drawWord (n : Nat) (f : Nat → Word) (go : Nat → Bool) :
    ∃ d, ∀ i < n, drawWord d i = f i ∧ d.testBit (32 * n + i) = go i := by
  obtain ⟨d, hd⟩ := exists_draw (33 * n)
    (fun j => if j < 32 * n then (f (j / 32)).getLsbD (j % 32) else go (j - 32 * n))
  refine ⟨d, fun i hi => ⟨BitVec.eq_of_getLsbD_eq fun j hj => ?_, ?_⟩⟩
  · rw [getLsbD_drawWord _ _ _ hj, hd _ (by omega), if_pos (by omega), show (32 * i + j) / 32 = i by omega,
      show (32 * i + j) % 32 = j by omega]
  · rw [hd _ (by omega), if_neg (by omega), show 32 * n + i - 32 * n = i by omega]

/-- R73: failed bits that are target bits reading 1 are left as they are drawn. -/
theorem programWord_of_subset {old w f : Word} (h : f &&& ~~~(~~~w &&& old) = 0) :
    programWord old w f = old &&& (w ||| f) := by
  have : f &&& (~~~w &&& old) = f := by
    ext i hi
    have := congrArg (·[i]) h
    simp only [BitVec.getElem_and, BitVec.getElem_not] at this ⊢
    cases hf : f[i] <;> simp_all
  rw [programWord, this]

/-- R75: unerased bits that read 0 are left as they are drawn. -/
theorem eraseByte_of_subset {old z : Byte} (h : z &&& old = 0) : eraseByte old z = ~~~z := by
  have : z &&& ~~~old = z := by
    ext i hi
    have := congrArg (·[i]) h
    simp only [BitVec.getElem_and, BitVec.getElem_not] at this ⊢
    cases hz : z[i] <;> simp_all
  rw [eraseByte, this]

end Sys2Proof.Machine
end

