-- ==== Sys2Proof/Laws/Memory.lean ====
section
/-! SUPPORT. What the memory operations do: a read after a fill, the canonical form they keep, and the little-endian
view of bytes as words (R13, R62). -/

namespace Sys2Proof.Machine

/-! ### Reads -/

theorem Memory.read_cons (c : Host.Cell) (m : Memory) (a : Nat) :
    Memory.read (c :: m) a = if c.1 = a then c.2 else Memory.read m a := by
  by_cases h : c.1 = a <;> simp [Memory.read, h]

@[simp] theorem Memory.read_nil (a : Nat) : Memory.read [] a = Memory.unlisted := rfl

/-- An address with no listed cell reads as unlisted. -/
theorem Memory.read_of_forall_ne {m : Memory} {a : Nat} (h : ∀ c ∈ m, c.1 ≠ a) : m.read a = Memory.unlisted := by
  induction m with
  | nil => rfl
  | cons c m ih =>
    rw [Memory.read_cons, if_neg (h c (by simp))]
    exact ih fun d hd => h d (by simp [hd])

/-- A segment that lists nothing at `a` is passed over. -/
theorem Memory.read_append_of_forall_ne {m₁ m₂ : Memory} {a : Nat} (h : ∀ c ∈ m₁, c.1 ≠ a) :
    Memory.read (m₁ ++ m₂) a = m₂.read a := by
  induction m₁ with
  | nil => rfl
  | cons c m ih =>
    rw [List.cons_append, Memory.read_cons, if_neg (h c (by simp))]
    exact ih fun d hd => h d (by simp [hd])

/-- A later segment that lists nothing at `a` does not matter. -/
theorem Memory.read_append_right_of_forall_ne {m₁ m₂ : Memory} {a : Nat} (h : ∀ c ∈ m₂, c.1 ≠ a) :
    Memory.read (m₁ ++ m₂) a = m₁.read a := by
  induction m₁ with
  | nil => exact Memory.read_of_forall_ne h
  | cons c m ih => rw [List.cons_append, Memory.read_cons, Memory.read_cons, ih]

/-- Dropping cells of other addresses does not change a read. -/
theorem Memory.read_filter {m : Memory} {a : Nat} {p : Host.Cell → Bool} (h : ∀ c, c.1 = a → p c = true) :
    Memory.read (m.filter p) a = m.read a := by
  induction m with
  | nil => rfl
  | cons c m ih =>
    by_cases hc : c.1 = a
    · rw [List.filter_cons_of_pos (h c hc), Memory.read_cons, Memory.read_cons, ih]
    · by_cases hp : p c = true
      · rw [List.filter_cons_of_pos hp, Memory.read_cons, Memory.read_cons, ih]
      · rw [List.filter_cons_of_neg hp, ih, Memory.read_cons, if_neg hc]

theorem mem_cellsAt {lo n : Nat} {f : Nat → Byte} {c : Host.Cell} :
    c ∈ cellsAt lo n f ↔ ∃ k < n, c = (lo + k, f k) ∧ f k ≠ Memory.unlisted := by
  simp only [cellsAt, List.mem_filter, List.mem_map, List.mem_range, bne_iff_ne]
  constructor
  · rintro ⟨⟨k, hk, rfl⟩, hne⟩
    exact ⟨k, hk, rfl, hne⟩
  · rintro ⟨k, hk, rfl, hne⟩
    exact ⟨⟨k, hk, rfl⟩, hne⟩

theorem cellsAt_succ (lo n : Nat) (f : Nat → Byte) :
    cellsAt lo (n + 1) f = cellsAt lo n f ++ if f n = Memory.unlisted then [] else [(lo + n, f n)] := by
  by_cases h : f n = Memory.unlisted <;> simp [cellsAt, List.range_succ, h]

theorem read_cellsAt (lo n : Nat) (f : Nat → Byte) (k : Nat) (hk : k < n) :
    Memory.read (cellsAt lo n f) (lo + k) = f k := by
  induction n with
  | zero => omega
  | succ n ih =>
    rw [cellsAt_succ]
    by_cases hkn : k = n
    · subst hkn
      rw [Memory.read_append_of_forall_ne]
      · by_cases h : f k = Memory.unlisted <;> simp [h, Memory.read_cons]
      · intro c hc
        obtain ⟨j, hj, rfl, -⟩ := mem_cellsAt.1 hc
        simp; omega
    · rw [Memory.read_append_right_of_forall_ne, ih (by omega)]
      intro c hc
      split at hc
      · simp at hc
      · simp at hc; subst hc; simp; omega

/-- The one law of the one operation that changes a memory: the filled bytes read as filled, every other byte as before. -/
theorem Memory.read_fill (m : Memory) (lo n : Nat) (f : Nat → Byte) (a : Nat) :
    (m.fill lo n f).read a = if lo ≤ a ∧ a < lo + n then f (a - lo) else m.read a := by
  unfold Memory.fill
  have hmid : ∀ c ∈ cellsAt lo n f, lo ≤ c.1 ∧ c.1 < lo + n := by
    intro c hc
    obtain ⟨k, hk, rfl, -⟩ := mem_cellsAt.1 hc
    simp; omega
  by_cases h1 : a < lo
  · rw [if_neg (by omega), List.append_assoc, Memory.read_append_right_of_forall_ne, Memory.read_filter]
    · intro c hc; simp; omega
    · intro c hc hca
      rcases List.mem_append.1 hc with h | h
      · have := hmid c h; omega
      · simp at h; omega
  · by_cases h2 : a < lo + n
    · rw [if_pos (by omega), List.append_assoc, Memory.read_append_of_forall_ne,
        Memory.read_append_right_of_forall_ne]
      · have := read_cellsAt lo n f (a - lo) (by omega)
        rwa [Nat.add_sub_cancel' (by omega)] at this
      · intro c hc; simp at hc; omega
      · intro c hc; simp at hc; omega
    · rw [if_neg (by omega), Memory.read_append_of_forall_ne, Memory.read_filter]
      · intro c hc; simp; omega
      · intro c hc hca
        rcases List.mem_append.1 hc with h | h
        · simp at h; omega
        · have := hmid c h; omega

/-- Where a filled memory lists a byte: among the filled ones, or where it listed one before. -/
theorem Memory.mem_fill {m : Memory} {lo n : Nat} {f : Nat → Byte} {c : Host.Cell} (h : c ∈ m.fill lo n f) :
    c ∈ m ∨ (lo ≤ c.1 ∧ c.1 < lo + n) := by
  unfold Memory.fill at h
  rcases List.mem_append.1 h with h | h
  · rcases List.mem_append.1 h with h | h
    · exact .inl (List.mem_of_mem_filter h)
    · obtain ⟨k, hk, rfl, -⟩ := mem_cellsAt.1 h
      right; simp; omega
  · exact .inl (List.mem_of_mem_filter h)

/-! ### The canonical form -/

/-- The canonical form, said with all pairs instead of neighbours. -/
theorem Memory.wf_iff (m : Memory) :
    m.wf = true ↔ m.Pairwise (fun c d => c.1 < d.1) ∧ ∀ c ∈ m, c.2 ≠ Memory.unlisted := by
  have : IsTrans Host.Cell (fun c d => c.1 < d.1) := ⟨fun _ _ _ => Nat.lt_trans⟩
  simp [Memory.wf, List.isChain_iff_pairwise]

@[simp] theorem Memory.wf_nil : Memory.wf [] = true := rfl

theorem pairwise_cellsAt (lo n : Nat) (f : Nat → Byte) :
    (cellsAt lo n f).Pairwise (fun c d => c.1 < d.1) := by
  unfold cellsAt
  refine List.Pairwise.filter _ (List.pairwise_map.2 ?_)
  exact List.pairwise_lt_range.imp (by intro a b h; simpa using h)

/-- Every memory operation is a fill, and a fill keeps the canonical form. -/
theorem Memory.wf_fill {m : Memory} (h : m.wf = true) (lo n : Nat) (f : Nat → Byte) : (m.fill lo n f).wf = true := by
  obtain ⟨hs, hv⟩ := (Memory.wf_iff m).1 h
  refine (Memory.wf_iff _).2 ⟨?_, ?_⟩
  · unfold Memory.fill
    refine List.pairwise_append.2 ⟨List.pairwise_append.2 ⟨hs.filter _, pairwise_cellsAt lo n f, ?_⟩, hs.filter _, ?_⟩
    · intro c hc d hd
      obtain ⟨k, hk, rfl, -⟩ := mem_cellsAt.1 hd
      simp at hc ⊢; omega
    · intro c hc d hd
      have hd' : lo + n ≤ d.1 := by simpa using (List.mem_filter.1 hd).2
      rcases List.mem_append.1 hc with h | h
      · have : c.1 < lo := by simpa using (List.mem_filter.1 h).2
        omega
      · obtain ⟨k, hk, rfl, -⟩ := mem_cellsAt.1 h
        simp; omega
  · intro c hc
    unfold Memory.fill at hc
    rcases List.mem_append.1 hc with h | h
    · rcases List.mem_append.1 h with h | h
      · exact hv c (List.mem_of_mem_filter h)
      · obtain ⟨k, hk, rfl, hne⟩ := mem_cellsAt.1 h
        exact hne
    · exact hv c (List.mem_of_mem_filter h)

theorem Memory.wf_writeLE {m : Memory} (h : m.wf = true) (a n : Nat) (v : Word) : (m.writeLE a n v).wf = true :=
  Memory.wf_fill h _ _ _

theorem Memory.wf_putWords {m : Memory} (h : m.wf = true) (a : Nat) (ws : List Word) : (m.putWords a ws).wf = true :=
  Memory.wf_fill h _ _ _

/-- In the canonical form, what is listed is what is read. -/
theorem Memory.mem_iff_read {m : Memory} (h : m.wf = true) (a : Nat) (b : Byte) :
    (a, b) ∈ m ↔ m.read a = b ∧ b ≠ Memory.unlisted := by
  obtain ⟨hs, hv⟩ := (Memory.wf_iff m).1 h
  clear h
  induction m with
  | nil => simp [eq_comm]
  | cons c m ih =>
    obtain ⟨hlt, hs'⟩ := List.pairwise_cons.1 hs
    have ih := ih hs' fun d hd => hv d (by simp [hd])
    rw [Memory.read_cons]
    by_cases hc : c.1 = a
    · rw [if_pos hc]
      constructor
      · intro hm
        rcases List.mem_cons.1 hm with rfl | hm
        · exact ⟨rfl, hv (a, b) (by simp)⟩
        · have := hlt _ hm; simp at this; omega
      · rintro ⟨rfl, -⟩
        have : c = (a, c.2) := by rw [← hc]
        rw [this]; simp
    · rw [if_neg hc, ← ih, List.mem_cons]
      constructor
      · rintro (rfl | hm)
        · exact absurd rfl hc
        · exact hm
      · exact .inr

/-- Equal memories are equal data: the canonical form is determined by the reads. -/
theorem Memory.ext_read {m₁ m₂ : Memory} (h₁ : m₁.wf = true) (h₂ : m₂.wf = true)
    (h : ∀ a, m₁.read a = m₂.read a) : m₁ = m₂ := by
  have hs₁ := ((Memory.wf_iff m₁).1 h₁).1
  have hs₂ := ((Memory.wf_iff m₂).1 h₂).1
  have nd₁ : m₁.Nodup := hs₁.imp (fun hlt he => by rw [he] at hlt; exact absurd hlt (Nat.lt_irrefl _))
  have nd₂ : m₂.Nodup := hs₂.imp (fun hlt he => by rw [he] at hlt; exact absurd hlt (Nat.lt_irrefl _))
  have hp : m₁.Perm m₂ := (List.perm_ext_iff_of_nodup nd₁ nd₂).2 fun c => by
    obtain ⟨a, b⟩ := c
    rw [Memory.mem_iff_read h₁, Memory.mem_iff_read h₂, h]
  exact hp.eq_of_pairwise (fun c d _ _ h h' => absurd (Nat.lt_trans h h') (Nat.lt_irrefl _)) hs₁ hs₂

/-! ### Words -/

theorem readLE_congr {f g : Nat → Byte} {a n : Nat} (h : ∀ k < n, f (a + k) = g (a + k)) :
    readLE f a n = readLE g a n := by
  induction n generalizing a with
  | zero => rfl
  | succ n ih =>
    have h0 := h 0 (by omega)
    simp only [Nat.add_zero] at h0
    rw [readLE, readLE, h0, ih]
    intro k hk
    have := h (k + 1) (by omega)
    rwa [show a + (k + 1) = a + 1 + k by omega] at this

/-- R62: bit `i` of a little-endian value is bit `i % 8` of byte `i / 8`. -/
theorem getLsbD_readLE (f : Nat → Byte) (a n i : Nat) (hi : i < 32) :
    (readLE f a n).getLsbD i = (decide (i < 8 * n) && (f (a + i / 8)).getLsbD (i % 8)) := by
  induction n generalizing a i with
  | zero => simp [readLE]
  | succ n ih =>
    rw [readLE, BitVec.getLsbD_or, BitVec.getLsbD_shiftLeft, BitVec.getLsbD_setWidth]
    by_cases h : i < 8
    · have h8 : i / 8 = 0 := by omega
      have hm : i % 8 = i := by omega
      simp [h, h8, hm, hi]; omega
    · rw [ih (a + 1) (i - 8) (by omega), show a + 1 + (i - 8) / 8 = a + i / 8 by omega,
        show (i - 8) % 8 = i % 8 by omega, BitVec.getLsbD_of_ge (f a) i (by omega)]
      have : decide (i - 8 < 8 * n) = decide (i < 8 * (n + 1)) := by
        rw [decide_eq_decide]; omega
      simp [h, hi, this]

theorem getLsbD_byteOf (v : Word) (k i : Nat) (hi : i < 8) : (byteOf v k).getLsbD i = v.getLsbD (8 * k + i) := by
  simp [byteOf, hi]

/-- R62: the bytes of a word that was read are the bytes that were read. -/
theorem byteOf_readLE (f : Nat → Byte) (a n k : Nat) (hk : k < n) (hn : n ≤ 4) :
    byteOf (readLE f a n) k = f (a + k) := by
  apply BitVec.eq_of_getLsbD_eq
  intro i hi
  rw [getLsbD_byteOf _ _ _ hi, getLsbD_readLE _ _ _ _ (by omega), show (8 * k + i) / 8 = k by omega,
    show (8 * k + i) % 8 = i by omega]
  simp; omega

/-- R62: reading back the four bytes of a word gives the word. -/
theorem readLE_byteOf (v : Word) (f : Nat → Byte) (a : Nat) (h : ∀ k < 4, f (a + k) = byteOf v k) :
    readLE f a 4 = v := by
  apply BitVec.eq_of_getLsbD_eq
  intro i hi
  rw [getLsbD_readLE _ _ _ _ hi, h (i / 8) (by omega), getLsbD_byteOf _ _ _ (by omega),
    show 8 * (i / 8) + i % 8 = i by omega]
  simp; omega

/-- A byte of a word write (R13). -/
theorem Memory.read_writeLE (m : Memory) (a n : Nat) (v : Word) (b : Nat) :
    (m.writeLE a n v).read b = if a ≤ b ∧ b < a + n then byteOf v (b - a) else m.read b :=
  Memory.read_fill _ _ _ _ _

/-- A byte after the words from `a` on were replaced. -/
theorem Memory.read_putWords (m : Memory) (a : Nat) (ws : List Word) (b : Nat) :
    (m.putWords a ws).read b =
      if a ≤ b ∧ b < a + 4 * ws.length then byteOf (ws.getD ((b - a) / 4) 0) ((b - a) % 4) else m.read b :=
  Memory.read_fill _ _ _ _ _

/-- A word outside the words replaced is as before. -/
theorem Memory.word_putWords_of_disjoint (m : Memory) (a : Nat) (ws : List Word) (b : Nat)
    (h : b + 4 ≤ a ∨ a + 4 * ws.length ≤ b) : (m.putWords a ws).word b = m.word b := by
  refine readLE_congr fun k hk => ?_
  rw [Memory.read_putWords, if_neg (by omega)]

/-- A word that was replaced reads as its replacement. -/
theorem Memory.word_putWords (m : Memory) (a : Nat) (ws : List Word) (i : Nat) (hi : i < ws.length) :
    (m.putWords a ws).word (a + 4 * i) = ws.getD i 0 := by
  refine readLE_byteOf _ _ _ fun k hk => ?_
  rw [Memory.read_putWords, if_pos (by omega), show (a + 4 * i + k - a) / 4 = i by omega,
    show (a + 4 * i + k - a) % 4 = k by omega]

@[simp] theorem Memory.length_words (m : Memory) (a n : Nat) : (m.words a n).length = n := by
  simp [Memory.words]

theorem Memory.words_getD (m : Memory) (a n i : Nat) (hi : i < n) : (m.words a n).getD i 0 = m.word (a + 4 * i) := by
  simp [Memory.words, List.getD_eq_getElem?_getD, hi]

theorem Memory.words_one (m : Memory) (a : Nat) : m.words a 1 = [m.word a] := by
  simp [Memory.words]

/-- Byte `k` of the word at `a` is the byte at `a + k`. -/
theorem Memory.byteOf_word (m : Memory) (a k : Nat) (hk : k < 4) : byteOf (m.word a) k = m.read (a + k) :=
  byteOf_readLE _ _ _ _ hk (by omega)

end Sys2Proof.Machine
end

