-- ==== Sys2Proof/Laws/State.lean ====
section
/-! SUPPORT. What each field holds after each update of the state: one lemma per field per update, so that no proof
unfolds a record update. -/

namespace Sys2Proof.Machine

variable (s : State)

/-! ### State.setWeprot -/

@[simp] theorem State.setWeprot_params (b : Bank) (v : Word) :
    (s.setWeprot b v).params = s.params := rfl
@[simp] theorem State.setWeprot_addr (b : Bank) (v : Word) :
    (s.setWeprot b v).addr = s.addr := rfl
@[simp] theorem State.setWeprot_data (b : Bank) (v : Word) :
    (s.setWeprot b v).data = s.data := rfl
@[simp] theorem State.setWeprot_count (b : Bank) (v : Word) :
    (s.setWeprot b v).count = s.count := rfl
@[simp] theorem State.setWeprot_src (b : Bank) (v : Word) :
    (s.setWeprot b v).src = s.src := rfl
@[simp] theorem State.setWeprot_clkmhz (b : Bank) (v : Word) :
    (s.setWeprot b v).clkmhz = s.clkmhz := rfl
@[simp] theorem State.setWeprot_result (b : Bank) (v : Word) :
    (s.setWeprot b v).result = s.result := rfl
@[simp] theorem State.setWeprot_errkind (b : Bank) (v : Word) :
    (s.setWeprot b v).errkind = s.errkind := rfl
@[simp] theorem State.setWeprot_lastop (b : Bank) (v : Word) :
    (s.setWeprot b v).lastop = s.lastop := rfl
@[simp] theorem State.setWeprot_written (b : Bank) (v : Word) :
    (s.setWeprot b v).written = s.written := rfl
@[simp] theorem State.setWeprot_pcnt (b : Bank) (v : Word) :
    (s.setWeprot b v).pcnt = s.pcnt := rfl
@[simp] theorem State.setWeprot_weprot0 (b : Bank) (v : Word) :
    (s.setWeprot b v).weprot0 = if b = .b0 then v else s.weprot0 := rfl
@[simp] theorem State.setWeprot_weprot1 (b : Bank) (v : Word) :
    (s.setWeprot b v).weprot1 = if b = .b1 then v else s.weprot1 := rfl
@[simp] theorem State.setWeprot_phase (b : Bank) (v : Word) :
    (s.setWeprot b v).phase = s.phase := rfl
@[simp] theorem State.setWeprot_op (b : Bank) (v : Word) :
    (s.setWeprot b v).op = s.op := rfl
@[simp] theorem State.setWeprot_ta (b : Bank) (v : Word) :
    (s.setWeprot b v).ta = s.ta := rfl
@[simp] theorem State.setWeprot_n (b : Bank) (v : Word) :
    (s.setWeprot b v).n = s.n := rfl
@[simp] theorem State.setWeprot_burst (b : Bank) (v : Word) :
    (s.setWeprot b v).burst = s.burst := rfl
@[simp] theorem State.setWeprot_exb (b : Bank) (v : Word) :
    (s.setWeprot b v).exb = s.exb := rfl
@[simp] theorem State.setWeprot_aBase (b : Bank) (v : Word) :
    (s.setWeprot b v).aBase = s.aBase := rfl
@[simp] theorem State.setWeprot_aSrc (b : Bank) (v : Word) :
    (s.setWeprot b v).aSrc = s.aSrc := rfl
@[simp] theorem State.setWeprot_aCount (b : Bank) (v : Word) :
    (s.setWeprot b v).aCount = s.aCount := rfl
@[simp] theorem State.setWeprot_aIdx (b : Bank) (v : Word) :
    (s.setWeprot b v).aIdx = s.aIdx := rfl
@[simp] theorem State.setWeprot_sref (b : Bank) (v : Word) :
    (s.setWeprot b v).sref = s.sref := rfl
@[simp] theorem State.setWeprot_wiss (b : Bank) (v : Word) :
    (s.setWeprot b v).wiss = s.wiss := rfl
@[simp] theorem State.setWeprot_preEn (b : Bank) (v : Word) :
    (s.setWeprot b v).preEn = s.preEn := rfl
@[simp] theorem State.setWeprot_postEn (b : Bank) (v : Word) :
    (s.setWeprot b v).postEn = s.postEn := rfl
@[simp] theorem State.setWeprot_mfDone (b : Bank) (v : Word) :
    (s.setWeprot b v).mfDone = s.mfDone := rfl
@[simp] theorem State.setWeprot_mfPre (b : Bank) (v : Word) :
    (s.setWeprot b v).mfPre = s.mfPre := rfl
@[simp] theorem State.setWeprot_mfRegv (b : Bank) (v : Word) :
    (s.setWeprot b v).mfRegv = s.mfRegv := rfl
@[simp] theorem State.setWeprot_lkBank (b : Bank) (v : Word) :
    (s.setWeprot b v).lkBank = s.lkBank := rfl
@[simp] theorem State.setWeprot_lkMask (b : Bank) (v : Word) :
    (s.setWeprot b v).lkMask = s.lkMask := rfl
@[simp] theorem State.setWeprot_lkSave (b : Bank) (v : Word) :
    (s.setWeprot b v).lkSave = s.lkSave := rfl
@[simp] theorem State.setWeprot_lkHeld (b : Bank) (v : Word) :
    (s.setWeprot b v).lkHeld = s.lkHeld := rfl
@[simp] theorem State.setWeprot_mpend (b : Bank) (v : Word) :
    (s.setWeprot b v).mpend = s.mpend := rfl
@[simp] theorem State.setWeprot_flash (b : Bank) (v : Word) :
    (s.setWeprot b v).flash = s.flash := rfl
@[simp] theorem State.setWeprot_sysmem (b : Bank) (v : Word) :
    (s.setWeprot b v).sysmem = s.sysmem := rfl
@[simp] theorem State.setWeprot_rdata (b : Bank) (v : Word) :
    (s.setWeprot b v).rdata = s.rdata := rfl
@[simp] theorem State.setWeprot_host (b : Bank) (v : Word) :
    (s.setWeprot b v).host = s.host := rfl
@[simp] theorem State.setWeprot_sched (b : Bank) (v : Word) :
    (s.setWeprot b v).sched = s.sched := rfl
@[simp] theorem State.setWeprot_tape (b : Bank) (v : Word) :
    (s.setWeprot b v).tape = s.tape := rfl
@[simp] theorem State.setWeprot_drawn (b : Bank) (v : Word) :
    (s.setWeprot b v).drawn = s.drawn := rfl

/-! ### State.unlock -/

@[simp] theorem State.unlock_params (lo hi : Nat) :
    (s.unlock lo hi).params = s.params := rfl
@[simp] theorem State.unlock_addr (lo hi : Nat) :
    (s.unlock lo hi).addr = s.addr := rfl
@[simp] theorem State.unlock_data (lo hi : Nat) :
    (s.unlock lo hi).data = s.data := rfl
@[simp] theorem State.unlock_count (lo hi : Nat) :
    (s.unlock lo hi).count = s.count := rfl
@[simp] theorem State.unlock_src (lo hi : Nat) :
    (s.unlock lo hi).src = s.src := rfl
@[simp] theorem State.unlock_clkmhz (lo hi : Nat) :
    (s.unlock lo hi).clkmhz = s.clkmhz := rfl
@[simp] theorem State.unlock_result (lo hi : Nat) :
    (s.unlock lo hi).result = s.result := rfl
@[simp] theorem State.unlock_errkind (lo hi : Nat) :
    (s.unlock lo hi).errkind = s.errkind := rfl
@[simp] theorem State.unlock_lastop (lo hi : Nat) :
    (s.unlock lo hi).lastop = s.lastop := rfl
@[simp] theorem State.unlock_written (lo hi : Nat) :
    (s.unlock lo hi).written = s.written := rfl
@[simp] theorem State.unlock_pcnt (lo hi : Nat) :
    (s.unlock lo hi).pcnt = s.pcnt := rfl
@[simp] theorem State.unlock_weprot0 (lo hi : Nat) :
    (s.unlock lo hi).weprot0 = if bankOf s.params lo = .b0 then s.weprot (bankOf s.params lo) &&& ~~~lockMask s.params lo hi else s.weprot0 := rfl
@[simp] theorem State.unlock_weprot1 (lo hi : Nat) :
    (s.unlock lo hi).weprot1 = if bankOf s.params lo = .b1 then s.weprot (bankOf s.params lo) &&& ~~~lockMask s.params lo hi else s.weprot1 := rfl
@[simp] theorem State.unlock_phase (lo hi : Nat) :
    (s.unlock lo hi).phase = s.phase := rfl
@[simp] theorem State.unlock_op (lo hi : Nat) :
    (s.unlock lo hi).op = s.op := rfl
@[simp] theorem State.unlock_ta (lo hi : Nat) :
    (s.unlock lo hi).ta = s.ta := rfl
@[simp] theorem State.unlock_n (lo hi : Nat) :
    (s.unlock lo hi).n = s.n := rfl
@[simp] theorem State.unlock_burst (lo hi : Nat) :
    (s.unlock lo hi).burst = s.burst := rfl
@[simp] theorem State.unlock_exb (lo hi : Nat) :
    (s.unlock lo hi).exb = s.exb := rfl
@[simp] theorem State.unlock_aBase (lo hi : Nat) :
    (s.unlock lo hi).aBase = s.aBase := rfl
@[simp] theorem State.unlock_aSrc (lo hi : Nat) :
    (s.unlock lo hi).aSrc = s.aSrc := rfl
@[simp] theorem State.unlock_aCount (lo hi : Nat) :
    (s.unlock lo hi).aCount = s.aCount := rfl
@[simp] theorem State.unlock_aIdx (lo hi : Nat) :
    (s.unlock lo hi).aIdx = s.aIdx := rfl
@[simp] theorem State.unlock_sref (lo hi : Nat) :
    (s.unlock lo hi).sref = s.sref := rfl
@[simp] theorem State.unlock_wiss (lo hi : Nat) :
    (s.unlock lo hi).wiss = s.wiss := rfl
@[simp] theorem State.unlock_preEn (lo hi : Nat) :
    (s.unlock lo hi).preEn = s.preEn := rfl
@[simp] theorem State.unlock_postEn (lo hi : Nat) :
    (s.unlock lo hi).postEn = s.postEn := rfl
@[simp] theorem State.unlock_mfDone (lo hi : Nat) :
    (s.unlock lo hi).mfDone = s.mfDone := rfl
@[simp] theorem State.unlock_mfPre (lo hi : Nat) :
    (s.unlock lo hi).mfPre = s.mfPre := rfl
@[simp] theorem State.unlock_mfRegv (lo hi : Nat) :
    (s.unlock lo hi).mfRegv = s.mfRegv := rfl
@[simp] theorem State.unlock_lkBank (lo hi : Nat) :
    (s.unlock lo hi).lkBank = bankOf s.params lo := rfl
@[simp] theorem State.unlock_lkMask (lo hi : Nat) :
    (s.unlock lo hi).lkMask = lockMask s.params lo hi := rfl
@[simp] theorem State.unlock_lkSave (lo hi : Nat) :
    (s.unlock lo hi).lkSave = s.weprot (bankOf s.params lo) &&& lockMask s.params lo hi := rfl
@[simp] theorem State.unlock_lkHeld (lo hi : Nat) :
    (s.unlock lo hi).lkHeld = true := rfl
@[simp] theorem State.unlock_mpend (lo hi : Nat) :
    (s.unlock lo hi).mpend = s.mpend := rfl
@[simp] theorem State.unlock_flash (lo hi : Nat) :
    (s.unlock lo hi).flash = s.flash := rfl
@[simp] theorem State.unlock_sysmem (lo hi : Nat) :
    (s.unlock lo hi).sysmem = s.sysmem := rfl
@[simp] theorem State.unlock_rdata (lo hi : Nat) :
    (s.unlock lo hi).rdata = s.rdata := rfl
@[simp] theorem State.unlock_host (lo hi : Nat) :
    (s.unlock lo hi).host = s.host := rfl
@[simp] theorem State.unlock_sched (lo hi : Nat) :
    (s.unlock lo hi).sched = s.sched := rfl
@[simp] theorem State.unlock_tape (lo hi : Nat) :
    (s.unlock lo hi).tape = s.tape := rfl
@[simp] theorem State.unlock_drawn (lo hi : Nat) :
    (s.unlock lo hi).drawn = s.drawn := rfl

/-! ### State.restore -/

@[simp] theorem State.restore_params :
    s.restore.params = s.params := rfl
@[simp] theorem State.restore_addr :
    s.restore.addr = s.addr := rfl
@[simp] theorem State.restore_data :
    s.restore.data = s.data := rfl
@[simp] theorem State.restore_count :
    s.restore.count = s.count := rfl
@[simp] theorem State.restore_src :
    s.restore.src = s.src := rfl
@[simp] theorem State.restore_clkmhz :
    s.restore.clkmhz = s.clkmhz := rfl
@[simp] theorem State.restore_result :
    s.restore.result = s.result := rfl
@[simp] theorem State.restore_errkind :
    s.restore.errkind = s.errkind := rfl
@[simp] theorem State.restore_lastop :
    s.restore.lastop = s.lastop := rfl
@[simp] theorem State.restore_written :
    s.restore.written = s.written := rfl
@[simp] theorem State.restore_pcnt :
    s.restore.pcnt = s.pcnt := rfl
@[simp] theorem State.restore_weprot0 :
    s.restore.weprot0 = if s.lkBank = .b0 then s.weprot s.lkBank &&& ~~~s.lkMask ||| s.lkSave else s.weprot0 := rfl
@[simp] theorem State.restore_weprot1 :
    s.restore.weprot1 = if s.lkBank = .b1 then s.weprot s.lkBank &&& ~~~s.lkMask ||| s.lkSave else s.weprot1 := rfl
@[simp] theorem State.restore_phase :
    s.restore.phase = s.phase := rfl
@[simp] theorem State.restore_op :
    s.restore.op = s.op := rfl
@[simp] theorem State.restore_ta :
    s.restore.ta = s.ta := rfl
@[simp] theorem State.restore_n :
    s.restore.n = s.n := rfl
@[simp] theorem State.restore_burst :
    s.restore.burst = s.burst := rfl
@[simp] theorem State.restore_exb :
    s.restore.exb = s.exb := rfl
@[simp] theorem State.restore_aBase :
    s.restore.aBase = s.aBase := rfl
@[simp] theorem State.restore_aSrc :
    s.restore.aSrc = s.aSrc := rfl
@[simp] theorem State.restore_aCount :
    s.restore.aCount = s.aCount := rfl
@[simp] theorem State.restore_aIdx :
    s.restore.aIdx = s.aIdx := rfl
@[simp] theorem State.restore_sref :
    s.restore.sref = s.sref := rfl
@[simp] theorem State.restore_wiss :
    s.restore.wiss = s.wiss := rfl
@[simp] theorem State.restore_preEn :
    s.restore.preEn = s.preEn := rfl
@[simp] theorem State.restore_postEn :
    s.restore.postEn = s.postEn := rfl
@[simp] theorem State.restore_mfDone :
    s.restore.mfDone = s.mfDone := rfl
@[simp] theorem State.restore_mfPre :
    s.restore.mfPre = s.mfPre := rfl
@[simp] theorem State.restore_mfRegv :
    s.restore.mfRegv = s.mfRegv := rfl
@[simp] theorem State.restore_lkBank :
    s.restore.lkBank = s.lkBank := rfl
@[simp] theorem State.restore_lkMask :
    s.restore.lkMask = s.lkMask := rfl
@[simp] theorem State.restore_lkSave :
    s.restore.lkSave = s.lkSave := rfl
@[simp] theorem State.restore_lkHeld :
    s.restore.lkHeld = false := rfl
@[simp] theorem State.restore_mpend :
    s.restore.mpend = s.mpend := rfl
@[simp] theorem State.restore_flash :
    s.restore.flash = s.flash := rfl
@[simp] theorem State.restore_sysmem :
    s.restore.sysmem = s.sysmem := rfl
@[simp] theorem State.restore_rdata :
    s.restore.rdata = s.rdata := rfl
@[simp] theorem State.restore_host :
    s.restore.host = s.host := rfl
@[simp] theorem State.restore_sched :
    s.restore.sched = s.sched := rfl
@[simp] theorem State.restore_tape :
    s.restore.tape = s.tape := rfl
@[simp] theorem State.restore_drawn :
    s.restore.drawn = s.drawn := rfl

/-! ### State.report -/

@[simp] theorem State.report_params (l : BitVec 4) (r : BitVec 1) (k : ErrKind) :
    (s.report l r k).params = s.params := rfl
@[simp] theorem State.report_addr (l : BitVec 4) (r : BitVec 1) (k : ErrKind) :
    (s.report l r k).addr = s.addr := rfl
@[simp] theorem State.report_data (l : BitVec 4) (r : BitVec 1) (k : ErrKind) :
    (s.report l r k).data = s.data := rfl
@[simp] theorem State.report_count (l : BitVec 4) (r : BitVec 1) (k : ErrKind) :
    (s.report l r k).count = s.count := rfl
@[simp] theorem State.report_src (l : BitVec 4) (r : BitVec 1) (k : ErrKind) :
    (s.report l r k).src = s.src := rfl
@[simp] theorem State.report_clkmhz (l : BitVec 4) (r : BitVec 1) (k : ErrKind) :
    (s.report l r k).clkmhz = s.clkmhz := rfl
@[simp] theorem State.report_result (l : BitVec 4) (r : BitVec 1) (k : ErrKind) :
    (s.report l r k).result = r := rfl
@[simp] theorem State.report_errkind (l : BitVec 4) (r : BitVec 1) (k : ErrKind) :
    (s.report l r k).errkind = k.code := rfl
@[simp] theorem State.report_lastop (l : BitVec 4) (r : BitVec 1) (k : ErrKind) :
    (s.report l r k).lastop = l := rfl
@[simp] theorem State.report_written (l : BitVec 4) (r : BitVec 1) (k : ErrKind) :
    (s.report l r k).written = 0 := rfl
@[simp] theorem State.report_pcnt (l : BitVec 4) (r : BitVec 1) (k : ErrKind) :
    (s.report l r k).pcnt = 0 := rfl
@[simp] theorem State.report_weprot0 (l : BitVec 4) (r : BitVec 1) (k : ErrKind) :
    (s.report l r k).weprot0 = s.weprot0 := rfl
@[simp] theorem State.report_weprot1 (l : BitVec 4) (r : BitVec 1) (k : ErrKind) :
    (s.report l r k).weprot1 = s.weprot1 := rfl
@[simp] theorem State.report_phase (l : BitVec 4) (r : BitVec 1) (k : ErrKind) :
    (s.report l r k).phase = s.phase := rfl
@[simp] theorem State.report_op (l : BitVec 4) (r : BitVec 1) (k : ErrKind) :
    (s.report l r k).op = s.op := rfl
@[simp] theorem State.report_ta (l : BitVec 4) (r : BitVec 1) (k : ErrKind) :
    (s.report l r k).ta = s.ta := rfl
@[simp] theorem State.report_n (l : BitVec 4) (r : BitVec 1) (k : ErrKind) :
    (s.report l r k).n = s.n := rfl
@[simp] theorem State.report_burst (l : BitVec 4) (r : BitVec 1) (k : ErrKind) :
    (s.report l r k).burst = s.burst := rfl
@[simp] theorem State.report_exb (l : BitVec 4) (r : BitVec 1) (k : ErrKind) :
    (s.report l r k).exb = s.exb := rfl
@[simp] theorem State.report_aBase (l : BitVec 4) (r : BitVec 1) (k : ErrKind) :
    (s.report l r k).aBase = s.aBase := rfl
@[simp] theorem State.report_aSrc (l : BitVec 4) (r : BitVec 1) (k : ErrKind) :
    (s.report l r k).aSrc = s.aSrc := rfl
@[simp] theorem State.report_aCount (l : BitVec 4) (r : BitVec 1) (k : ErrKind) :
    (s.report l r k).aCount = s.aCount := rfl
@[simp] theorem State.report_aIdx (l : BitVec 4) (r : BitVec 1) (k : ErrKind) :
    (s.report l r k).aIdx = s.aIdx := rfl
@[simp] theorem State.report_sref (l : BitVec 4) (r : BitVec 1) (k : ErrKind) :
    (s.report l r k).sref = s.sref := rfl
@[simp] theorem State.report_wiss (l : BitVec 4) (r : BitVec 1) (k : ErrKind) :
    (s.report l r k).wiss = s.wiss := rfl
@[simp] theorem State.report_preEn (l : BitVec 4) (r : BitVec 1) (k : ErrKind) :
    (s.report l r k).preEn = s.preEn := rfl
@[simp] theorem State.report_postEn (l : BitVec 4) (r : BitVec 1) (k : ErrKind) :
    (s.report l r k).postEn = s.postEn := rfl
@[simp] theorem State.report_mfDone (l : BitVec 4) (r : BitVec 1) (k : ErrKind) :
    (s.report l r k).mfDone = s.mfDone := rfl
@[simp] theorem State.report_mfPre (l : BitVec 4) (r : BitVec 1) (k : ErrKind) :
    (s.report l r k).mfPre = s.mfPre := rfl
@[simp] theorem State.report_mfRegv (l : BitVec 4) (r : BitVec 1) (k : ErrKind) :
    (s.report l r k).mfRegv = s.mfRegv := rfl
@[simp] theorem State.report_lkBank (l : BitVec 4) (r : BitVec 1) (k : ErrKind) :
    (s.report l r k).lkBank = s.lkBank := rfl
@[simp] theorem State.report_lkMask (l : BitVec 4) (r : BitVec 1) (k : ErrKind) :
    (s.report l r k).lkMask = s.lkMask := rfl
@[simp] theorem State.report_lkSave (l : BitVec 4) (r : BitVec 1) (k : ErrKind) :
    (s.report l r k).lkSave = s.lkSave := rfl
@[simp] theorem State.report_lkHeld (l : BitVec 4) (r : BitVec 1) (k : ErrKind) :
    (s.report l r k).lkHeld = s.lkHeld := rfl
@[simp] theorem State.report_mpend (l : BitVec 4) (r : BitVec 1) (k : ErrKind) :
    (s.report l r k).mpend = s.mpend := rfl
@[simp] theorem State.report_flash (l : BitVec 4) (r : BitVec 1) (k : ErrKind) :
    (s.report l r k).flash = s.flash := rfl
@[simp] theorem State.report_sysmem (l : BitVec 4) (r : BitVec 1) (k : ErrKind) :
    (s.report l r k).sysmem = s.sysmem := rfl
@[simp] theorem State.report_rdata (l : BitVec 4) (r : BitVec 1) (k : ErrKind) :
    (s.report l r k).rdata = s.rdata := rfl
@[simp] theorem State.report_host (l : BitVec 4) (r : BitVec 1) (k : ErrKind) :
    (s.report l r k).host = s.host := rfl
@[simp] theorem State.report_sched (l : BitVec 4) (r : BitVec 1) (k : ErrKind) :
    (s.report l r k).sched = s.sched := rfl
@[simp] theorem State.report_tape (l : BitVec 4) (r : BitVec 1) (k : ErrKind) :
    (s.report l r k).tape = s.tape := rfl
@[simp] theorem State.report_drawn (l : BitVec 4) (r : BitVec 1) (k : ErrKind) :
    (s.report l r k).drawn = s.drawn := rfl

/-! ### State.accept -/

@[simp] theorem State.accept_params (o : Op) (e : BitVec 2) :
    (s.accept o e).params = s.params := rfl
@[simp] theorem State.accept_addr (o : Op) (e : BitVec 2) :
    (s.accept o e).addr = s.addr := rfl
@[simp] theorem State.accept_data (o : Op) (e : BitVec 2) :
    (s.accept o e).data = s.data := rfl
@[simp] theorem State.accept_count (o : Op) (e : BitVec 2) :
    (s.accept o e).count = s.count := rfl
@[simp] theorem State.accept_src (o : Op) (e : BitVec 2) :
    (s.accept o e).src = s.src := rfl
@[simp] theorem State.accept_clkmhz (o : Op) (e : BitVec 2) :
    (s.accept o e).clkmhz = s.clkmhz := rfl
@[simp] theorem State.accept_result (o : Op) (e : BitVec 2) :
    (s.accept o e).result = 0 := rfl
@[simp] theorem State.accept_errkind (o : Op) (e : BitVec 2) :
    (s.accept o e).errkind = 0 := rfl
@[simp] theorem State.accept_lastop (o : Op) (e : BitVec 2) :
    (s.accept o e).lastop = o.code := rfl
@[simp] theorem State.accept_written (o : Op) (e : BitVec 2) :
    (s.accept o e).written = 0 := rfl
@[simp] theorem State.accept_pcnt (o : Op) (e : BitVec 2) :
    (s.accept o e).pcnt = 0 := rfl
@[simp] theorem State.accept_weprot0 (o : Op) (e : BitVec 2) :
    (s.accept o e).weprot0 = s.weprot0 := rfl
@[simp] theorem State.accept_weprot1 (o : Op) (e : BitVec 2) :
    (s.accept o e).weprot1 = s.weprot1 := rfl
@[simp] theorem State.accept_phase (o : Op) (e : BitVec 2) :
    (s.accept o e).phase = s.phase := rfl
@[simp] theorem State.accept_op (o : Op) (e : BitVec 2) :
    (s.accept o e).op = o := rfl
@[simp] theorem State.accept_ta (o : Op) (e : BitVec 2) :
    (s.accept o e).ta = s.ta := rfl
@[simp] theorem State.accept_n (o : Op) (e : BitVec 2) :
    (s.accept o e).n = s.n := rfl
@[simp] theorem State.accept_burst (o : Op) (e : BitVec 2) :
    (s.accept o e).burst = s.burst := rfl
@[simp] theorem State.accept_exb (o : Op) (e : BitVec 2) :
    (s.accept o e).exb = e := rfl
@[simp] theorem State.accept_aBase (o : Op) (e : BitVec 2) :
    (s.accept o e).aBase = s.aBase := rfl
@[simp] theorem State.accept_aSrc (o : Op) (e : BitVec 2) :
    (s.accept o e).aSrc = s.aSrc := rfl
@[simp] theorem State.accept_aCount (o : Op) (e : BitVec 2) :
    (s.accept o e).aCount = s.aCount := rfl
@[simp] theorem State.accept_aIdx (o : Op) (e : BitVec 2) :
    (s.accept o e).aIdx = s.aIdx := rfl
@[simp] theorem State.accept_sref (o : Op) (e : BitVec 2) :
    (s.accept o e).sref = s.sref := rfl
@[simp] theorem State.accept_wiss (o : Op) (e : BitVec 2) :
    (s.accept o e).wiss = s.wiss := rfl
@[simp] theorem State.accept_preEn (o : Op) (e : BitVec 2) :
    (s.accept o e).preEn = s.preEn := rfl
@[simp] theorem State.accept_postEn (o : Op) (e : BitVec 2) :
    (s.accept o e).postEn = s.postEn := rfl
@[simp] theorem State.accept_mfDone (o : Op) (e : BitVec 2) :
    (s.accept o e).mfDone = s.mfDone := rfl
@[simp] theorem State.accept_mfPre (o : Op) (e : BitVec 2) :
    (s.accept o e).mfPre = s.mfPre := rfl
@[simp] theorem State.accept_mfRegv (o : Op) (e : BitVec 2) :
    (s.accept o e).mfRegv = s.mfRegv := rfl
@[simp] theorem State.accept_lkBank (o : Op) (e : BitVec 2) :
    (s.accept o e).lkBank = s.lkBank := rfl
@[simp] theorem State.accept_lkMask (o : Op) (e : BitVec 2) :
    (s.accept o e).lkMask = s.lkMask := rfl
@[simp] theorem State.accept_lkSave (o : Op) (e : BitVec 2) :
    (s.accept o e).lkSave = s.lkSave := rfl
@[simp] theorem State.accept_lkHeld (o : Op) (e : BitVec 2) :
    (s.accept o e).lkHeld = s.lkHeld := rfl
@[simp] theorem State.accept_mpend (o : Op) (e : BitVec 2) :
    (s.accept o e).mpend = s.mpend := rfl
@[simp] theorem State.accept_flash (o : Op) (e : BitVec 2) :
    (s.accept o e).flash = s.flash := rfl
@[simp] theorem State.accept_sysmem (o : Op) (e : BitVec 2) :
    (s.accept o e).sysmem = s.sysmem := rfl
@[simp] theorem State.accept_rdata (o : Op) (e : BitVec 2) :
    (s.accept o e).rdata = s.rdata := rfl
@[simp] theorem State.accept_host (o : Op) (e : BitVec 2) :
    (s.accept o e).host = s.host := rfl
@[simp] theorem State.accept_sched (o : Op) (e : BitVec 2) :
    (s.accept o e).sched = s.sched := rfl
@[simp] theorem State.accept_tape (o : Op) (e : BitVec 2) :
    (s.accept o e).tape = s.tape := rfl
@[simp] theorem State.accept_drawn (o : Op) (e : BitVec 2) :
    (s.accept o e).drawn = s.drawn := rfl

/-! ### State.startProgram -/

@[simp] theorem State.startProgram_params (a : Nat) (ws : List Word) (b : Bool) :
    (s.startProgram a ws b).params = s.params := rfl
@[simp] theorem State.startProgram_addr (a : Nat) (ws : List Word) (b : Bool) :
    (s.startProgram a ws b).addr = s.addr := rfl
@[simp] theorem State.startProgram_data (a : Nat) (ws : List Word) (b : Bool) :
    (s.startProgram a ws b).data = s.data := rfl
@[simp] theorem State.startProgram_count (a : Nat) (ws : List Word) (b : Bool) :
    (s.startProgram a ws b).count = s.count := rfl
@[simp] theorem State.startProgram_src (a : Nat) (ws : List Word) (b : Bool) :
    (s.startProgram a ws b).src = s.src := rfl
@[simp] theorem State.startProgram_clkmhz (a : Nat) (ws : List Word) (b : Bool) :
    (s.startProgram a ws b).clkmhz = s.clkmhz := rfl
@[simp] theorem State.startProgram_result (a : Nat) (ws : List Word) (b : Bool) :
    (s.startProgram a ws b).result = s.result := rfl
@[simp] theorem State.startProgram_errkind (a : Nat) (ws : List Word) (b : Bool) :
    (s.startProgram a ws b).errkind = s.errkind := rfl
@[simp] theorem State.startProgram_lastop (a : Nat) (ws : List Word) (b : Bool) :
    (s.startProgram a ws b).lastop = s.lastop := rfl
@[simp] theorem State.startProgram_written (a : Nat) (ws : List Word) (b : Bool) :
    (s.startProgram a ws b).written = s.written := rfl
@[simp] theorem State.startProgram_pcnt (a : Nat) (ws : List Word) (b : Bool) :
    (s.startProgram a ws b).pcnt = 0 := rfl
@[simp] theorem State.startProgram_weprot0 (a : Nat) (ws : List Word) (b : Bool) :
    (s.startProgram a ws b).weprot0 = (s.unlock a (a + 4 * ws.length - 1)).weprot0 := rfl
@[simp] theorem State.startProgram_weprot1 (a : Nat) (ws : List Word) (b : Bool) :
    (s.startProgram a ws b).weprot1 = (s.unlock a (a + 4 * ws.length - 1)).weprot1 := rfl
@[simp] theorem State.startProgram_phase (a : Nat) (ws : List Word) (b : Bool) :
    (s.startProgram a ws b).phase = .issue := rfl
@[simp] theorem State.startProgram_op (a : Nat) (ws : List Word) (b : Bool) :
    (s.startProgram a ws b).op = s.op := rfl
@[simp] theorem State.startProgram_ta (a : Nat) (ws : List Word) (b : Bool) :
    (s.startProgram a ws b).ta = BitVec.ofNat 32 a := rfl
@[simp] theorem State.startProgram_n (a : Nat) (ws : List Word) (b : Bool) :
    (s.startProgram a ws b).n = BitVec.ofNat 5 ws.length := rfl
@[simp] theorem State.startProgram_burst (a : Nat) (ws : List Word) (b : Bool) :
    (s.startProgram a ws b).burst = b := rfl
@[simp] theorem State.startProgram_exb (a : Nat) (ws : List Word) (b : Bool) :
    (s.startProgram a ws b).exb = s.exb := rfl
@[simp] theorem State.startProgram_aBase (a : Nat) (ws : List Word) (b : Bool) :
    (s.startProgram a ws b).aBase = s.aBase := rfl
@[simp] theorem State.startProgram_aSrc (a : Nat) (ws : List Word) (b : Bool) :
    (s.startProgram a ws b).aSrc = s.aSrc := rfl
@[simp] theorem State.startProgram_aCount (a : Nat) (ws : List Word) (b : Bool) :
    (s.startProgram a ws b).aCount = s.aCount := rfl
@[simp] theorem State.startProgram_aIdx (a : Nat) (ws : List Word) (b : Bool) :
    (s.startProgram a ws b).aIdx = s.aIdx := rfl
@[simp] theorem State.startProgram_sref (a : Nat) (ws : List Word) (b : Bool) :
    (s.startProgram a ws b).sref = setLanes s.sref ws := rfl
@[simp] theorem State.startProgram_wiss (a : Nat) (ws : List Word) (b : Bool) :
    (s.startProgram a ws b).wiss = setLanes s.wiss ws := rfl
@[simp] theorem State.startProgram_preEn (a : Nat) (ws : List Word) (b : Bool) :
    (s.startProgram a ws b).preEn = true := rfl
@[simp] theorem State.startProgram_postEn (a : Nat) (ws : List Word) (b : Bool) :
    (s.startProgram a ws b).postEn = true := rfl
@[simp] theorem State.startProgram_mfDone (a : Nat) (ws : List Word) (b : Bool) :
    (s.startProgram a ws b).mfDone = s.mfDone := rfl
@[simp] theorem State.startProgram_mfPre (a : Nat) (ws : List Word) (b : Bool) :
    (s.startProgram a ws b).mfPre = s.mfPre := rfl
@[simp] theorem State.startProgram_mfRegv (a : Nat) (ws : List Word) (b : Bool) :
    (s.startProgram a ws b).mfRegv = s.mfRegv := rfl
@[simp] theorem State.startProgram_lkBank (a : Nat) (ws : List Word) (b : Bool) :
    (s.startProgram a ws b).lkBank = bankOf s.params a := rfl
@[simp] theorem State.startProgram_lkMask (a : Nat) (ws : List Word) (b : Bool) :
    (s.startProgram a ws b).lkMask = lockMask s.params a (a + 4 * ws.length - 1) := rfl
@[simp] theorem State.startProgram_lkSave (a : Nat) (ws : List Word) (b : Bool) :
    (s.startProgram a ws b).lkSave = s.weprot (bankOf s.params a) &&& lockMask s.params a (a + 4 * ws.length - 1) := rfl
@[simp] theorem State.startProgram_lkHeld (a : Nat) (ws : List Word) (b : Bool) :
    (s.startProgram a ws b).lkHeld = true := rfl
@[simp] theorem State.startProgram_mpend (a : Nat) (ws : List Word) (b : Bool) :
    (s.startProgram a ws b).mpend = s.mpend := rfl
@[simp] theorem State.startProgram_flash (a : Nat) (ws : List Word) (b : Bool) :
    (s.startProgram a ws b).flash = s.flash := rfl
@[simp] theorem State.startProgram_sysmem (a : Nat) (ws : List Word) (b : Bool) :
    (s.startProgram a ws b).sysmem = s.sysmem := rfl
@[simp] theorem State.startProgram_rdata (a : Nat) (ws : List Word) (b : Bool) :
    (s.startProgram a ws b).rdata = s.rdata := rfl
@[simp] theorem State.startProgram_host (a : Nat) (ws : List Word) (b : Bool) :
    (s.startProgram a ws b).host = s.host := rfl
@[simp] theorem State.startProgram_sched (a : Nat) (ws : List Word) (b : Bool) :
    (s.startProgram a ws b).sched = s.sched := rfl
@[simp] theorem State.startProgram_tape (a : Nat) (ws : List Word) (b : Bool) :
    (s.startProgram a ws b).tape = s.tape := rfl
@[simp] theorem State.startProgram_drawn (a : Nat) (ws : List Word) (b : Bool) :
    (s.startProgram a ws b).drawn = s.drawn := rfl

/-! ### State.issue -/

@[simp] theorem State.issue_params :
    s.issue.params = s.params := rfl
@[simp] theorem State.issue_addr :
    s.issue.addr = s.addr := rfl
@[simp] theorem State.issue_data :
    s.issue.data = s.data := rfl
@[simp] theorem State.issue_count :
    s.issue.count = s.count := rfl
@[simp] theorem State.issue_src :
    s.issue.src = s.src := rfl
@[simp] theorem State.issue_clkmhz :
    s.issue.clkmhz = s.clkmhz := rfl
@[simp] theorem State.issue_result :
    s.issue.result = s.result := rfl
@[simp] theorem State.issue_errkind :
    s.issue.errkind = s.errkind := rfl
@[simp] theorem State.issue_lastop :
    s.issue.lastop = s.lastop := rfl
@[simp] theorem State.issue_written :
    s.issue.written = s.written := rfl
@[simp] theorem State.issue_pcnt :
    s.issue.pcnt = s.pcnt + 1 := rfl
@[simp] theorem State.issue_weprot0 :
    s.issue.weprot0 = s.weprot0 := rfl
@[simp] theorem State.issue_weprot1 :
    s.issue.weprot1 = s.weprot1 := rfl
@[simp] theorem State.issue_phase :
    s.issue.phase = .wait := rfl
@[simp] theorem State.issue_op :
    s.issue.op = s.op := rfl
@[simp] theorem State.issue_ta :
    s.issue.ta = s.ta := rfl
@[simp] theorem State.issue_n :
    s.issue.n = s.n := rfl
@[simp] theorem State.issue_burst :
    s.issue.burst = s.burst := rfl
@[simp] theorem State.issue_exb :
    s.issue.exb = s.exb := rfl
@[simp] theorem State.issue_aBase :
    s.issue.aBase = s.aBase := rfl
@[simp] theorem State.issue_aSrc :
    s.issue.aSrc = s.aSrc := rfl
@[simp] theorem State.issue_aCount :
    s.issue.aCount = s.aCount := rfl
@[simp] theorem State.issue_aIdx :
    s.issue.aIdx = s.aIdx := rfl
@[simp] theorem State.issue_sref :
    s.issue.sref = s.sref := rfl
@[simp] theorem State.issue_wiss :
    s.issue.wiss = s.wiss := rfl
@[simp] theorem State.issue_preEn :
    s.issue.preEn = s.preEn := rfl
@[simp] theorem State.issue_postEn :
    s.issue.postEn = s.postEn := rfl
@[simp] theorem State.issue_mfDone :
    s.issue.mfDone = false := rfl
@[simp] theorem State.issue_mfPre :
    s.issue.mfPre = false := rfl
@[simp] theorem State.issue_mfRegv :
    s.issue.mfRegv = false := rfl
@[simp] theorem State.issue_lkBank :
    s.issue.lkBank = s.lkBank := rfl
@[simp] theorem State.issue_lkMask :
    s.issue.lkMask = s.lkMask := rfl
@[simp] theorem State.issue_lkSave :
    s.issue.lkSave = s.lkSave := rfl
@[simp] theorem State.issue_lkHeld :
    s.issue.lkHeld = s.lkHeld := rfl
@[simp] theorem State.issue_mpend :
    s.issue.mpend = some s.request := rfl
@[simp] theorem State.issue_flash :
    s.issue.flash = s.flash := rfl
@[simp] theorem State.issue_sysmem :
    s.issue.sysmem = s.sysmem := rfl
@[simp] theorem State.issue_rdata :
    s.issue.rdata = s.rdata := rfl
@[simp] theorem State.issue_host :
    s.issue.host = s.host := rfl
@[simp] theorem State.issue_sched :
    s.issue.sched = s.sched := rfl
@[simp] theorem State.issue_tape :
    s.issue.tape = s.tape := rfl
@[simp] theorem State.issue_drawn :
    s.issue.drawn = s.drawn := rfl

/-! ### State.drawNext -/

@[simp] theorem State.drawNext_params :
    s.drawNext.params = s.params := rfl
@[simp] theorem State.drawNext_addr :
    s.drawNext.addr = s.addr := rfl
@[simp] theorem State.drawNext_data :
    s.drawNext.data = s.data := rfl
@[simp] theorem State.drawNext_count :
    s.drawNext.count = s.count := rfl
@[simp] theorem State.drawNext_src :
    s.drawNext.src = s.src := rfl
@[simp] theorem State.drawNext_clkmhz :
    s.drawNext.clkmhz = s.clkmhz := rfl
@[simp] theorem State.drawNext_result :
    s.drawNext.result = s.result := rfl
@[simp] theorem State.drawNext_errkind :
    s.drawNext.errkind = s.errkind := rfl
@[simp] theorem State.drawNext_lastop :
    s.drawNext.lastop = s.lastop := rfl
@[simp] theorem State.drawNext_written :
    s.drawNext.written = s.written := rfl
@[simp] theorem State.drawNext_pcnt :
    s.drawNext.pcnt = s.pcnt := rfl
@[simp] theorem State.drawNext_weprot0 :
    s.drawNext.weprot0 = s.weprot0 := rfl
@[simp] theorem State.drawNext_weprot1 :
    s.drawNext.weprot1 = s.weprot1 := rfl
@[simp] theorem State.drawNext_phase :
    s.drawNext.phase = s.phase := rfl
@[simp] theorem State.drawNext_op :
    s.drawNext.op = s.op := rfl
@[simp] theorem State.drawNext_ta :
    s.drawNext.ta = s.ta := rfl
@[simp] theorem State.drawNext_n :
    s.drawNext.n = s.n := rfl
@[simp] theorem State.drawNext_burst :
    s.drawNext.burst = s.burst := rfl
@[simp] theorem State.drawNext_exb :
    s.drawNext.exb = s.exb := rfl
@[simp] theorem State.drawNext_aBase :
    s.drawNext.aBase = s.aBase := rfl
@[simp] theorem State.drawNext_aSrc :
    s.drawNext.aSrc = s.aSrc := rfl
@[simp] theorem State.drawNext_aCount :
    s.drawNext.aCount = s.aCount := rfl
@[simp] theorem State.drawNext_aIdx :
    s.drawNext.aIdx = s.aIdx := rfl
@[simp] theorem State.drawNext_sref :
    s.drawNext.sref = s.sref := rfl
@[simp] theorem State.drawNext_wiss :
    s.drawNext.wiss = s.wiss := rfl
@[simp] theorem State.drawNext_preEn :
    s.drawNext.preEn = s.preEn := rfl
@[simp] theorem State.drawNext_postEn :
    s.drawNext.postEn = s.postEn := rfl
@[simp] theorem State.drawNext_mfDone :
    s.drawNext.mfDone = s.mfDone := rfl
@[simp] theorem State.drawNext_mfPre :
    s.drawNext.mfPre = s.mfPre := rfl
@[simp] theorem State.drawNext_mfRegv :
    s.drawNext.mfRegv = s.mfRegv := rfl
@[simp] theorem State.drawNext_lkBank :
    s.drawNext.lkBank = s.lkBank := rfl
@[simp] theorem State.drawNext_lkMask :
    s.drawNext.lkMask = s.lkMask := rfl
@[simp] theorem State.drawNext_lkSave :
    s.drawNext.lkSave = s.lkSave := rfl
@[simp] theorem State.drawNext_lkHeld :
    s.drawNext.lkHeld = s.lkHeld := rfl
@[simp] theorem State.drawNext_mpend :
    s.drawNext.mpend = s.mpend := rfl
@[simp] theorem State.drawNext_flash :
    s.drawNext.flash = s.flash := rfl
@[simp] theorem State.drawNext_sysmem :
    s.drawNext.sysmem = s.sysmem := rfl
@[simp] theorem State.drawNext_rdata :
    s.drawNext.rdata = s.rdata := rfl
@[simp] theorem State.drawNext_host :
    s.drawNext.host = s.host := rfl
@[simp] theorem State.drawNext_sched :
    s.drawNext.sched = s.sched := rfl
@[simp] theorem State.drawNext_tape :
    s.drawNext.tape = s.tape.tail := rfl
@[simp] theorem State.drawNext_drawn :
    s.drawNext.drawn = s.drawn + 1 := rfl

/-! ### State.completed -/

@[simp] theorem State.completed_params :
    s.completed.params = s.params := rfl
@[simp] theorem State.completed_addr :
    s.completed.addr = s.addr := rfl
@[simp] theorem State.completed_data :
    s.completed.data = s.data := rfl
@[simp] theorem State.completed_count :
    s.completed.count = s.count := rfl
@[simp] theorem State.completed_src :
    s.completed.src = s.src := rfl
@[simp] theorem State.completed_clkmhz :
    s.completed.clkmhz = s.clkmhz := rfl
@[simp] theorem State.completed_result :
    s.completed.result = s.result := rfl
@[simp] theorem State.completed_errkind :
    s.completed.errkind = s.errkind := rfl
@[simp] theorem State.completed_lastop :
    s.completed.lastop = s.lastop := rfl
@[simp] theorem State.completed_written :
    s.completed.written = s.written := rfl
@[simp] theorem State.completed_pcnt :
    s.completed.pcnt = s.pcnt := rfl
@[simp] theorem State.completed_weprot0 :
    s.completed.weprot0 = s.weprot0 := rfl
@[simp] theorem State.completed_weprot1 :
    s.completed.weprot1 = s.weprot1 := rfl
@[simp] theorem State.completed_phase :
    s.completed.phase = s.phase := rfl
@[simp] theorem State.completed_op :
    s.completed.op = s.op := rfl
@[simp] theorem State.completed_ta :
    s.completed.ta = s.ta := rfl
@[simp] theorem State.completed_n :
    s.completed.n = s.n := rfl
@[simp] theorem State.completed_burst :
    s.completed.burst = s.burst := rfl
@[simp] theorem State.completed_exb :
    s.completed.exb = s.exb := rfl
@[simp] theorem State.completed_aBase :
    s.completed.aBase = s.aBase := rfl
@[simp] theorem State.completed_aSrc :
    s.completed.aSrc = s.aSrc := rfl
@[simp] theorem State.completed_aCount :
    s.completed.aCount = s.aCount := rfl
@[simp] theorem State.completed_aIdx :
    s.completed.aIdx = s.aIdx := rfl
@[simp] theorem State.completed_sref :
    s.completed.sref = s.sref := rfl
@[simp] theorem State.completed_wiss :
    s.completed.wiss = s.wiss := rfl
@[simp] theorem State.completed_preEn :
    s.completed.preEn = s.preEn := rfl
@[simp] theorem State.completed_postEn :
    s.completed.postEn = s.postEn := rfl
@[simp] theorem State.completed_mfDone :
    s.completed.mfDone = true := rfl
@[simp] theorem State.completed_mfPre :
    s.completed.mfPre = s.mfPre := rfl
@[simp] theorem State.completed_mfRegv :
    s.completed.mfRegv = s.mfRegv := rfl
@[simp] theorem State.completed_lkBank :
    s.completed.lkBank = s.lkBank := rfl
@[simp] theorem State.completed_lkMask :
    s.completed.lkMask = s.lkMask := rfl
@[simp] theorem State.completed_lkSave :
    s.completed.lkSave = s.lkSave := rfl
@[simp] theorem State.completed_lkHeld :
    s.completed.lkHeld = s.lkHeld := rfl
@[simp] theorem State.completed_mpend :
    s.completed.mpend = none := rfl
@[simp] theorem State.completed_flash :
    s.completed.flash = s.flash := rfl
@[simp] theorem State.completed_sysmem :
    s.completed.sysmem = s.sysmem := rfl
@[simp] theorem State.completed_rdata :
    s.completed.rdata = s.rdata := rfl
@[simp] theorem State.completed_host :
    s.completed.host = s.host := rfl
@[simp] theorem State.completed_sched :
    s.completed.sched = s.sched := rfl
@[simp] theorem State.completed_tape :
    s.completed.tape = s.tape := rfl
@[simp] theorem State.completed_drawn :
    s.completed.drawn = s.drawn := rfl

/-! ### State.restart -/

@[simp] theorem State.restart_params :
    s.restart.params = s.params := rfl
@[simp] theorem State.restart_addr :
    s.restart.addr = State.reset.addr := rfl
@[simp] theorem State.restart_data :
    s.restart.data = State.reset.data := rfl
@[simp] theorem State.restart_count :
    s.restart.count = State.reset.count := rfl
@[simp] theorem State.restart_src :
    s.restart.src = State.reset.src := rfl
@[simp] theorem State.restart_clkmhz :
    s.restart.clkmhz = State.reset.clkmhz := rfl
@[simp] theorem State.restart_result :
    s.restart.result = State.reset.result := rfl
@[simp] theorem State.restart_errkind :
    s.restart.errkind = State.reset.errkind := rfl
@[simp] theorem State.restart_lastop :
    s.restart.lastop = State.reset.lastop := rfl
@[simp] theorem State.restart_written :
    s.restart.written = State.reset.written := rfl
@[simp] theorem State.restart_pcnt :
    s.restart.pcnt = State.reset.pcnt := rfl
@[simp] theorem State.restart_weprot0 :
    s.restart.weprot0 = State.reset.weprot0 := rfl
@[simp] theorem State.restart_weprot1 :
    s.restart.weprot1 = State.reset.weprot1 := rfl
@[simp] theorem State.restart_phase :
    s.restart.phase = State.reset.phase := rfl
@[simp] theorem State.restart_op :
    s.restart.op = State.reset.op := rfl
@[simp] theorem State.restart_ta :
    s.restart.ta = State.reset.ta := rfl
@[simp] theorem State.restart_n :
    s.restart.n = State.reset.n := rfl
@[simp] theorem State.restart_burst :
    s.restart.burst = State.reset.burst := rfl
@[simp] theorem State.restart_exb :
    s.restart.exb = State.reset.exb := rfl
@[simp] theorem State.restart_aBase :
    s.restart.aBase = State.reset.aBase := rfl
@[simp] theorem State.restart_aSrc :
    s.restart.aSrc = State.reset.aSrc := rfl
@[simp] theorem State.restart_aCount :
    s.restart.aCount = State.reset.aCount := rfl
@[simp] theorem State.restart_aIdx :
    s.restart.aIdx = State.reset.aIdx := rfl
@[simp] theorem State.restart_sref :
    s.restart.sref = State.reset.sref := rfl
@[simp] theorem State.restart_wiss :
    s.restart.wiss = State.reset.wiss := rfl
@[simp] theorem State.restart_preEn :
    s.restart.preEn = State.reset.preEn := rfl
@[simp] theorem State.restart_postEn :
    s.restart.postEn = State.reset.postEn := rfl
@[simp] theorem State.restart_mfDone :
    s.restart.mfDone = State.reset.mfDone := rfl
@[simp] theorem State.restart_mfPre :
    s.restart.mfPre = State.reset.mfPre := rfl
@[simp] theorem State.restart_mfRegv :
    s.restart.mfRegv = State.reset.mfRegv := rfl
@[simp] theorem State.restart_lkBank :
    s.restart.lkBank = State.reset.lkBank := rfl
@[simp] theorem State.restart_lkMask :
    s.restart.lkMask = State.reset.lkMask := rfl
@[simp] theorem State.restart_lkSave :
    s.restart.lkSave = State.reset.lkSave := rfl
@[simp] theorem State.restart_lkHeld :
    s.restart.lkHeld = State.reset.lkHeld := rfl
@[simp] theorem State.restart_mpend :
    s.restart.mpend = State.reset.mpend := rfl
@[simp] theorem State.restart_flash :
    s.restart.flash = s.flash := rfl
@[simp] theorem State.restart_sysmem :
    s.restart.sysmem = s.sysmem := rfl
@[simp] theorem State.restart_rdata :
    s.restart.rdata = s.rdata := rfl
@[simp] theorem State.restart_host :
    s.restart.host = s.host := rfl
@[simp] theorem State.restart_sched :
    s.restart.sched = s.sched := rfl
@[simp] theorem State.restart_tape :
    s.restart.tape = s.tape := rfl
@[simp] theorem State.restart_drawn :
    s.restart.drawn = s.drawn := rfl

/-! ### State.restoreIfHeld -/

@[simp] theorem State.restoreIfHeld_params :
    s.restoreIfHeld.params = s.params := (apply_ite State.params (s.lkHeld = true) s.restore s).trans (ite_self s.params)
@[simp] theorem State.restoreIfHeld_addr :
    s.restoreIfHeld.addr = s.addr := (apply_ite State.addr (s.lkHeld = true) s.restore s).trans (ite_self s.addr)
@[simp] theorem State.restoreIfHeld_data :
    s.restoreIfHeld.data = s.data := (apply_ite State.data (s.lkHeld = true) s.restore s).trans (ite_self s.data)
@[simp] theorem State.restoreIfHeld_count :
    s.restoreIfHeld.count = s.count := (apply_ite State.count (s.lkHeld = true) s.restore s).trans (ite_self s.count)
@[simp] theorem State.restoreIfHeld_src :
    s.restoreIfHeld.src = s.src := (apply_ite State.src (s.lkHeld = true) s.restore s).trans (ite_self s.src)
@[simp] theorem State.restoreIfHeld_clkmhz :
    s.restoreIfHeld.clkmhz = s.clkmhz := (apply_ite State.clkmhz (s.lkHeld = true) s.restore s).trans (ite_self s.clkmhz)
@[simp] theorem State.restoreIfHeld_result :
    s.restoreIfHeld.result = s.result := (apply_ite State.result (s.lkHeld = true) s.restore s).trans (ite_self s.result)
@[simp] theorem State.restoreIfHeld_errkind :
    s.restoreIfHeld.errkind = s.errkind := (apply_ite State.errkind (s.lkHeld = true) s.restore s).trans (ite_self s.errkind)
@[simp] theorem State.restoreIfHeld_lastop :
    s.restoreIfHeld.lastop = s.lastop := (apply_ite State.lastop (s.lkHeld = true) s.restore s).trans (ite_self s.lastop)
@[simp] theorem State.restoreIfHeld_written :
    s.restoreIfHeld.written = s.written := (apply_ite State.written (s.lkHeld = true) s.restore s).trans (ite_self s.written)
@[simp] theorem State.restoreIfHeld_pcnt :
    s.restoreIfHeld.pcnt = s.pcnt := (apply_ite State.pcnt (s.lkHeld = true) s.restore s).trans (ite_self s.pcnt)
@[simp] theorem State.restoreIfHeld_weprot0 :
    s.restoreIfHeld.weprot0 = if s.lkHeld then s.restore.weprot0 else s.weprot0 := (apply_ite State.weprot0 (s.lkHeld = true) s.restore s)
@[simp] theorem State.restoreIfHeld_weprot1 :
    s.restoreIfHeld.weprot1 = if s.lkHeld then s.restore.weprot1 else s.weprot1 := (apply_ite State.weprot1 (s.lkHeld = true) s.restore s)
@[simp] theorem State.restoreIfHeld_phase :
    s.restoreIfHeld.phase = s.phase := (apply_ite State.phase (s.lkHeld = true) s.restore s).trans (ite_self s.phase)
@[simp] theorem State.restoreIfHeld_op :
    s.restoreIfHeld.op = s.op := (apply_ite State.op (s.lkHeld = true) s.restore s).trans (ite_self s.op)
@[simp] theorem State.restoreIfHeld_ta :
    s.restoreIfHeld.ta = s.ta := (apply_ite State.ta (s.lkHeld = true) s.restore s).trans (ite_self s.ta)
@[simp] theorem State.restoreIfHeld_n :
    s.restoreIfHeld.n = s.n := (apply_ite State.n (s.lkHeld = true) s.restore s).trans (ite_self s.n)
@[simp] theorem State.restoreIfHeld_burst :
    s.restoreIfHeld.burst = s.burst := (apply_ite State.burst (s.lkHeld = true) s.restore s).trans (ite_self s.burst)
@[simp] theorem State.restoreIfHeld_exb :
    s.restoreIfHeld.exb = s.exb := (apply_ite State.exb (s.lkHeld = true) s.restore s).trans (ite_self s.exb)
@[simp] theorem State.restoreIfHeld_aBase :
    s.restoreIfHeld.aBase = s.aBase := (apply_ite State.aBase (s.lkHeld = true) s.restore s).trans (ite_self s.aBase)
@[simp] theorem State.restoreIfHeld_aSrc :
    s.restoreIfHeld.aSrc = s.aSrc := (apply_ite State.aSrc (s.lkHeld = true) s.restore s).trans (ite_self s.aSrc)
@[simp] theorem State.restoreIfHeld_aCount :
    s.restoreIfHeld.aCount = s.aCount := (apply_ite State.aCount (s.lkHeld = true) s.restore s).trans (ite_self s.aCount)
@[simp] theorem State.restoreIfHeld_aIdx :
    s.restoreIfHeld.aIdx = s.aIdx := (apply_ite State.aIdx (s.lkHeld = true) s.restore s).trans (ite_self s.aIdx)
@[simp] theorem State.restoreIfHeld_sref :
    s.restoreIfHeld.sref = s.sref := (apply_ite State.sref (s.lkHeld = true) s.restore s).trans (ite_self s.sref)
@[simp] theorem State.restoreIfHeld_wiss :
    s.restoreIfHeld.wiss = s.wiss := (apply_ite State.wiss (s.lkHeld = true) s.restore s).trans (ite_self s.wiss)
@[simp] theorem State.restoreIfHeld_preEn :
    s.restoreIfHeld.preEn = s.preEn := (apply_ite State.preEn (s.lkHeld = true) s.restore s).trans (ite_self s.preEn)
@[simp] theorem State.restoreIfHeld_postEn :
    s.restoreIfHeld.postEn = s.postEn := (apply_ite State.postEn (s.lkHeld = true) s.restore s).trans (ite_self s.postEn)
@[simp] theorem State.restoreIfHeld_mfDone :
    s.restoreIfHeld.mfDone = s.mfDone := (apply_ite State.mfDone (s.lkHeld = true) s.restore s).trans (ite_self s.mfDone)
@[simp] theorem State.restoreIfHeld_mfPre :
    s.restoreIfHeld.mfPre = s.mfPre := (apply_ite State.mfPre (s.lkHeld = true) s.restore s).trans (ite_self s.mfPre)
@[simp] theorem State.restoreIfHeld_mfRegv :
    s.restoreIfHeld.mfRegv = s.mfRegv := (apply_ite State.mfRegv (s.lkHeld = true) s.restore s).trans (ite_self s.mfRegv)
@[simp] theorem State.restoreIfHeld_lkBank :
    s.restoreIfHeld.lkBank = s.lkBank := (apply_ite State.lkBank (s.lkHeld = true) s.restore s).trans (ite_self s.lkBank)
@[simp] theorem State.restoreIfHeld_lkMask :
    s.restoreIfHeld.lkMask = s.lkMask := (apply_ite State.lkMask (s.lkHeld = true) s.restore s).trans (ite_self s.lkMask)
@[simp] theorem State.restoreIfHeld_lkSave :
    s.restoreIfHeld.lkSave = s.lkSave := (apply_ite State.lkSave (s.lkHeld = true) s.restore s).trans (ite_self s.lkSave)
@[simp] theorem State.restoreIfHeld_lkHeld :
    s.restoreIfHeld.lkHeld = false := by
  cases h : s.lkHeld <;> simp [State.restoreIfHeld, h]
@[simp] theorem State.restoreIfHeld_mpend :
    s.restoreIfHeld.mpend = s.mpend := (apply_ite State.mpend (s.lkHeld = true) s.restore s).trans (ite_self s.mpend)
@[simp] theorem State.restoreIfHeld_flash :
    s.restoreIfHeld.flash = s.flash := (apply_ite State.flash (s.lkHeld = true) s.restore s).trans (ite_self s.flash)
@[simp] theorem State.restoreIfHeld_sysmem :
    s.restoreIfHeld.sysmem = s.sysmem := (apply_ite State.sysmem (s.lkHeld = true) s.restore s).trans (ite_self s.sysmem)
@[simp] theorem State.restoreIfHeld_rdata :
    s.restoreIfHeld.rdata = s.rdata := (apply_ite State.rdata (s.lkHeld = true) s.restore s).trans (ite_self s.rdata)
@[simp] theorem State.restoreIfHeld_host :
    s.restoreIfHeld.host = s.host := (apply_ite State.host (s.lkHeld = true) s.restore s).trans (ite_self s.host)
@[simp] theorem State.restoreIfHeld_sched :
    s.restoreIfHeld.sched = s.sched := (apply_ite State.sched (s.lkHeld = true) s.restore s).trans (ite_self s.sched)
@[simp] theorem State.restoreIfHeld_tape :
    s.restoreIfHeld.tape = s.tape := (apply_ite State.tape (s.lkHeld = true) s.restore s).trans (ite_self s.tape)
@[simp] theorem State.restoreIfHeld_drawn :
    s.restoreIfHeld.drawn = s.drawn := (apply_ite State.drawn (s.lkHeld = true) s.restore s).trans (ite_self s.drawn)

/-! ### State.finish -/

@[simp] theorem State.finish_params (r : BitVec 1) (k : ErrKind) (w : Word) :
    (s.finish r k w).params = s.params := s.restoreIfHeld_params
@[simp] theorem State.finish_addr (r : BitVec 1) (k : ErrKind) (w : Word) :
    (s.finish r k w).addr = s.addr := s.restoreIfHeld_addr
@[simp] theorem State.finish_data (r : BitVec 1) (k : ErrKind) (w : Word) :
    (s.finish r k w).data = s.data := s.restoreIfHeld_data
@[simp] theorem State.finish_count (r : BitVec 1) (k : ErrKind) (w : Word) :
    (s.finish r k w).count = s.count := s.restoreIfHeld_count
@[simp] theorem State.finish_src (r : BitVec 1) (k : ErrKind) (w : Word) :
    (s.finish r k w).src = s.src := s.restoreIfHeld_src
@[simp] theorem State.finish_clkmhz (r : BitVec 1) (k : ErrKind) (w : Word) :
    (s.finish r k w).clkmhz = s.clkmhz := s.restoreIfHeld_clkmhz
@[simp] theorem State.finish_result (r : BitVec 1) (k : ErrKind) (w : Word) :
    (s.finish r k w).result = r := rfl
@[simp] theorem State.finish_errkind (r : BitVec 1) (k : ErrKind) (w : Word) :
    (s.finish r k w).errkind = k.code := rfl
@[simp] theorem State.finish_lastop (r : BitVec 1) (k : ErrKind) (w : Word) :
    (s.finish r k w).lastop = s.lastop := s.restoreIfHeld_lastop
@[simp] theorem State.finish_written (r : BitVec 1) (k : ErrKind) (w : Word) :
    (s.finish r k w).written = w := rfl
@[simp] theorem State.finish_pcnt (r : BitVec 1) (k : ErrKind) (w : Word) :
    (s.finish r k w).pcnt = s.pcnt := s.restoreIfHeld_pcnt
@[simp] theorem State.finish_weprot0 (r : BitVec 1) (k : ErrKind) (w : Word) :
    (s.finish r k w).weprot0 = s.restoreIfHeld.weprot0 := rfl
@[simp] theorem State.finish_weprot1 (r : BitVec 1) (k : ErrKind) (w : Word) :
    (s.finish r k w).weprot1 = s.restoreIfHeld.weprot1 := rfl
@[simp] theorem State.finish_phase (r : BitVec 1) (k : ErrKind) (w : Word) :
    (s.finish r k w).phase = .idle := rfl
@[simp] theorem State.finish_op (r : BitVec 1) (k : ErrKind) (w : Word) :
    (s.finish r k w).op = s.op := s.restoreIfHeld_op
@[simp] theorem State.finish_ta (r : BitVec 1) (k : ErrKind) (w : Word) :
    (s.finish r k w).ta = s.ta := s.restoreIfHeld_ta
@[simp] theorem State.finish_n (r : BitVec 1) (k : ErrKind) (w : Word) :
    (s.finish r k w).n = s.n := s.restoreIfHeld_n
@[simp] theorem State.finish_burst (r : BitVec 1) (k : ErrKind) (w : Word) :
    (s.finish r k w).burst = s.burst := s.restoreIfHeld_burst
@[simp] theorem State.finish_exb (r : BitVec 1) (k : ErrKind) (w : Word) :
    (s.finish r k w).exb = s.exb := s.restoreIfHeld_exb
@[simp] theorem State.finish_aBase (r : BitVec 1) (k : ErrKind) (w : Word) :
    (s.finish r k w).aBase = s.aBase := s.restoreIfHeld_aBase
@[simp] theorem State.finish_aSrc (r : BitVec 1) (k : ErrKind) (w : Word) :
    (s.finish r k w).aSrc = s.aSrc := s.restoreIfHeld_aSrc
@[simp] theorem State.finish_aCount (r : BitVec 1) (k : ErrKind) (w : Word) :
    (s.finish r k w).aCount = s.aCount := s.restoreIfHeld_aCount
@[simp] theorem State.finish_aIdx (r : BitVec 1) (k : ErrKind) (w : Word) :
    (s.finish r k w).aIdx = s.aIdx := s.restoreIfHeld_aIdx
@[simp] theorem State.finish_sref (r : BitVec 1) (k : ErrKind) (w : Word) :
    (s.finish r k w).sref = s.sref := s.restoreIfHeld_sref
@[simp] theorem State.finish_wiss (r : BitVec 1) (k : ErrKind) (w : Word) :
    (s.finish r k w).wiss = s.wiss := s.restoreIfHeld_wiss
@[simp] theorem State.finish_preEn (r : BitVec 1) (k : ErrKind) (w : Word) :
    (s.finish r k w).preEn = s.preEn := s.restoreIfHeld_preEn
@[simp] theorem State.finish_postEn (r : BitVec 1) (k : ErrKind) (w : Word) :
    (s.finish r k w).postEn = s.postEn := s.restoreIfHeld_postEn
@[simp] theorem State.finish_mfDone (r : BitVec 1) (k : ErrKind) (w : Word) :
    (s.finish r k w).mfDone = s.mfDone := s.restoreIfHeld_mfDone
@[simp] theorem State.finish_mfPre (r : BitVec 1) (k : ErrKind) (w : Word) :
    (s.finish r k w).mfPre = s.mfPre := s.restoreIfHeld_mfPre
@[simp] theorem State.finish_mfRegv (r : BitVec 1) (k : ErrKind) (w : Word) :
    (s.finish r k w).mfRegv = s.mfRegv := s.restoreIfHeld_mfRegv
@[simp] theorem State.finish_lkBank (r : BitVec 1) (k : ErrKind) (w : Word) :
    (s.finish r k w).lkBank = s.lkBank := s.restoreIfHeld_lkBank
@[simp] theorem State.finish_lkMask (r : BitVec 1) (k : ErrKind) (w : Word) :
    (s.finish r k w).lkMask = s.lkMask := s.restoreIfHeld_lkMask
@[simp] theorem State.finish_lkSave (r : BitVec 1) (k : ErrKind) (w : Word) :
    (s.finish r k w).lkSave = s.lkSave := s.restoreIfHeld_lkSave
@[simp] theorem State.finish_lkHeld (r : BitVec 1) (k : ErrKind) (w : Word) :
    (s.finish r k w).lkHeld = false := s.restoreIfHeld_lkHeld
@[simp] theorem State.finish_mpend (r : BitVec 1) (k : ErrKind) (w : Word) :
    (s.finish r k w).mpend = s.mpend := s.restoreIfHeld_mpend
@[simp] theorem State.finish_flash (r : BitVec 1) (k : ErrKind) (w : Word) :
    (s.finish r k w).flash = s.flash := s.restoreIfHeld_flash
@[simp] theorem State.finish_sysmem (r : BitVec 1) (k : ErrKind) (w : Word) :
    (s.finish r k w).sysmem = s.sysmem := s.restoreIfHeld_sysmem
@[simp] theorem State.finish_rdata (r : BitVec 1) (k : ErrKind) (w : Word) :
    (s.finish r k w).rdata = s.rdata := s.restoreIfHeld_rdata
@[simp] theorem State.finish_host (r : BitVec 1) (k : ErrKind) (w : Word) :
    (s.finish r k w).host = s.host := s.restoreIfHeld_host
@[simp] theorem State.finish_sched (r : BitVec 1) (k : ErrKind) (w : Word) :
    (s.finish r k w).sched = s.sched := s.restoreIfHeld_sched
@[simp] theorem State.finish_tape (r : BitVec 1) (k : ErrKind) (w : Word) :
    (s.finish r k w).tape = s.tape := s.restoreIfHeld_tape
@[simp] theorem State.finish_drawn (r : BitVec 1) (k : ErrKind) (w : Word) :
    (s.finish r k w).drawn = s.drawn := s.restoreIfHeld_drawn

/-! ### State.finishBurst -/

@[simp] theorem State.finishBurst_params (r : BitVec 1) (k : ErrKind) (w : Word) :
    (s.finishBurst r k w).params = s.params := s.finish_params r k w
@[simp] theorem State.finishBurst_addr (r : BitVec 1) (k : ErrKind) (w : Word) :
    (s.finishBurst r k w).addr = s.addr := s.finish_addr r k w
@[simp] theorem State.finishBurst_data (r : BitVec 1) (k : ErrKind) (w : Word) :
    (s.finishBurst r k w).data = s.data := s.finish_data r k w
@[simp] theorem State.finishBurst_count (r : BitVec 1) (k : ErrKind) (w : Word) :
    (s.finishBurst r k w).count = s.count := s.finish_count r k w
@[simp] theorem State.finishBurst_src (r : BitVec 1) (k : ErrKind) (w : Word) :
    (s.finishBurst r k w).src = s.src := s.finish_src r k w
@[simp] theorem State.finishBurst_clkmhz (r : BitVec 1) (k : ErrKind) (w : Word) :
    (s.finishBurst r k w).clkmhz = s.clkmhz := s.finish_clkmhz r k w
@[simp] theorem State.finishBurst_result (r : BitVec 1) (k : ErrKind) (w : Word) :
    (s.finishBurst r k w).result = r := s.finish_result r k w
@[simp] theorem State.finishBurst_errkind (r : BitVec 1) (k : ErrKind) (w : Word) :
    (s.finishBurst r k w).errkind = k.code := s.finish_errkind r k w
@[simp] theorem State.finishBurst_lastop (r : BitVec 1) (k : ErrKind) (w : Word) :
    (s.finishBurst r k w).lastop = s.lastop := s.finish_lastop r k w
@[simp] theorem State.finishBurst_written (r : BitVec 1) (k : ErrKind) (w : Word) :
    (s.finishBurst r k w).written = w := s.finish_written r k w
@[simp] theorem State.finishBurst_pcnt (r : BitVec 1) (k : ErrKind) (w : Word) :
    (s.finishBurst r k w).pcnt = s.pcnt := s.finish_pcnt r k w
@[simp] theorem State.finishBurst_weprot0 (r : BitVec 1) (k : ErrKind) (w : Word) :
    (s.finishBurst r k w).weprot0 = s.restoreIfHeld.weprot0 := s.finish_weprot0 r k w
@[simp] theorem State.finishBurst_weprot1 (r : BitVec 1) (k : ErrKind) (w : Word) :
    (s.finishBurst r k w).weprot1 = s.restoreIfHeld.weprot1 := s.finish_weprot1 r k w
@[simp] theorem State.finishBurst_phase (r : BitVec 1) (k : ErrKind) (w : Word) :
    (s.finishBurst r k w).phase = .idle := s.finish_phase r k w
@[simp] theorem State.finishBurst_op (r : BitVec 1) (k : ErrKind) (w : Word) :
    (s.finishBurst r k w).op = s.op := s.finish_op r k w
@[simp] theorem State.finishBurst_ta (r : BitVec 1) (k : ErrKind) (w : Word) :
    (s.finishBurst r k w).ta = s.ta := s.finish_ta r k w
@[simp] theorem State.finishBurst_n (r : BitVec 1) (k : ErrKind) (w : Word) :
    (s.finishBurst r k w).n = s.n := s.finish_n r k w
@[simp] theorem State.finishBurst_burst (r : BitVec 1) (k : ErrKind) (w : Word) :
    (s.finishBurst r k w).burst = false := rfl
@[simp] theorem State.finishBurst_exb (r : BitVec 1) (k : ErrKind) (w : Word) :
    (s.finishBurst r k w).exb = s.exb := s.finish_exb r k w
@[simp] theorem State.finishBurst_aBase (r : BitVec 1) (k : ErrKind) (w : Word) :
    (s.finishBurst r k w).aBase = s.aBase := s.finish_aBase r k w
@[simp] theorem State.finishBurst_aSrc (r : BitVec 1) (k : ErrKind) (w : Word) :
    (s.finishBurst r k w).aSrc = s.aSrc := s.finish_aSrc r k w
@[simp] theorem State.finishBurst_aCount (r : BitVec 1) (k : ErrKind) (w : Word) :
    (s.finishBurst r k w).aCount = s.aCount := s.finish_aCount r k w
@[simp] theorem State.finishBurst_aIdx (r : BitVec 1) (k : ErrKind) (w : Word) :
    (s.finishBurst r k w).aIdx = s.aIdx := s.finish_aIdx r k w
@[simp] theorem State.finishBurst_sref (r : BitVec 1) (k : ErrKind) (w : Word) :
    (s.finishBurst r k w).sref = s.sref := s.finish_sref r k w
@[simp] theorem State.finishBurst_wiss (r : BitVec 1) (k : ErrKind) (w : Word) :
    (s.finishBurst r k w).wiss = s.wiss := s.finish_wiss r k w
@[simp] theorem State.finishBurst_preEn (r : BitVec 1) (k : ErrKind) (w : Word) :
    (s.finishBurst r k w).preEn = s.preEn := s.finish_preEn r k w
@[simp] theorem State.finishBurst_postEn (r : BitVec 1) (k : ErrKind) (w : Word) :
    (s.finishBurst r k w).postEn = s.postEn := s.finish_postEn r k w
@[simp] theorem State.finishBurst_mfDone (r : BitVec 1) (k : ErrKind) (w : Word) :
    (s.finishBurst r k w).mfDone = s.mfDone := s.finish_mfDone r k w
@[simp] theorem State.finishBurst_mfPre (r : BitVec 1) (k : ErrKind) (w : Word) :
    (s.finishBurst r k w).mfPre = s.mfPre := s.finish_mfPre r k w
@[simp] theorem State.finishBurst_mfRegv (r : BitVec 1) (k : ErrKind) (w : Word) :
    (s.finishBurst r k w).mfRegv = s.mfRegv := s.finish_mfRegv r k w
@[simp] theorem State.finishBurst_lkBank (r : BitVec 1) (k : ErrKind) (w : Word) :
    (s.finishBurst r k w).lkBank = s.lkBank := s.finish_lkBank r k w
@[simp] theorem State.finishBurst_lkMask (r : BitVec 1) (k : ErrKind) (w : Word) :
    (s.finishBurst r k w).lkMask = s.lkMask := s.finish_lkMask r k w
@[simp] theorem State.finishBurst_lkSave (r : BitVec 1) (k : ErrKind) (w : Word) :
    (s.finishBurst r k w).lkSave = s.lkSave := s.finish_lkSave r k w
@[simp] theorem State.finishBurst_lkHeld (r : BitVec 1) (k : ErrKind) (w : Word) :
    (s.finishBurst r k w).lkHeld = false := s.finish_lkHeld r k w
@[simp] theorem State.finishBurst_mpend (r : BitVec 1) (k : ErrKind) (w : Word) :
    (s.finishBurst r k w).mpend = s.mpend := s.finish_mpend r k w
@[simp] theorem State.finishBurst_flash (r : BitVec 1) (k : ErrKind) (w : Word) :
    (s.finishBurst r k w).flash = s.flash := s.finish_flash r k w
@[simp] theorem State.finishBurst_sysmem (r : BitVec 1) (k : ErrKind) (w : Word) :
    (s.finishBurst r k w).sysmem = s.sysmem := s.finish_sysmem r k w
@[simp] theorem State.finishBurst_rdata (r : BitVec 1) (k : ErrKind) (w : Word) :
    (s.finishBurst r k w).rdata = s.rdata := s.finish_rdata r k w
@[simp] theorem State.finishBurst_host (r : BitVec 1) (k : ErrKind) (w : Word) :
    (s.finishBurst r k w).host = s.host := s.finish_host r k w
@[simp] theorem State.finishBurst_sched (r : BitVec 1) (k : ErrKind) (w : Word) :
    (s.finishBurst r k w).sched = s.sched := s.finish_sched r k w
@[simp] theorem State.finishBurst_tape (r : BitVec 1) (k : ErrKind) (w : Word) :
    (s.finishBurst r k w).tape = s.tape := s.finish_tape r k w
@[simp] theorem State.finishBurst_drawn (r : BitVec 1) (k : ErrKind) (w : Word) :
    (s.finishBurst r k w).drawn = s.drawn := s.finish_drawn r k w

/-- The error entry is the completion procedure (R272). -/
@[simp] theorem State.fail_eq_finish (k : ErrKind) (w : Word) : s.fail k w = s.finish 1 k w := rfl

/-- Success is the completion procedure (R160). -/
@[simp] theorem State.succeed_eq_finish (w : Word) : s.succeed w = s.finish 0 .none w := rfl

end Sys2Proof.Machine
end

