-- ==== Sys2Proof/Laws/Ops.lean ====
section
/-! SUPPORT. For each shared operation and each command, everything it can do, said once. -/

namespace Sys2Proof.Machine

/-! ### The gate of every command -/

theorem whenIdle_of_idle {c : Word} {s : State} {k : State → Result} (h : s.phase = .idle) : whenIdle c s k = k s := by
  simp [whenIdle, h]

theorem whenIdle_of_busy {c : Word} {s : State} {k : State → Result} (h : s.phase ≠ .idle) :
    whenIdle c s k = .fault (.busyWrite 0 c) := by
  simp [whenIdle, h]

/-- A command that answers a next state was stored while idle. -/
theorem whenIdle_next {c : Word} {s t : State} {k : State → Result} (h : whenIdle c s k = .next t) :
    s.phase = .idle ∧ k s = .next t := by
  by_cases hp : s.phase = .idle
  · exact ⟨hp, by rwa [whenIdle_of_idle hp] at h⟩
  · rw [whenIdle_of_busy hp] at h; cases h

/-- A mutating command that answers a next state: an illegal declaration, or its own acceptance part. -/
theorem acceptMutating_next {c : Word} {o : Op} {e : BitVec 2} {part : State → Result} {s t : State}
    (h : acceptMutating c o e part s = .next t) :
    s.phase = .idle ∧ ((e = 0 ∧ t = s.illegal c) ∨ (e ≠ 0 ∧ part (s.accept o e) = .next t)) := by
  obtain ⟨hp, h⟩ := whenIdle_next h
  refine ⟨hp, ?_⟩
  by_cases he : e = 0
  · rw [if_pos he] at h; cases h; exact .inl ⟨he, rfl⟩
  · rw [if_neg he] at h; exact .inr ⟨he, h⟩

/-- A mutating command with a declared bank, stored while idle, runs its own acceptance part. -/
theorem acceptMutating_of_idle {c : Word} {o : Op} {e : BitVec 2} {part : State → Result} {s : State}
    (hp : s.phase = .idle) (he : e ≠ 0) : acceptMutating c o e part s = part (s.accept o e) := by
  rw [acceptMutating, whenIdle_of_idle hp, if_neg he]

/-! ### Locks -/

theorem State.restoreIfHeld_of_not_held {s : State} (h : s.lkHeld = false) : s.restoreIfHeld = s := by
  simp [State.restoreIfHeld, h]

theorem State.restoreIfHeld_of_held {s : State} (h : s.lkHeld = true) : s.restoreIfHeld = s.restore := by
  simp [State.restoreIfHeld, h]

/-- R162, R163: a restore undoes the unlock before it, in both lock registers and in every bit. -/
theorem State.weprot_restore_unlock (s : State) (lo hi : Nat) (b : Bank) :
    ((s.unlock lo hi).restore).weprot b = s.weprot b := by
  have key : ∀ w m : Word, (w &&& ~~~m) &&& ~~~m ||| w &&& m = w := by
    intro w m
    ext i hi
    cases hw : w[i] <;> cases hm : m[i] <;> simp [hw, hm]
  cases b <;> cases hb : bankOf s.params lo <;> simp [State.weprot, hb, key]

/-- R163: with both lock registers equal, so are their restored values. -/
theorem State.restored_lock {s : State} (b : Bank) :
    s.restore.weprot b =
      if s.lkBank = b then s.weprot b &&& ~~~s.lkMask ||| s.lkSave else s.weprot b := by
  cases b <;> cases hb : s.lkBank <;> simp [State.weprot, hb]

/-! ### Completion -/

/-- R160: `finish` without an outstanding save writes the report and goes idle. -/
theorem State.finish_of_not_held {s : State} (h : s.lkHeld = false) (r : BitVec 1) (k : ErrKind) (w : Word) :
    s.finish r k w = { s with result := r, errkind := k.code, written := w, phase := .idle } := by
  rw [State.finish, State.restoreIfHeld_of_not_held h]

/-- R160: `finish` with an outstanding save restores it first. -/
theorem State.finish_of_held {s : State} (h : s.lkHeld = true) (r : BitVec 1) (k : ErrKind) (w : Word) :
    s.finish r k w = { s.restore with result := r, errkind := k.code, written := w, phase := .idle } := by
  rw [State.finish, State.restoreIfHeld_of_held h]

/-- R176, R224, R246: a retry issues again below the cap, and takes its exit at the cap. -/
theorem retry_cases (cap : Nat) (ex : State → State) (s : State) :
    (s.pcnt.toNat < cap ∧ retry cap ex s = { s with phase := .issue }) ∨
      (cap ≤ s.pcnt.toNat ∧ retry cap ex s = ex s) := by
  unfold retry
  split
  · exact .inl ⟨‹_›, rfl⟩
  · exact .inr ⟨Nat.le_of_not_lt ‹_›, rfl⟩

/-! ### Register files -/

theorem setLanes_getElem (v : Vector Word 16) (ws : List Word) (i : Nat) (hi : i < 16) :
    (setLanes v ws)[i] = ws.getD i v[i] := by
  simp [setLanes]

/-- R156: the first `N` elements after the words of a start are those words. -/
theorem lanes_setLanes (v : Vector Word 16) (ws : List Word) (n : BitVec 5) (hn : n.toNat = ws.length)
    (h : ws.length ≤ 16) : lanes (setLanes v ws) n = ws := by
  apply List.ext_getElem
  · simp [lanes, hn]; omega
  · intro i h1 h2
    simp [lanes, setLanes, h2]

theorem length_lanes (v : Vector Word 16) (n : BitVec 5) (h : n.toNat ≤ 16) : (lanes v n).length = n.toNat := by
  simp [lanes, h]

/-! ### The acceptance parts -/

/-- R171: everything that the acceptance part of WRITE_WORD can do. -/
theorem acceptWriteWord_cases (s : State) :
    (¬ WriteAddrValid s.params s.addr.toNat ∧ acceptWriteWord s = s.fail .invalidAddress 0) ∨
    (WriteAddrValid s.params s.addr.toNat ∧ BankConflict s.params s.addr.toNat (s.addr.toNat + 3) s.exb ∧
      acceptWriteWord s = s.fail .bankConflict 0) ∨
    (WriteAddrValid s.params s.addr.toNat ∧ ¬ BankConflict s.params s.addr.toNat (s.addr.toNat + 3) s.exb ∧
      acceptWriteWord s = s.startProgram s.addr.toNat [s.data] false) := by
  unfold acceptWriteWord
  dsimp only
  split
  · exact .inl ⟨‹_›, rfl⟩
  · split
    · exact .inr (.inl ⟨not_not.1 ‹_›, ‹_›, rfl⟩)
    · exact .inr (.inr ⟨not_not.1 ‹_›, ‹_›, rfl⟩)

/-- R201: everything that the acceptance part of WRITE_ARRAY can do. -/
theorem acceptWriteArray_cases (s : State) :
    (s.src.toNat % 4 ≠ 0 ∧ acceptWriteArray s = s.fail .invalidAddress 0) ∨
    (s.src.toNat % 4 = 0 ∧ acceptWriteArray s =
      { s with aBase := s.addr, aSrc := s.src, aCount := s.count, aIdx := 0, phase := .next }) := by
  unfold acceptWriteArray
  split
  · exact .inl ⟨‹_›, rfl⟩
  · exact .inr ⟨not_not.1 ‹_›, rfl⟩

/-- R217: everything that the acceptance part of FAST_WRITE can do without a fault. -/
theorem acceptFastWrite_next {s t : State} (h : acceptFastWrite s = .next t) :
    (burstLength s = 0 ∧ t = s.succeed 0) ∨
    (burstLength s ≠ 0 ∧ (¬ MassWriteAddrValid s.params s.addr.toNat (burstLength s) ∨
        ¬ SrcValid s.src.toNat (burstLength s)) ∧ t = s.fail .invalidAddress 0) ∨
    (burstLength s ≠ 0 ∧
      BankConflict s.params s.addr.toNat (s.addr.toNat + 4 * burstLength s - 1) s.exb ∧ t = s.fail .bankConflict 0) ∨
    (burstLength s ≠ 0 ∧ MassWriteAddrValid s.params s.addr.toNat (burstLength s) ∧
      SrcValid s.src.toNat (burstLength s) ∧
      ¬ BankConflict s.params s.addr.toNat (s.addr.toNat + 4 * burstLength s - 1) s.exb ∧
      ∃ ds, s.srcWords s.src.toNat (burstLength s) = .ok ds ∧ t = s.startProgram s.addr.toNat ds true) := by
  unfold acceptFastWrite at h
  dsimp only at h
  split at h
  · cases h; exact .inl ⟨‹_›, rfl⟩
  · split at h
    · cases h; exact .inr (.inl ⟨‹_›, .inl ‹_›, rfl⟩)
    · split at h
      · cases h; exact .inr (.inl ⟨‹_›, .inr ‹_›, rfl⟩)
      · split at h
        · cases h; exact .inr (.inr (.inl ⟨‹_›, ‹_›, rfl⟩))
        · split at h
          · cases h
          · cases h
            exact .inr (.inr (.inr ⟨‹_›, not_not.1 ‹_›, not_not.1 ‹_›, ‹_›, _, ‹_›, rfl⟩))

/-- R217: a burst's source words are as many as were asked for. -/
theorem State.length_srcWords {s : State} {src n : Nat} {ds : List Word} (h : s.srcWords src n = .ok ds) :
    ds.length = n := by
  induction n generalizing src ds with
  | zero => simp [State.srcWords] at h; simp [← h]
  | succ n ih =>
    simp only [State.srcWords] at h
    split at h
    · cases h
    · split at h
      · cases h; simp [ih ‹_›]
      · cases h

/-- R241: everything that the acceptance part of ERASE can do. -/
theorem acceptErase_cases (s : State) :
    (¬ EraseAddrValid s.params s.addr.toNat ∧ acceptErase s = s.fail .invalidAddress 0) ∨
    (EraseAddrValid s.params s.addr.toNat ∧ BankConflict s.params s.addr.toNat (s.addr.toNat + 4095) s.exb ∧
      acceptErase s = s.fail .bankConflict 0) ∨
    (EraseAddrValid s.params s.addr.toNat ∧ ¬ BankConflict s.params s.addr.toNat (s.addr.toNat + 4095) s.exb ∧
      acceptErase s =
        { (s.unlock s.addr.toNat (s.addr.toNat + 4095)) with ta := s.addr, pcnt := 0, phase := .issue }) := by
  unfold acceptErase
  dsimp only
  split
  · exact .inl ⟨‹_›, rfl⟩
  · split
    · exact .inr (.inl ⟨not_not.1 ‹_›, ‹_›, rfl⟩)
    · exact .inr (.inr ⟨not_not.1 ‹_›, ‹_›, rfl⟩)

end Sys2Proof.Machine
end

