-- ==== Sys2Proof/Laws/PerInstr.lean ====
section
/-! SUPPORT. Statements about every command, one lemma per constructor of `Instr`. -/

namespace Sys2Proof.Laws

/-- R100: the three fields of the encoded command word are those of the command. -/
def EncodeFields.Statement (i : Instr) : Prop :=
  opField (encode i) = opcode i ∧ execbField (encode i) = execbOf i ∧ reservedClear (encode i) = true

theorem EncodeFields.nop (e : BitVec 2) : EncodeFields.Statement (.nop e) := by
  revert e; unfold EncodeFields.Statement; decide

theorem EncodeFields.init (e : BitVec 2) : EncodeFields.Statement (.init e) := by
  revert e; unfold EncodeFields.Statement; decide

theorem EncodeFields.writeWord (e : BitVec 2) : EncodeFields.Statement (.writeWord e) := by
  revert e; unfold EncodeFields.Statement; decide

theorem EncodeFields.writeArray (e : BitVec 2) : EncodeFields.Statement (.writeArray e) := by
  revert e; unfold EncodeFields.Statement; decide

theorem EncodeFields.fastWrite (e : BitVec 2) : EncodeFields.Statement (.fastWrite e) := by
  revert e; unfold EncodeFields.Statement; decide

theorem EncodeFields.erase (e : BitVec 2) : EncodeFields.Statement (.erase e) := by
  revert e; unfold EncodeFields.Statement; decide

end Sys2Proof.Laws
end

