-- ==== Sys2Proof/Laws/Steps.lean ====
section
/-! SUPPORT. For each agent's step, everything it can do, said once. -/

namespace Sys2Proof.Machine

/-! ### The controller -/

/-- R174 to R176: everything that the wait step of a word can do. -/
theorem waitWord_cases (s : State) :
    (s.mfPre = true ∧ waitWord s = retry Config.maxProgramPulses wordExhausted
      { s with wiss := setLanes s.wiss [preCorrect s.sref[0] (s.flash.word s.ta.toNat)], preEn := false }) ∨
    (s.mfPre = false ∧ s.flash.word s.ta.toNat ≠ s.sref[0] ∧
      waitWord s = retry Config.maxProgramPulses wordExhausted
        { s with wiss := setLanes s.wiss [postCorrect s.sref[0] (s.flash.word s.ta.toNat)] }) ∨
    (s.mfPre = false ∧ s.flash.word s.ta.toNat = s.sref[0] ∧ waitWord s = wordSuccess s) := by
  unfold waitWord
  dsimp only
  split
  · exact .inl ⟨‹_›, rfl⟩
  · split
    · exact .inr (.inl ⟨by simpa using ‹¬ s.mfPre = true›, ‹_›, rfl⟩)
    · exact .inr (.inr ⟨by simpa using ‹¬ s.mfPre = true›, not_not.1 ‹_›, rfl⟩)

/-- R220 to R224: everything that the wait step of a burst can do. -/
theorem waitBurst_cases (s : State) :
    (s.mfRegv = true ∧ waitBurst s = s.finishBurst 1 .regionLockViolation 0) ∨
    (s.mfRegv = false ∧ s.mfPre = true ∧
      waitBurst s = retry Config.maxProgramPulses burstExhausted
        { s with
          wiss := setLanes s.wiss (List.zipWith preCorrect (lanes s.sref s.n)
            (s.flash.words s.ta.toNat (lanes s.sref s.n).length))
          preEn := false }) ∨
    (s.mfRegv = false ∧ s.mfPre = false ∧
      s.flash.words s.ta.toNat (lanes s.sref s.n).length ≠ lanes s.sref s.n ∧
      waitBurst s = retry Config.maxProgramPulses burstExhausted
        { s with
          wiss := setLanes s.wiss (List.zipWith postCorrect (lanes s.sref s.n)
            (s.flash.words s.ta.toNat (lanes s.sref s.n).length)) }) ∨
    (s.mfRegv = false ∧ s.mfPre = false ∧
      s.flash.words s.ta.toNat (lanes s.sref s.n).length = lanes s.sref s.n ∧
      waitBurst s = s.finishBurst 0 .none (s.n.setWidth 32)) := by
  unfold waitBurst
  dsimp only
  split
  · exact .inl ⟨‹_›, rfl⟩
  · have hr : s.mfRegv = false := by simpa using ‹¬ s.mfRegv = true›
    split
    · exact .inr (.inl ⟨hr, ‹_›, rfl⟩)
    · have hp : s.mfPre = false := by simpa using ‹¬ s.mfPre = true›
      split
      · exact .inr (.inr (.inl ⟨hr, hp, ‹_›, rfl⟩))
      · exact .inr (.inr (.inr ⟨hr, hp, not_not.1 ‹_›, rfl⟩))

/-- R244 to R246: everything that the wait step of an erase can do. -/
theorem waitErase_cases (s : State) :
    (eraseVerify s.flash s.ta.toNat = true ∧ waitErase s = s.succeed 0) ∨
    (eraseVerify s.flash s.ta.toNat = false ∧ waitErase s = retry Config.maxErasePulses eraseExhausted s) := by
  unfold waitErase
  split
  · exact .inl ⟨‹_›, rfl⟩
  · exact .inr ⟨by simpa using ‹¬ eraseVerify _ _ = true›, rfl⟩

/-- R203: everything that a NEXT step can do without a fault. -/
theorem nextWord_next {s t : State} (h : nextWord s = .next t) :
    (s.aIdx = s.aCount ∧ t = s.succeed s.aIdx) ∨
    (s.aIdx ≠ s.aCount ∧ (¬ WriteAddrValid s.params s.arrayTarget ∨ s.arraySource + 3 > Config.addressSpace - 1) ∧
      t = ({ s with pcnt := 0 } : State).fail .invalidAddress s.aIdx) ∨
    (s.aIdx ≠ s.aCount ∧ BankConflict s.params s.arrayTarget (s.arrayTarget + 3) s.exb ∧
      t = ({ s with pcnt := 0 } : State).fail .bankConflict s.aIdx) ∨
    (s.aIdx ≠ s.aCount ∧ WriteAddrValid s.params s.arrayTarget ∧
      ¬ BankConflict s.params s.arrayTarget (s.arrayTarget + 3) s.exb ∧
      ∃ d, s.srcRead s.arraySource = some d ∧
        t = ({ s with pcnt := 0 } : State).startProgram s.arrayTarget [d] false) := by
  unfold nextWord at h
  dsimp only at h
  split at h
  · cases h; exact .inl ⟨‹_›, rfl⟩
  · split at h
    · cases h; exact .inr (.inl ⟨‹_›, .inl ‹_›, rfl⟩)
    · split at h
      · cases h; exact .inr (.inl ⟨‹_›, .inr ‹_›, rfl⟩)
      · split at h
        · cases h; exact .inr (.inr (.inl ⟨‹_›, ‹_›, rfl⟩))
        · split at h
          · cases h
          · cases h
            exact .inr (.inr (.inr ⟨‹_›, not_not.1 ‹_›, ‹_›, _, ‹_›, rfl⟩))

/-- R158, R159, R165: everything that a controller step can do without a fault. -/
theorem controllerStep_next {s t : State} (h : controllerStep s = .next t) :
    (s.phase = .issue ∧ s.mpend = none ∧ t = s.issue) ∨
    (s.phase = .wait ∧ s.mfDone = true ∧ t = waitStep s) ∨
    (s.phase = .next ∧ nextWord s = .next t) ∨ t = s := by
  unfold controllerStep at h
  split at h
  · cases h; simp
  · cases h
    split
    · exact .inl ⟨‹_›, ‹_›, rfl⟩
    · simp
  · cases h
    split
    · exact .inr (.inl ⟨‹_›, ‹_›, rfl⟩)
    · simp
  · exact .inr (.inr (.inl ⟨‹_›, h⟩))

/-! ### The flash macro -/

/-- R71 to R73, R77, R78: everything that the completion of a program request can do. -/
theorem completeProg_cases (d ta : Nat) (ws : List Word) (pre burst : Bool) (s : State) :
    (∃ v, burst = true ∧ s.firstViolation ta ws.length = some v ∧
      completeProg d ta ws pre burst s =
        { s.completed with
          flash := s.flash.putWords ta (violatedWords d v ws (s.flash.words ta ws.length)), mfRegv := true }) ∨
    ((burst = false ∨ s.firstViolation ta ws.length = none) ∧ pre = true ∧
      anyPreFails ws (s.flash.words ta ws.length) = true ∧
      completeProg d ta ws pre burst s = { s.completed with mfPre := true }) ∨
    ((burst = false ∨ s.firstViolation ta ws.length = none) ∧
      (pre = false ∨ anyPreFails ws (s.flash.words ta ws.length) = false) ∧
      completeProg d ta ws pre burst s =
        { s.completed with flash := s.flash.putWords ta (s.pulsedWords d ta ws (s.flash.words ta ws.length)) }) := by
  unfold completeProg
  dsimp only
  cases burst with
  | true =>
    cases hv : s.firstViolation ta ws.length with
    | some v => exact .inl ⟨v, rfl, rfl, by simp⟩
    | none =>
      right
      cases pre <;> cases hp : anyPreFails ws (s.flash.words ta ws.length) <;> simp
  | false =>
    right
    cases pre <;> cases hp : anyPreFails ws (s.flash.words ta ws.length) <;> simp

/-- R75, R78: everything that the completion of an erase request can do. -/
theorem completeErase_cases (d sb : Nat) (s : State) :
    (s.locked sb = true ∧ completeErase d sb s = s.completed) ∨
    (s.locked sb = false ∧ completeErase d sb s =
      { s.completed with
        flash := s.flash.fill sb Config.sectorSize (fun k => eraseByte (s.flash.read (sb + k)) (drawByte d k)) }) := by
  unfold completeErase
  cases h : s.locked sb <;> simp

@[simp] theorem length_violatedWords (d v : Nat) (ws olds : List Word) :
    (violatedWords d v ws olds).length = ws.length := by
  simp [violatedWords]

@[simp] theorem length_pulsedWords (s : State) (d ta : Nat) (ws olds : List Word) :
    (s.pulsedWords d ta ws olds).length = ws.length := by
  simp [State.pulsedWords]

/-- R71: the flash macro's step completes what is pending, or does nothing. -/
theorem pulseUnitStep_cases (s : State) :
    (s.mpend = none ∧ pulseUnitStep s = s) ∨
      (∃ r, s.mpend = some r ∧ pulseUnitStep s = complete s.drawValue r s.drawNext) := by
  unfold pulseUnitStep
  split
  · exact .inl ⟨‹_›, rfl⟩
  · exact .inr ⟨_, ‹_›, rfl⟩

/-! ### The host -/

/-- R151, R152, R155: everything that a command can do without a fault. -/
theorem exec_next {i : Instr} {s t : State} (h : exec i s = .next t) :
    s.phase = .idle ∧
    ((∃ e, i = .nop e ∧ t = s) ∨ (∃ e, i = .init e ∧ t = s.report 1 0 .none) ∨
      (i.wf = false ∧ t = s.illegal (encode i)) ∨
      (∃ e, i = .writeWord e ∧ e ≠ 0 ∧ t = acceptWriteWord (s.accept .writeWord e)) ∨
      (∃ e, i = .writeArray e ∧ e ≠ 0 ∧ t = acceptWriteArray (s.accept .writeArray e)) ∨
      (∃ e, i = .fastWrite e ∧ e ≠ 0 ∧ acceptFastWrite (s.accept .fastWrite e) = .next t) ∨
      (∃ e, i = .erase e ∧ e ≠ 0 ∧ t = acceptErase (s.accept .erase e))) := by
  cases i with
  | nop e =>
    unfold exec execNop at h
    obtain ⟨hp, h⟩ := whenIdle_next h
    cases h; exact ⟨hp, .inl ⟨e, rfl, rfl⟩⟩
  | init e =>
    unfold exec execInit at h
    obtain ⟨hp, h⟩ := whenIdle_next h
    cases h; exact ⟨hp, .inr (.inl ⟨e, rfl, rfl⟩)⟩
  | writeWord e =>
    unfold exec execWriteWord at h
    obtain ⟨hp, ⟨rfl, rfl⟩ | ⟨he, h⟩⟩ := acceptMutating_next h
    · exact ⟨hp, .inr (.inr (.inl ⟨rfl, rfl⟩))⟩
    · cases h; exact ⟨hp, .inr (.inr (.inr (.inl ⟨e, rfl, he, rfl⟩)))⟩
  | writeArray e =>
    unfold exec execWriteArray at h
    obtain ⟨hp, ⟨rfl, rfl⟩ | ⟨he, h⟩⟩ := acceptMutating_next h
    · exact ⟨hp, .inr (.inr (.inl ⟨rfl, rfl⟩))⟩
    · cases h; exact ⟨hp, .inr (.inr (.inr (.inr (.inl ⟨e, rfl, he, rfl⟩))))⟩
  | fastWrite e =>
    unfold exec execFastWrite at h
    obtain ⟨hp, ⟨rfl, rfl⟩ | ⟨he, h⟩⟩ := acceptMutating_next h
    · exact ⟨hp, .inr (.inr (.inl ⟨rfl, rfl⟩))⟩
    · exact ⟨hp, .inr (.inr (.inr (.inr (.inr (.inl ⟨e, rfl, he, h⟩)))))⟩
  | erase e =>
    unfold exec execErase at h
    obtain ⟨hp, ⟨rfl, rfl⟩ | ⟨he, h⟩⟩ := acceptMutating_next h
    · exact ⟨hp, .inr (.inr (.inl ⟨rfl, rfl⟩))⟩
    · cases h; exact ⟨hp, .inr (.inr (.inr (.inr (.inr (.inr ⟨e, rfl, he, rfl⟩)))))⟩

/-- R104, R157: everything that a store to `CMD` can do without a fault. -/
theorem storeCmd_next {c : Word} {s t : State} (h : storeCmd c s = .next t) :
    (∃ i, decode c = .ok i ∧ exec i s = .next t) ∨ (s.phase = .idle ∧ t = s.illegal c) := by
  unfold storeCmd at h
  split at h
  · exact .inl ⟨_, ‹_›, h⟩
  · obtain ⟨hp, h⟩ := whenIdle_next h
    cases h; exact .inr ⟨hp, rfl⟩

/-- R150, R154: everything that a store to the window can do without a fault. -/
theorem storeWindow_next {w : Width} {a v : Word} {s t : State} (h : storeWindow w a v s = .next t) :
    s.phase = .idle ∧ (storeCmd v s = .next t ∨ ∃ r, r ≠ .cmd ∧ t = s.writeReg r v) := by
  unfold storeWindow at h
  split at h
  · cases h
  · have hp : s.phase = .idle := by simpa [State.busy] using ‹¬ s.busy = true›
    refine ⟨hp, ?_⟩
    split at h
    · cases h
    · split at h
      · cases h
      · exact .inl h
      · cases h
        rename_i r hne _
        exact .inr ⟨r, by simpa using hne, rfl⟩

/-- R65, R67, R150: everything that a host store can do without a fault. -/
theorem hostStore_next {w : Width} {a v : Word} {s t : State} (h : hostStore w a v s = .next t) :
    (regionOf s.params a.toNat = .window ∧ storeWindow w a v s = .next t) ∨
    (regionOf s.params a.toNat = .sysmem ∧ aligned w a = true ∧
      t = { s with sysmem := s.sysmem.writeLE a.toNat w.bytes v }) := by
  unfold hostStore at h
  split at h
  · cases h
  · exact .inl ⟨‹_›, h⟩
  · split at h
    · cases h
    · cases h; exact .inr ⟨‹_›, by simpa using ‹¬ (!aligned w a) = true›, rfl⟩

/-- R64, R67, R84, R153: a host load changes only the value read, and takes a draw where R84 says so. -/
theorem hostLoad_next {w : Width} {a : Word} {s t : State} (h : hostLoad w a s = .next t) :
    ∃ v, t = { s with rdata := v } ∨ t = { s.drawNext with rdata := v } := by
  unfold hostLoad loadWindow at h
  split at h
  · split at h
    · cases h
    · cases h
      unfold loadFlash
      split
      · exact ⟨_, .inr rfl⟩
      · exact ⟨_, .inl rfl⟩
  · split at h
    · cases h
    · split at h
      · cases h
      · cases h; exact ⟨_, .inl rfl⟩
  · split at h
    · cases h
    · cases h; exact ⟨_, .inl rfl⟩

/-- R110: one pass of the loop changes the value read, and keeps the loop while the block is busy. -/
theorem hostPoll_eq (s : State) :
    hostPoll s = { s with rdata := s.status, host := if s.status.getLsbD 0 then .poll :: s.host else s.host } := by
  unfold hostPoll State.readReg
  dsimp only
  split <;> rfl

/-! ### The step -/

/-- Everything that a step can do: a reset, or one agent's step in the state whose turn it is. -/
theorem step_cases (s : State) :
    (∃ rest, s.sched = .reset :: rest ∧ step s = .next (resetStep { s with sched := rest })) ∨
    (∃ a q d, step s = agentStep a { s with sched := q, drawn := d }) := by
  unfold step State.nextTurn State.unscheduled
  split
  · right
    split
    · exact ⟨.host, s.sched, s.drawn, rfl⟩
    · split
      · exact ⟨.controller, s.sched, s.drawn, rfl⟩
      · exact ⟨_, s.sched, s.drawn + 1, rfl⟩
  · rename_i t rest h
    cases t with
    | reset => exact .inl ⟨rest, h, rfl⟩
    | agent a => exact .inr ⟨a, rest, s.drawn, rfl⟩

/-- A scheduled turn is the next step. -/
theorem step_of_sched {s : State} {a : Agent} {rest : List Turn} (h : s.sched = .agent a :: rest) :
    step s = agentStep a { s with sched := rest } := by
  simp [step, State.nextTurn, h, turnStep]

end Sys2Proof.Machine
end

