-- ==== Sys2Proof/Tests/Slice0.lean ====
section
/-! SUPPORT. Our own tests: expected values come from spec/95_test_vectors.md (the row is named) and from the encodings of
spec/30_encoding.md; and, for every statement of the obligations that has hypotheses, a concrete state and operands that
meet them all. -/

namespace Sys2Proof.Tests

open Sys2Proof Sys2Proof.Machine

/-! ### Well-formedness: each check refuses an ill-formed term -/

theorem test_wf_refuses_write_word_without_bank : (Instr.writeWord 0).wf = false := by decide

theorem test_wf_refuses_write_array_without_bank : (Instr.writeArray 0).wf = false := by decide

theorem test_wf_refuses_fast_write_without_bank : (Instr.fastWrite 0).wf = false := by decide

theorem test_wf_refuses_erase_without_bank : (Instr.erase 0).wf = false := by decide

theorem test_wf_takes_any_bank_for_nop_and_init : ∀ e, (Instr.nop e).wf = true ∧ (Instr.init e).wf = true := by decide

theorem test_params_refuse_bank_size : ¬ ({ Config.defaults with bankSize := 12288 } : Params).BankSizeOk := by decide

theorem test_params_refuse_flash_base : ¬ ({ Config.defaults with flashBase := 0x1000 } : Params).FlashRangeOk := by
  decide

theorem test_params_refuse_window_in_flash : ¬ ({ Config.defaults with fpcBase := 0x3FFC0 } : Params).WindowOk := by
  decide

theorem test_params_refuse_window_base : ¬ ({ Config.defaults with fpcBase := 0x40011020 } : Params).WindowOk := by
  decide

theorem test_params_refuse_reserved : ¬ ({ Config.defaults with reserved := [0x40000] } : Params).ReservedOk := by
  decide

theorem test_params_defaults : Config.defaults.Wf := by decide

/-! ### Decoding: words written from the patterns of R107, and the illegal words CT-1 to CT-7 of 95 -/

theorem test_decode_nop : decode 0b00000000000000000000001100000000#32 = .ok (.nop 3) := by decide

theorem test_decode_init : decode 0b00000000000000000000000100000001#32 = .ok (.init 1) := by decide

theorem test_decode_write_word : decode 0b00000000000000000000000100000010#32 = .ok (.writeWord 1) := by decide

theorem test_decode_write_array : decode 0b00000000000000000000001000000011#32 = .ok (.writeArray 2) := by decide

theorem test_decode_fast_write : decode 0b00000000000000000000001100000100#32 = .ok (.fastWrite 3) := by decide

theorem test_decode_erase : decode 0b00000000000000000000001000000101#32 = .ok (.erase 2) := by decide

theorem test_decode_illegal_words :
    decode 0x00000002 = .error (.noExecb 2) ∧ decode 0x00000006 = .error (.reservedOp 6) ∧
    decode 0x0000000F = .error (.reservedOp 15) ∧ decode 0x00000012 = .error .reservedBits ∧
    decode 0x00000400 = .error .reservedBits ∧ decode 0x80000002 = .error .reservedBits ∧
    decode 0x0000030F = .error (.reservedOp 15) := by decide

theorem test_table_word : decodeTableWord 32 0x105 = some (.erase 1) := by decide

/-- R109: the expansion of `FLASH_ERASE 0x21000, 0b01`. -/
theorem test_expand_flash_erase :
    (Pseudo.flashErase 0x21000 1).expand Config.defaults =
      [.store .w32 0x40011004 0x21000, .store .w32 0x40011000 0x105, .poll] := by decide

/-! ### Helpers: small states, and the state after a step or a run -/

/-- The next state, if there is one. -/
def nextOf (r : Result) : Option State :=
  match r with
  | .next s => some s
  | _ => none

/-- The fault, if there is one. -/
def faultOf (r : Result) : Option Fault :=
  match r with
  | .fault f => some f
  | _ => none

/-- The state after `r`; `State.reset` where there is none. -/
def after (r : Result) : State := (nextOf r).getD State.reset

theorem eq_next_after {r : Result} (h : (nextOf r).isSome = true) : r = .next (after r) := by
  cases r <;> simp_all [nextOf, after]

/-- Reset, with the free values `ds` and the array word at 0x21000 holding `w` (the setting of 95, L2-3). -/
def holding (w : Word) (ds : List Nat) : State :=
  { State.reset with flash := Memory.writeLE [] 0x21000 4 w, tape := ds, addr := 0x21000 }

/-- The setting of L2-3 with data `d`. -/
def wordState (w d : Word) (ds : List Nat) : State := { holding w ds with data := d }

/-- A burst state: `ws` at the source address 0x20000000 (the setting of 95, L2-4). -/
def burstState (a n : Word) (ws : List Word) (ds : List Nat) : State :=
  { State.reset with
    sysmem := Memory.putWords [] 0x20000000 ws, addr := a, count := n, src := 0x20000000, tape := ds }

/-- The state after the acceptance step of a command. -/
def accepted (i : Instr) (s : State) : State := after (exec i s)

/-- The state after a schedule. -/
def ran (ts : List Turn) (s : State) : State := after (s.runTurns ts)

/-- One issue and its completion. -/
def pulse : List Turn := [.agent .controller, .agent .pulseUnit]

/-- The host's turn, with one operation left. -/
def hostTurn (o : HostOp) (s : State) : State := { s with sched := [.agent .host], host := [o] }

theorem inv_of {s : State} (h₁ : s.params.Wf ∧ s.MemoriesOk ∧ s.HardwiredOk ∧ s.ReportOk)
    (h₂ : s.TargetOk ∧ s.BurstOk ∧ s.LockOk) (h₃ : s.RequestOk ∧ s.CountOk ∧ s.ArrayOk) : s.Inv :=
  ⟨h₁.1, h₁.2.1, h₁.2.2.1, h₁.2.2.2, h₂.1, h₂.2.1, h₂.2.2, h₃.1, h₃.2.1, h₃.2.2⟩

/-! ### One-step tests, against 95 -/

/-- CT-8: NOP leaves `STATUS` as it was. -/
theorem test_nop_keeps_status :
    (accepted (.nop 3) { State.reset with lastop := 15, result := 1, errkind := 6 }).status = 0xF62 := by decide

/-- RG-8. -/
theorem test_nop_faults_while_busy :
    faultOf (step (hostTurn (command Config.defaults (.nop 0)) { State.reset with phase := .wait })) =
      some (.busyWrite 0 0) := by decide

/-- CT-10. -/
theorem test_init_status :
    (accepted (.init 3) { State.reset with lastop := 15, result := 1, errkind := 6, pcnt := 5 }).status = 0x100 ∧
    (accepted (.init 3) { State.reset with pcnt := 5 }).readReg .pulsecnt = 0 := by decide

/-- The trace of WW-2, step 1: acceptance unlocks sector 1 of bank 1. -/
theorem test_write_word_accepts :
    (accepted (.writeWord 1) (wordState 0xDEADBEEF 0xDEAD0000 [])).status = 0x201 ∧
    (accepted (.writeWord 1) (wordState 0xDEADBEEF 0xDEAD0000 [])).weprot1 = 0xFFFFFFFD := by decide

/-- WW-11 and WW-13. -/
theorem test_write_word_rejects :
    (accepted (.writeWord 1) { State.reset with addr := 0x21001 }).status = 0x212 ∧
    (accepted (.writeWord 2) { State.reset with addr := 0x21000 }).status = 0x222 := by decide

/-- WA-6: a misaligned source. -/
theorem test_write_array_rejects :
    (accepted (.writeArray 1) { burstState 0x20000 4 [] [] with src := 0x20000001 }).status = 0x312 := by decide

/-- WA-3: the NEXT step of word 2, at 0x40000, is out of range. -/
theorem test_write_array_next_out_of_range :
    let s := ran [.agent .controller]
      { accepted (.writeArray 1) (burstState 0x3FFF8 3 [] []) with aIdx := 2, written := 2 }
    s.status = 0x312 ∧ s.readReg .written = 2 := by decide

/-- FW-13: a burst across sectors 1 and 2 unlocks both. -/
theorem test_fast_write_unlocks_two_sectors :
    (accepted (.fastWrite 1) (burstState 0x21FF0 8 [] [])).weprot1 = 0xFFFFFFF9 := by decide +kernel

/-- FW-5 and FW-7. -/
theorem test_fast_write_rejects :
    (accepted (.fastWrite 1) (burstState 0x3FFD0 16 [] [])).status = 0x412 ∧
    (accepted (.fastWrite 1) (burstState 0x1FFF0 8 [] [])).status = 0x422 := by decide

/-- R42: BURST is set while a FAST_WRITE runs, and clear after it and through a later ERASE. -/
theorem test_burst_latch :
    let s := accepted (.fastWrite 1) (burstState 0x20010 2 [0x0000FFFF, 0xFFFF0000] [0])
    let t := ran onePulse s
    s.burst = true ∧ t.phase = .idle ∧ t.status = 0x400 ∧ t.burst = false ∧
    (accepted (.erase 1) { t with addr := 0x21000 }).burst = false := by decide +kernel

/-- ER-9: the last sector. -/
theorem test_erase_accepts :
    (accepted (.erase 1) { State.reset with addr := 0x3F000 }).weprot1 = 0x7FFFFFFF := by decide

/-- ER-3 and ER-6. -/
theorem test_erase_rejects :
    (accepted (.erase 1) { State.reset with addr := 0x21004 }).status = 0x512 ∧
    (accepted (.erase 3) { State.reset with addr := 0x1000 }).status = 0x522 := by decide

/-- The trace of WW-2, steps 3 and 4: pre-verify inhibits the first issue, and the correction is 0xFFFF4110. -/
theorem test_pre_verify_trace :
    let s := ran pulse (accepted (.writeWord 1) (wordState 0xDEADBEEF 0xDEAD0000 [0]))
    let t := ran [.agent .controller] s
    s.mfPre = true ∧ s.flash.word 0x21000 = 0xDEADBEEF ∧ t.wiss[0] = 0xFFFF4110 ∧ t.preEn = false ∧ t.phase = .issue := by
  decide +kernel

/-- WW-9: a weak first pulse leaves 0xDEADBFEF, and the next issued word is 0xFFFFFEFF. -/
theorem test_weak_pulse_trace :
    let s := ran onePulse (accepted (.writeWord 1) (wordState 0xFFFFFFFF 0xDEADBEEF [0x100]))
    s.flash.word 0x21000 = 0xDEADBFEF ∧ s.wiss[0] = 0xFFFFFEFF ∧ s.pcnt = 1 := by decide +kernel

/-- RG-3: hardwired lock bits. -/
theorem test_hardwired_lock_bits :
    let p := { Config.defaults with bankSize := 0x8000 }
    (after (step (hostTurn (storeReg p .weprot0 0) { State.reset with params := p }))).weprot0 = 0xFFFFFF00 := by decide

/-- RG-10 to RG-13. -/
theorem test_host_faults :
    faultOf (step (hostTurn (.load .w8 0x40011018) State.reset)) = some (.badWidth 0x40011018 .w8) ∧
    faultOf (step (hostTurn (.load .w32 0x4001102C) State.reset)) = some (.reservedOffset 0x4001102C .w32) ∧
    faultOf (step (hostTurn (.store .w32 0x21000 0) State.reset)) = some (.flashStore 0x21000 .w32 0) ∧
    faultOf (step (hostTurn (.load .w32 0x21002) State.reset)) = some (.misaligned 0x21002 .w32) := by decide

/-- RG-14: little-endian loads. -/
theorem test_loads_little_endian :
    let v (w : Width) (a : Word) := (after (step (hostTurn (.load w a) (holding 0xDEADBEEF [])))).rdata
    v .w8 0x21000 = 0xEF ∧ v .w8 0x21003 = 0xDE ∧ v .w16 0x21002 = 0xDEAD ∧ v .w32 0x21000 = 0xDEADBEEF := by decide

/-- A command placed by `withFetchWord` is the very next step. -/
theorem test_fetch_word :
    (after (step (State.reset.withFetchWord 32 0x205))).status = 0x501 := by decide

/-! ### Witnesses: states that meet the hypotheses of the statements -/

/-- An idle state with a word to write over a programmed one. -/
def sWord : State := wordState 0xDEADBEEF 0xDEAD0000 [0, 0, 0, 0, 0]

/-- An idle state with a word to write into an erased one. -/
def sFresh : State := wordState 0xFFFFFFFF 0xDEADBEEF [0, 0]

/-- An idle state with a burst of two words. -/
def sBurst : State := burstState 0x20010 2 [0x0000FFFF, 0xFFFF0000] [0, 0]

/-- An idle state with a sector to erase, one byte of which is programmed. -/
def sSector : State := holding 0xFFFFFF12 [0]

theorem witness_decode : decode 0x102 = .ok (.writeWord 1) ∧ (Instr.writeWord 1).wf = true ∧
    encode (.writeWord 1) = 0x102 ∧ ∃ r ∈ opcodeTable, r.selects 0x102 = true := by decide

theorem witness_StepRunsTheDecodedCommand :
    let s := hostTurn (storeReg Config.defaults .cmd 0x102) sWord
    s.params.Wf ∧ s.HostNext (storeReg s.params .cmd 0x102) [] [] ∧ decode 0x102 = .ok (.writeWord 1) := by decide

theorem witness_IllegalWordCompletesAsError :
    (∀ c, let s := hostTurn (storeReg Config.defaults .cmd c) State.reset
      s.params.Wf ∧ s.HostNext (storeReg s.params .cmd c) [] [] ∧ s.phase = .idle) ∧
    decode 0x2 = .error (.noExecb 2) ∧ decode 0x6 = .error (.reservedOp 6) ∧ decode 0x10 = .error .reservedBits ∧
    decode 0x80000000 = .error .reservedBits ∧ decode 0x400 = .error .reservedBits :=
  ⟨fun _ => ⟨test_params_defaults, ⟨rfl, rfl⟩, rfl⟩, by decide⟩

/-- The first and the last byte of the window, narrow and misaligned accesses among them. -/
theorem witness_WindowStoreWhileBusyFaults :
    let s w a := hostTurn (.store w a 7) (accepted (.writeWord 1) sWord)
    ∀ x ∈ [(Width.w32, 0x40011000#32), (.w8, 0x4001103F#32), (.w16, 0x40011001#32)],
      (s x.1 x.2).params.Wf ∧ (s x.1 x.2).HostNext (.store x.1 x.2 7) [] [] ∧
      InWindow (s x.1 x.2).params x.2.toNat ∧ (s x.1 x.2).phase ≠ .idle := by decide

theorem witness_NopChangesNothing :
    sWord.phase = .idle ∧ (accepted (.writeWord 1) sWord).phase ≠ .idle ∧
    (0x10#32).extractLsb' 0 4 = 0 ∧ (0x10#32).extractLsb' 4 4 ≠ 0 ∧
    (0x400#32).extractLsb' 0 4 = 0 ∧ (0x400#32).extractLsb' 10 22 ≠ 0 := by decide

theorem witness_InitReportsSuccess :
    sWord.phase = .idle ∧ (accepted (.writeWord 1) sWord).phase ≠ .idle := by decide

/-- Also the last word of flash. -/
theorem witness_WriteWordAccepted :
    ∀ s ∈ [sWord, { sWord with addr := 0x3FFFC }], s.params.Wf ∧ s.phase = .idle ∧ (1#2) ≠ 0 ∧
      WriteAddrValid s.params s.addr.toNat ∧ ¬ BankConflict s.params s.addr.toNat (s.addr.toNat + 3) 1 := by decide

theorem witness_WriteWordRejected :
    let s := { sWord with addr := 0x40000 }
    (s.phase = .idle ∧ s.lkHeld = false ∧ (1#2) ≠ 0 ∧ ¬ WriteAddrValid s.params s.addr.toNat) ∧
    (sWord.phase = .idle ∧ sWord.lkHeld = false ∧ (2#2) ≠ 0 ∧ WriteAddrValid sWord.params sWord.addr.toNat ∧
      BankConflict sWord.params sWord.addr.toNat (sWord.addr.toNat + 3) 2) := by decide

theorem witness_WriteArrayAccepted :
    (sBurst.phase = .idle ∧ sBurst.lkHeld = false ∧ (1#2) ≠ 0 ∧ sBurst.src.toNat % 4 = 0) ∧
    ({ sBurst with src := 0x20000003 }).src.toNat % 4 ≠ 0 := by decide

theorem witness_FastWriteAccepted :
    let ds := [0x0000FFFF#32, 0xFFFF0000#32]
    sBurst.phase = .idle ∧ (1#2) ≠ 0 ∧ ds.length = min sBurst.count.toNat 16 ∧ ds ≠ [] ∧
    MassWriteAddrValid sBurst.params sBurst.addr.toNat ds.length ∧ SrcValid sBurst.src.toNat ds.length ∧
    ¬ BankConflict sBurst.params sBurst.addr.toNat (sBurst.addr.toNat + 4 * ds.length - 1) 1 ∧
    ∀ i < ds.length, sBurst.srcRead (sBurst.src.toNat + 4 * i) = some (ds.getD i 0) := by decide +kernel

/-- FW-3: a count above the clamp, with all sixteen words read from unlisted memory. -/
theorem witness_FastWriteAccepted_clamped :
    let s := burstState 0x3FFC0 20 [] []
    let ds := List.replicate 16 0xFFFFFFFF#32
    s.phase = .idle ∧ ds.length = min s.count.toNat 16 ∧ MassWriteAddrValid s.params s.addr.toNat ds.length ∧
    SrcValid s.src.toNat ds.length ∧
    ¬ BankConflict s.params s.addr.toNat (s.addr.toNat + 4 * ds.length - 1) 1 ∧
    ∀ i < ds.length, s.srcRead (s.src.toNat + 4 * i) = some (ds.getD i 0) := by decide +kernel

theorem witness_FastWriteRejected :
    (∀ s ∈ [sBurst, { sBurst with count := 0 }, { sBurst with addr := 0x20008 }, { sBurst with src := 0xFFFFFFFC }],
      s.phase = .idle ∧ s.lkHeld = false) ∧
    min ({ sBurst with count := 0 }).count.toNat 16 = 0 ∧
    ¬ MassWriteAddrValid sBurst.params 0x20008 2 ∧
    (MassWriteAddrValid sBurst.params sBurst.addr.toNat 2 ∧ ¬ SrcValid (0xFFFFFFFC#32).toNat 2) ∧
    (SrcValid sBurst.src.toNat 2 ∧ BankConflict sBurst.params sBurst.addr.toNat (sBurst.addr.toNat + 4 * 2 - 1) 2) := by
  decide

/-- The word before the window is read, the first word of the window faults. -/
theorem witness_FastWriteSourceInWindowFaults :
    let s := { sBurst with src := 0x40010FFC }
    let n := min s.count.toNat 16
    s.phase = .idle ∧ 1 < n ∧ MassWriteAddrValid s.params s.addr.toNat n ∧ SrcValid s.src.toNat n ∧
    ¬ BankConflict s.params s.addr.toNat (s.addr.toNat + 4 * n - 1) 1 ∧
    (∃ k < 4, InWindow s.params (s.src.toNat + 4 * 1 + k)) ∧
    ∀ j < 1, ∀ k < 4, ¬ InWindow s.params (s.src.toNat + 4 * j + k) := by decide

/-- Also the last sector of flash. -/
theorem witness_EraseAccepted :
    ∀ s ∈ [sSector, { sSector with addr := 0x3F000 }], s.params.Wf ∧ s.phase = .idle ∧ (1#2) ≠ 0 ∧
      EraseAddrValid s.params s.addr.toNat ∧ ¬ BankConflict s.params s.addr.toNat (s.addr.toNat + 4095) 1 := by decide

theorem witness_EraseRejected :
    let s := { sSector with addr := 0x40000 }
    (s.phase = .idle ∧ s.lkHeld = false ∧ ¬ EraseAddrValid s.params s.addr.toNat) ∧
    (sSector.phase = .idle ∧ sSector.lkHeld = false ∧ EraseAddrValid sSector.params sSector.addr.toNat ∧
      BankConflict sSector.params sSector.addr.toNat (sSector.addr.toNat + 4095) 2) := by decide

theorem witness_CommandEndedAtAcceptanceChangesOnlyTheReport :
    sWord.lkHeld = false ∧ exec (.writeWord 2) sWord = .next (accepted (.writeWord 2) sWord) ∧
    (accepted (.writeWord 2) sWord).phase = .idle :=
  ⟨by decide, eq_next_after (by decide), by decide⟩

theorem witness_IssueStep :
    ∀ s ∈ [accepted (.writeWord 1) sWord, accepted (.erase 1) sSector], s.phase = .issue ∧ s.mpend = none := by decide

theorem witness_ControllerIsHeld :
    let s := ran [.agent .controller] (accepted (.writeWord 1) sWord)
    sWord.phase = .idle ∧ s.phase = .wait ∧ s.mfDone = false := by decide

/-- The word of `sWord` after its first issue (pre-verify failed) and, weakly pulsed, the word of WW-9; the last count
below the cap among them. -/
theorem witness_WordIsRetried :
    let s := ran pulse (accepted (.writeWord 1) sWord)
    let t := ran pulse (accepted (.writeWord 1) { sFresh with tape := [0x100] })
    (s.phase = .wait ∧ s.mfDone = true ∧ s.op = .writeWord ∧ s.pcnt.toNat < 5 ∧ s.mfPre = true) ∧
    (t.phase = .wait ∧ t.mfDone = true ∧ t.op = .writeWord ∧ ({ t with pcnt := 4 }).pcnt.toNat < 5 ∧ t.mfPre = false ∧
      t.flash.word t.ta.toNat ≠ t.sref[0]) := by decide +kernel

theorem witness_WriteWordEnds :
    let s := ran pulse (accepted (.writeWord 1) sFresh)
    let t := { ran pulse (accepted (.writeWord 1) { sFresh with tape := [0x100] }) with pcnt := 5 }
    let u := { ran pulse (accepted (.writeWord 1) sWord) with pcnt := 5 }
    (∀ x ∈ [s, t, u], x.phase = .wait ∧ x.mfDone = true ∧ x.op = .writeWord ∧ x.lkHeld = true) ∧
    (s.mfPre = false ∧ s.flash.word s.ta.toNat = s.sref[0]) ∧
    (t.mfPre = false ∧ t.flash.word t.ta.toNat ≠ t.sref[0] ∧ 5 ≤ t.pcnt.toNat) ∧
    (u.mfPre = true ∧ 5 ≤ u.pcnt.toNat) := by decide +kernel

/-- The array of two words after one word of it has been pulsed. -/
def arrayWaiting (d : Nat) : State :=
  ran (.agent .controller :: pulse) (accepted (.writeArray 1) { sBurst with tape := [d] })

theorem witness_ArrayWordEnds :
    let s := arrayWaiting 0
    let t := { arrayWaiting 0x10000 with pcnt := 5 }
    let u := { t with mfPre := true }
    (∀ x ∈ [s, t, u], x.phase = .wait ∧ x.mfDone = true ∧ x.op = .writeArray ∧ x.lkHeld = true) ∧
    (s.mfPre = false ∧ s.flash.word s.ta.toNat = s.sref[0]) ∧
    (t.mfPre = false ∧ t.flash.word t.ta.toNat ≠ t.sref[0] ∧ 5 ≤ t.pcnt.toNat) ∧ u.mfPre = true ∧ 5 ≤ u.pcnt.toNat := by
  decide +kernel

/-- An array at its NEXT step: base, source, index and declared banks. -/
def arrayNext (a src i : Word) (e : BitVec 2) : State :=
  { accepted (.writeArray 1) sBurst with aBase := a, aSrc := src, aCount := 3, aIdx := i, exb := e }

/-- Each clause, at the ends of its range: the last word of flash, the word after it, the last source word of the address
space, the one after it, the words beside the window. -/
theorem witness_ArrayNextStep :
    let s1 := arrayNext 0x20000 0x20000000 3 1
    let s2 := arrayNext 0x3FFFC 0x20000000 1 1
    let s3 := arrayNext 0x20000 0xFFFFFFFC 1 1
    let s4 := arrayNext 0x1FFFC 0x20000000 1 2
    let s5 := arrayNext 0x20000 0x40010FFC 1 1
    let s6 := arrayNext 0x20000 0x40010FFC 0 1
    (∀ s ∈ [s1, s2, s3, s4, s5, s6], s.phase = .next ∧ s.lkHeld = false) ∧
    s1.aIdx = s1.aCount ∧
    (s2.aIdx ≠ s2.aCount ∧ ¬ WriteAddrValid s2.params (s2.aBase.toNat + 4 * s2.aIdx.toNat)) ∧
    (s3.aIdx ≠ s3.aCount ∧ s3.aSrc.toNat + 4 * s3.aIdx.toNat + 3 > 2 ^ 32 - 1) ∧
    (s4.aIdx ≠ s4.aCount ∧ WriteAddrValid s4.params 0x20000 ∧ s4.aSrc.toNat + 4 + 3 ≤ 2 ^ 32 - 1 ∧
      BankConflict s4.params 0x20000 0x20003 s4.exb) ∧
    (s5.aIdx ≠ s5.aCount ∧ WriteAddrValid s5.params 0x20004 ∧ s5.aSrc.toNat + 4 + 3 ≤ 2 ^ 32 - 1 ∧
      ¬ BankConflict s5.params 0x20004 0x20007 s5.exb ∧ ∃ k < 4, InWindow s5.params (s5.aSrc.toNat + 4 + k)) ∧
    (s6.aIdx ≠ s6.aCount ∧ WriteAddrValid s6.params 0x20000 ∧ s6.aSrc.toNat + 3 ≤ 2 ^ 32 - 1 ∧
      ¬ BankConflict s6.params 0x20000 0x20003 s6.exb ∧ ∀ k < 4, ¬ InWindow s6.params (s6.aSrc.toNat + k)) :=
  ⟨by decide, by decide, by decide, by decide, by decide, by decide, by decide⟩

/-- The burst of `sBurst` after one pulse whose failed bits are `d`. -/
def burstWaiting (d : Nat) : State := ran pulse (accepted (.fastWrite 1) { sBurst with tape := [d] })

theorem witness_BurstWaitStep :
    let es (s : State) := (List.range (s.sref.toList.take s.n.toNat).length).map
      (fun i => s.flash.word (s.ta.toNat + 4 * i))
    let rs (s : State) := s.sref.toList.take s.n.toNat
    let ok := burstWaiting 0
    let weak := burstWaiting 0x10000
    (∀ s ∈ [ok, weak], s.phase = .wait ∧ s.mfDone = true ∧ s.op = .fastWrite ∧ s.lkHeld = true) ∧
    ({ ok with mfRegv := true }).mfRegv = true ∧
    (({ ok with mfPre := true, pcnt := 4 }).mfPre = true ∧ ({ ok with mfPre := true, pcnt := 4 }).pcnt.toNat < 5) ∧
    (({ ok with mfPre := true, pcnt := 5 }).mfRegv = false ∧ 5 ≤ ({ ok with mfPre := true, pcnt := 5 }).pcnt.toNat) ∧
    (weak.mfRegv = false ∧ weak.mfPre = false ∧ es weak ≠ rs weak ∧ weak.pcnt.toNat < 5) ∧
    5 ≤ ({ weak with pcnt := 5 }).pcnt.toNat ∧
    (ok.mfRegv = false ∧ ok.mfPre = false ∧ es ok = rs ok) := by decide +kernel

/-- The erase of `sSector` at its wait step, with `m` in the array. -/
def eraseWaiting (m : Memory) : State :=
  { accepted (.erase 1) sSector with phase := .wait, mfDone := true, pcnt := 49, flash := m }

theorem witness_EraseWaitStep :
    let s := eraseWaiting []
    let t := eraseWaiting [(0x21FFF, 0xFE#8)]
    (∀ x ∈ [s, t], x.phase = .wait ∧ x.mfDone = true ∧ x.op = .erase ∧ x.lkHeld = true) ∧
    (∀ k < 4096, s.flash.read (s.ta.toNat + k) = 0xFF#8) ∧
    t.flash.read (t.ta.toNat + 4095) ≠ 0xFF#8 ∧ t.pcnt.toNat < 50 ∧ 50 ≤ ({ t with pcnt := 50 }).pcnt.toNat :=
  ⟨by decide, fun _ _ => rfl, by decide⟩

/-- `sWord` with its first issue pending. -/
def wordPending (s : State) : State := ran [.agent .controller] (accepted (.writeWord 1) s)

theorem witness_PreVerifyInhibitsTheRequest :
    let s := wordPending sWord
    s.mpend = some (.prog 0x21000 [0xDEAD0000] true false) ∧
    ~~~(0xDEAD0000#32) &&& ~~~(s.flash.word (0x21000 + 4 * 0)) ≠ 0 := by decide +kernel

/-- A burst whose second word fails pre-verify, in no reserved and no locked word. -/
theorem witness_PreVerifyInhibitsTheRequest_burst :
    let s := ran [.agent .controller]
      (accepted (.fastWrite 1) { sBurst with flash := Memory.writeLE [] 0x20014 4 0xFFFFFF00 })
    let ws := [0x0000FFFF#32, 0xFFFF0000#32]
    s.mpend = some (.prog 0x20010 ws true true) ∧
    (∀ i < ws.length, 0x20010 + 4 * i ∉ s.params.reserved ∧ s.locked (0x20010 + 4 * i) = false) ∧
    ∃ i < ws.length, ~~~(ws.getD i 0) &&& ~~~(s.flash.word (0x20010 + 4 * i)) ≠ 0 := by decide +kernel

theorem witness_CommittedPulseProgramsItsWords :
    let s := ran [.agent .controller] (accepted (.fastWrite 1) sBurst)
    let ws := [0x0000FFFF#32, 0xFFFF0000#32]
    s.mpend = some (.prog 0x20010 ws true true) ∧
    (∀ i < ws.length, 0x20010 + 4 * i ∉ s.params.reserved ∧ s.locked (0x20010 + 4 * i) = false) ∧
    (∀ i < ws.length, ~~~(ws.getD i 0) &&& ~~~(s.flash.word (0x20010 + 4 * i)) = 0) := by decide +kernel

/-- Failed bits that the two words of that burst admit, not all of them none. -/
theorem witness_CommittedPulseProgramsItsWords_failed_bits :
    let s := ran [.agent .controller] (accepted (.fastWrite 1) sBurst)
    let ws := [0x0000FFFF#32, 0xFFFF0000#32]
    let fs (i : Nat) : Word := if i = 0 then 0x80010000 else 0x00000001
    (∀ i < ws.length, fs i &&& ~~~(~~~(ws.getD i 0) &&& s.flash.word (0x20010 + 4 * i)) = 0) ∧
    s.locked 0x20010 = false := by decide +kernel

/-- A word request over a locked sector: the request need not be a burst. -/
theorem witness_CommittedPulseProgramsItsWords_locked :
    let s := { wordPending sFresh with weprot1 := 0xFFFFFFFF }
    s.mpend = some (.prog 0x21000 [0xDEADBEEF] true false) ∧ s.locked 0x21000 = true ∧
    ~~~(0xDEADBEEF#32) &&& ~~~(s.flash.word 0x21000) = 0 := by decide +kernel

/-- FW-11 with its second word reserved, and the same burst with its first sector locked. -/
theorem witness_RegionViolationLeavesTheRest :
    let s := ran [.agent .controller]
      (accepted (.fastWrite 1) { sBurst with params := { Config.defaults with reserved := [0x20014] } })
    let ws := [0x0000FFFF#32, 0xFFFF0000#32]
    s.mpend = some (.prog 0x20010 ws true true) ∧ 1 < ws.length ∧ 0x20010 + 4 * 1 ∈ s.params.reserved ∧
    (∀ i < 1, 0x20010 + 4 * i ∉ s.params.reserved ∧ s.locked (0x20010 + 4 * i) = false) ∧
    (∀ i < 1, (0x80000000#32) &&& ~~~(~~~(ws.getD i 0) &&& s.flash.word (0x20010 + 4 * i)) = 0) ∧
    ({ s with weprot1 := 0xFFFFFFFF }).locked (0x20010 + 4 * 0) = true := by decide +kernel

theorem witness_ErasePulseErasesItsSector :
    let s := ran [.agent .controller] (accepted (.erase 1) sSector)
    s.mpend = some (.erase 0x21000) ∧ s.locked (0x21000#32).toNat = false ∧
    ({ s with weprot1 := 0xFFFFFFFF }).locked (0x21000#32).toNat = true := by decide

/-- Unerased bits that the sector admits: the top bit of its first byte, 0x12. -/
theorem witness_ErasePulseErasesItsSector_unerased_bits :
    let s := ran [.agent .controller] (accepted (.erase 1) sSector)
    ∀ k < 4096, (if k = 0 then 0x80#8 else 0) &&& s.flash.read (0x21000 + k) = 0 := by
  intro s k _
  by_cases hk : k = 0
  · subst hk; decide
  · rw [if_neg hk]; exact BitVec.zero_and

theorem witness_PulsesMoveBitsOneWay :
    (wordPending sWord).mpend = some (.prog 0x21000 [0xDEAD0000] true false) ∧
    (ran [.agent .controller] (accepted (.erase 1) sSector)).mpend = some (.erase 0x21000) := by decide +kernel

/-! ### Witnesses: the invariant, and the runs -/

theorem witness_inv_reset : State.reset.Inv := inv_of (by decide) (by decide) (by decide)

theorem witness_inv_word : sWord.Inv := inv_of (by decide +kernel) (by decide +kernel) (by decide +kernel)

theorem witness_inv_fresh : sFresh.Inv := inv_of (by decide +kernel) (by decide +kernel) (by decide +kernel)

theorem witness_inv_burst : sBurst.Inv := inv_of (by decide +kernel) (by decide +kernel) (by decide +kernel)

theorem witness_inv_sector : sSector.Inv := inv_of (by decide +kernel) (by decide +kernel) (by decide +kernel)

theorem witness_inv_pending : (wordPending sWord).Inv := inv_of (by decide +kernel) (by decide +kernel) (by decide +kernel)

/-- The invariant holds of a word with a request pending, of an array between two words, and of a burst about to end; each
has a next step. -/
theorem witness_StepKeepsTheInvariant :
    ((wordPending sWord).Inv ∧ step { wordPending sWord with sched := [.agent .pulseUnit] } =
      .next (after (step { wordPending sWord with sched := [.agent .pulseUnit] }))) ∧
    (arrayWaiting 0).Inv ∧ (burstWaiting 0x10000).Inv :=
  ⟨⟨witness_inv_pending, eq_next_after (by decide +kernel)⟩, inv_of (by decide +kernel) (by decide +kernel) (by decide +kernel), inv_of (by decide +kernel) (by decide +kernel) (by decide +kernel)⟩

theorem witness_StepKeepsMemoriesCanonical :
    let s := { wordPending sFresh with sched := [.agent .pulseUnit] }
    (s.flash.wf = true ∧ s.sysmem.wf = true) ∧ step s = .next (after (step s)) :=
  ⟨by decide +kernel, eq_next_after (by decide +kernel)⟩

theorem witness_PreVerifyFailsOnlyAtTheFirstIssue :
    let s := { wordPending sWord with sched := [.agent .pulseUnit] }
    s.Inv ∧ s.RetryOk ∧ step s = .next (after (step s)) :=
  ⟨inv_of (by decide +kernel) (by decide +kernel) (by decide +kernel), by decide +kernel, eq_next_after (by decide +kernel)⟩

/-- A quiet host: it polls, loads and stores to SYSMEM. -/
def sQuiet : State :=
  { sWord with host := [.load .w32 0x40011018, .store .w8 0x20000000 1, .poll], weprot1 := 0xFFFF0000 }

/-- The host's three operations between the agents' steps. -/
def quietTurns : List Turn :=
  [.agent .host, .agent .controller, .agent .host, .agent .pulseUnit, .agent .controller] ++ onePulse ++ [.agent .host]

theorem witness_quiet : sQuiet.HostQuiet := by
  intro o ho
  simp only [sQuiet, List.mem_cons, List.not_mem_nil, or_false] at ho
  rcases ho with rfl | rfl | rfl
  · exact trivial
  · exact fun h => absurd h.1 (by decide)
  · exact trivial

theorem witness_quiet_inv : sQuiet.Inv := inv_of (by decide +kernel) (by decide +kernel) (by decide +kernel)

theorem witness_quiet_accepted : exec (.writeWord 1) sQuiet = .next (accepted (.writeWord 1) sQuiet) :=
  eq_next_after (by decide +kernel)

/-- The state in which the command of `sQuiet` has ended. -/
def sQuietEnd : State := ran quietTurns (accepted (.writeWord 1) sQuiet)

theorem witness_quiet_run : (accepted (.writeWord 1) sQuiet).runTurns quietTurns = .next sQuietEnd :=
  eq_next_after (by decide +kernel)

theorem witness_quiet_end : sQuietEnd.phase = .idle := by decide +kernel

theorem witness_LockRegistersAreRestored :
    sQuiet.Inv ∧ sQuiet.HostQuiet ∧ Turn.reset ∉ quietTurns ∧
    exec (.writeWord 1) sQuiet = .next (accepted (.writeWord 1) sQuiet) ∧
    (accepted (.writeWord 1) sQuiet).runTurns quietTurns = .next sQuietEnd ∧ sQuietEnd.phase = .idle :=
  ⟨witness_quiet_inv, witness_quiet, by decide, witness_quiet_accepted, witness_quiet_run, witness_quiet_end⟩

/-- The first clause: an unlocked sector, and a step while the command runs. -/
theorem witness_LockRegistersAreRestored_step :
    let s := { wordPending sWord with sched := [.agent .pulseUnit] }
    s.Inv ∧ s.phase ≠ .idle ∧ (∀ rest, s.sched ≠ Turn.reset :: rest) ∧ step s = .next (after (step s)) :=
  ⟨inv_of (by decide +kernel) (by decide +kernel) (by decide +kernel), by decide, fun _ h => (by cases h),
    eq_next_after (by decide +kernel)⟩

/-- With the run of `witness_LockRegistersAreRestored`; the last byte of the declared bank. -/
theorem witness_DeclaredBanksNeverChange :
    InFlash sQuiet.params 0x1FFFF ∧ declares (execbOf (.writeWord 1)) (bankOf sQuiet.params 0x1FFFF) = true := by decide

theorem witness_ArrayChangesOnlyInTheTarget :
    let s := { wordPending sFresh with sched := [.agent .pulseUnit] }
    s.Inv ∧ s.sched ≠ Turn.reset :: [] ∧ step s = .next (after (step s)) ∧
    (after (step s)).flash.read 0x21000 ≠ s.flash.read 0x21000 :=
  ⟨inv_of (by decide +kernel) (by decide +kernel) (by decide +kernel), by decide, eq_next_after (by decide +kernel), by decide +kernel⟩

theorem witness_WriteWordRunsToItsEnd :
    sWord.Inv ∧ sWord.phase = .idle ∧ (1#2) ≠ 0 ∧ WriteAddrValid sWord.params sWord.addr.toNat ∧
    ¬ BankConflict sWord.params sWord.addr.toNat (sWord.addr.toNat + 3) 1 :=
  ⟨witness_inv_word, by decide⟩

/-- L1-3: all zeros to all ones. -/
theorem witness_SetBitAttemptExhausts :
    let s := wordState 0 0xFFFFFFFF [0, 0, 0, 0, 0]
    s.Inv ∧ s.phase = .idle ∧ (1#2) ≠ 0 ∧ WriteAddrValid s.params s.addr.toNat ∧
    ¬ BankConflict s.params s.addr.toNat (s.addr.toNat + 3) 1 ∧ s.data &&& ~~~(s.flash.word s.addr.toNat) ≠ 0 :=
  ⟨inv_of (by decide +kernel) (by decide +kernel) (by decide +kernel), by decide⟩

theorem witness_FreshProgramTakesOneIssue :
    sFresh.Inv ∧ sFresh.phase = .idle ∧ (1#2) ≠ 0 ∧ WriteAddrValid sFresh.params sFresh.addr.toNat ∧
    ¬ BankConflict sFresh.params sFresh.addr.toNat (sFresh.addr.toNat + 3) 1 ∧
    sFresh.flash.word sFresh.addr.toNat = 0xFFFFFFFF ∧ drawWord sFresh.drawValue 0 &&& ~~~sFresh.data = 0 :=
  ⟨witness_inv_fresh, by decide⟩

theorem witness_ProgramOverProgrammedTakesTwoIssues :
    sWord.Inv ∧ sWord.phase = .idle ∧ (1#2) ≠ 0 ∧ WriteAddrValid sWord.params sWord.addr.toNat ∧
    ¬ BankConflict sWord.params sWord.addr.toNat (sWord.addr.toNat + 3) 1 ∧
    sWord.data &&& ~~~(sWord.flash.word sWord.addr.toNat) = 0 ∧
    ~~~sWord.data &&& ~~~(sWord.flash.word sWord.addr.toNat) ≠ 0 ∧
    sWord.tape = 0 :: 0 :: [0, 0, 0] ∧ drawWord 0 0 &&& ~~~sWord.data = 0 :=
  ⟨witness_inv_word, by decide⟩

/-- With `witness_FastWriteAccepted`, all the hypotheses. -/
theorem witness_FastWriteRunsToItsEnd :
    let ds := [0x0000FFFF#32, 0xFFFF0000#32]
    sBurst.Inv ∧ sBurst.phase = .idle ∧ (1#2) ≠ 0 ∧ ds.length = min sBurst.count.toNat 16 ∧ ds ≠ [] ∧
    MassWriteAddrValid sBurst.params sBurst.addr.toNat ds.length ∧ SrcValid sBurst.src.toNat ds.length ∧
    ¬ BankConflict sBurst.params sBurst.addr.toNat (sBurst.addr.toNat + 4 * ds.length - 1) 1 ∧
    ∀ i < ds.length, sBurst.srcRead (sBurst.src.toNat + 4 * i) = some (ds.getD i 0) :=
  ⟨witness_inv_burst, witness_FastWriteAccepted⟩

/-- A source in SYSMEM, disjoint from the target. -/
theorem witness_WriteArrayRunsToItsEnd :
    sBurst.Inv ∧ sBurst.phase = .idle ∧ (1#2) ≠ 0 ∧ sBurst.src.toNat % 4 = 0 ∧
    (∀ b, sBurst.src.toNat ≤ b → b < sBurst.src.toNat + 4 * sBurst.count.toNat → ¬ InWindow sBurst.params b) ∧
    sBurst.addr.toNat + 4 * sBurst.count.toNat ≤ sBurst.src.toNat :=
  ⟨witness_inv_burst, by decide, by decide, by decide,
    fun _ _ h hw => absurd (Nat.lt_of_le_of_lt hw.1 h) (by decide), by decide⟩

theorem witness_EraseRunsToItsEnd :
    sSector.Inv ∧ sSector.phase = .idle ∧ (1#2) ≠ 0 ∧ EraseAddrValid sSector.params sSector.addr.toNat ∧
    ¬ BankConflict sSector.params sSector.addr.toNat (sSector.addr.toNat + 4095) 1 :=
  ⟨witness_inv_sector, by decide⟩

/-! ### Witnesses: the host and reset -/

theorem witness_HostReadsARegister :
    let s r := hostTurn (loadReg Config.defaults r) (wordPending sWord)
    ∀ r ∈ [Reg.cmd, .status, .weprot1], (s r).params.Wf ∧ (s r).HostNext (loadReg (s r).params r) [] [] := by
  decide +kernel

theorem witness_HostWritesARegister :
    let s r := hostTurn (storeReg Config.defaults r 5) sWord
    ∀ r ∈ [Reg.addr, .status, .weprot1],
      (s r).params.Wf ∧ (s r).phase = .idle ∧ (s r).HostNext (storeReg (s r).params r 5) [] [] ∧ r ≠ .cmd := by decide

/-- The last halfword of flash while idle, a declared bank while busy, and the first word above flash. -/
theorem witness_LoadReturnsTheStoredBytes :
    (let s := hostTurn (.load .w16 0x3FFFE) sWord
     s.params.Wf ∧ s.HostNext (.load .w16 0x3FFFE) [] [] ∧ ¬ InWindow s.params 0x3FFFE ∧
       (0x3FFFE#32).toNat % Width.w16.bytes = 0 ∧ InFlash s.params 0x3FFFE ∧ s.phase = .idle) ∧
    (let s := hostTurn (.load .w32 0x100) (accepted (.writeWord 1) sWord)
     s.HostNext (.load .w32 0x100) [] [] ∧ InFlash s.params 0x100 ∧ s.phase ≠ .idle ∧
       declares s.exb (bankOf s.params 0x100) = true) ∧
    (let s := hostTurn (.load .w32 0x40000) (accepted (.writeWord 1) sWord)
     s.HostNext (.load .w32 0x40000) [] [] ∧ ¬ InFlash s.params 0x40000 ∧ ¬ InWindow s.params 0x40000) := by decide

/-- RG-15. -/
theorem witness_FlashLoadIsFreeWhileBusy :
    let s := hostTurn (.load .w32 0x30000) (accepted (.erase 1) sSector)
    s.HostNext (.load .w32 0x30000) [] [] ∧ InFlash s.params 0x30000 ∧ (0x30000#32).toNat % Width.w32.bytes = 0 ∧
    s.phase ≠ .idle ∧ declares s.exb (bankOf s.params 0x30000) = false := by decide

theorem witness_SysmemStoreStoresItsBytes :
    ∀ x ∈ [(Width.w32, 0xFFFFFFFC#32), (.w8, 0x40000#32), (.w16, 0x40011040#32)],
      let s := hostTurn (.store x.1 x.2 0x1234) (accepted (.writeWord 1) sWord)
      s.HostNext (.store x.1 x.2 0x1234) [] [] ∧ ¬ InFlash s.params x.2.toNat ∧ ¬ InWindow s.params x.2.toNat ∧
      x.2.toNat % x.1.bytes = 0 := by decide

/-- The first and the last reserved offset, and a narrow and a misaligned access to a register. -/
theorem witness_WindowAccessFaults :
    (∀ x ∈ [(Width.w8, 0x40011018#32), (.w32, 0x40011001#32), (.w16, 0x4001103E#32)],
      InWindow sWord.params x.2.toNat ∧ (x.1 ≠ .w32 ∨ x.2.toNat % 4 ≠ 0)) ∧
    (InWindow sWord.params 0x4001102C ∧ 0x4001102C % 4 = 0 ∧ 0x2C ≤ 0x4001102C - sWord.params.fpcBase) ∧
    (InWindow sWord.params 0x4001103C ∧ 0x4001103C % 4 = 0 ∧ 0x2C ≤ 0x4001103C - sWord.params.fpcBase) ∧
    ∀ w a v, (hostTurn (.load w a) sWord).HostNext (.load w a) [] [] ∧
      (hostTurn (.store w a v) sWord).HostNext (.store w a v) [] [] ∧
      (hostTurn (.store w a v) sWord).params.Wf ∧ (hostTurn (.store w a v) sWord).phase = .idle :=
  ⟨by decide, ⟨by decide, by decide, Nat.le_sub_of_add_le (by decide)⟩,
    ⟨by decide, by decide, Nat.le_sub_of_add_le (by decide)⟩,
    fun _ _ _ => ⟨⟨rfl, rfl⟩, ⟨rfl, rfl⟩, test_params_defaults, rfl⟩⟩

theorem witness_FlashStoreFaults :
    ∀ x ∈ [(Width.w32, 0x0#32), (.w8, 0x3FFFF#32), (.w16, 0x21001#32)],
      (hostTurn (.store x.1 x.2 7) sWord).HostNext (.store x.1 x.2 7) [] [] ∧
      InFlash (hostTurn (.store x.1 x.2 7) sWord).params x.2.toNat := by decide

theorem witness_MisalignedAccessFaults :
    let s := hostTurn (.load .w32 0x3FFFE) sWord
    let t := hostTurn (.store .w16 0x20000001 7) sWord
    (s.params.Wf ∧ ¬ InWindow s.params 0x3FFFE ∧ (0x3FFFE#32).toNat % Width.w32.bytes ≠ 0 ∧
      s.HostNext (.load .w32 0x3FFFE) [] []) ∧
    (¬ InWindow t.params 0x20000001 ∧ (0x20000001#32).toNat % Width.w16.bytes ≠ 0 ∧
      t.HostNext (.store .w16 0x20000001 7) [] [] ∧ ¬ InFlash t.params 0x20000001) := by decide

theorem witness_PollLoopsWhileBusy :
    let s := hostTurn .poll (accepted (.writeWord 1) sWord)
    let t := hostTurn .poll sWord
    (s.HostNext .poll [] [] ∧ s.phase ≠ .idle) ∧ (t.HostNext .poll [] [] ∧ t.phase = .idle) := by decide

theorem witness_ResetKeepsMemories :
    let s := { accepted (.writeWord 1) sWord with sched := [.reset] }
    s.sched = Turn.reset :: [] ∧ s.mpend = none := by decide

/-- RG-16. -/
theorem witness_ResetCutsOffTheRequest :
    let s := { ran [.agent .controller] (accepted (.erase 1) sSector) with sched := [.reset] }
    s.Inv ∧ s.sched = Turn.reset :: [] ∧ s.mpend ≠ none :=
  ⟨inv_of (by decide +kernel) (by decide +kernel) (by decide +kernel), by decide, by decide⟩

theorem witness_BankChecksAgreeWithBank :
    ∀ a ∈ [0x0, 0x1FFFF, 0x20000, 0x3FFFF], Config.defaults.Wf ∧ InFlash Config.defaults a := by decide

end Sys2Proof.Tests
end

/-! Proofs about the scope rules (spec/00_scope.md): the bank helpers of R15 against the bank checks of R133, and the
controller that is held (R14). -/

namespace Sys2Proof.Machine

/-! ### Banks -/

/-- The flash range has an address only if a bank has a byte. -/
theorem bankSize_pos_of_inFlash {p : Params} {a : Nat} (h : InFlash p a) : 0 < p.bankSize := by
  obtain ⟨hlo, hhi⟩ := h
  unfold Params.flashEnd at hhi
  omega

/-- R15: the division in `bank(a)` is a comparison of the offset with the bank size. -/
theorem bankOf_eq_ite {p : Params} {a : Nat} (hpos : 0 < p.bankSize) :
    bankOf p a = if off p a < p.bankSize then .b0 else .b1 := by
  simp only [bankOf, Nat.div_eq_zero_iff_lt hpos]

theorem bankOf_eq_b0_iff {p : Params} {a : Nat} (hpos : 0 < p.bankSize) :
    bankOf p a = .b0 ↔ off p a < p.bankSize := by
  simp [bankOf_eq_ite hpos]

theorem bankOf_eq_b1_iff {p : Params} {a : Nat} (hpos : 0 < p.bankSize) :
    bankOf p a = .b1 ↔ p.bankSize ≤ off p a := by
  simp [bankOf_eq_ite hpos]

theorem isInBank0_iff {p : Params} {a : Nat} (h : InFlash p a) : IsInBank0 p a ↔ off p a < p.bankSize := by
  obtain ⟨hlo, -⟩ := h
  unfold IsInBank0 off
  omega

theorem isInBank1_iff {p : Params} {a : Nat} (h : InFlash p a) : IsInBank1 p a ↔ p.bankSize ≤ off p a := by
  obtain ⟨hlo, hhi⟩ := h
  unfold IsInBank1 off
  omega

/-- Settles O59: each check and the bank compare the offset with the bank size, and the offset is on one side of it. -/
theorem bankChecksAgreeWithBank : Obligations.BankChecksAgreeWithBank := by
  unfold Obligations.BankChecksAgreeWithBank
  intro p a _ h
  have hpos := bankSize_pos_of_inFlash h
  rw [isInBank0_iff h, isInBank1_iff h, bankOf_eq_b0_iff hpos, bankOf_eq_b1_iff hpos]
  exact ⟨.rfl, .rfl, lt_or_ge _ _, fun ⟨hlt, hge⟩ => hge.not_gt hlt⟩

/-! ### The controller -/

theorem controllerStep_of_idle {s : State} (h : s.phase = .idle) : controllerStep s = .next s := by
  simp [controllerStep, h]

theorem controllerStep_of_wait {s : State} (h : s.phase = .wait) :
    controllerStep s = .next (if s.mfDone then waitStep s else s) := by
  simp [controllerStep, h]

/-- Settles O19, by the two phases in which the controller can be held. -/
theorem controllerIsHeld : Obligations.ControllerIsHeld := by
  unfold Obligations.ControllerIsHeld
  rintro s (hidle | ⟨hwait, hdone⟩)
  · exact controllerStep_of_idle hidle
  · simp [controllerStep_of_wait hwait, hdone]

end Sys2Proof.Machine

/-! Proofs about the state (spec/10_state.md): the status word, the reset values, the host's register stores, the
canonical form of the memories, the invariant, and the issues at which a pre-verify can fail. -/

namespace Sys2Proof.Machine

/-! ### The status word and the reset values -/

/-- A field above the low part of a concatenation is a field of the high part. -/
theorem extractLsb'_append_skip {v w : Nat} (x : BitVec v) (y : BitVec w) (k len : Nat) :
    (x ++ y).extractLsb' (w + k) len = x.extractLsb' k len := by
  rw [BitVec.extractLsb'_append_eq_of_le (Nat.le_add_right w k), Nat.add_sub_cancel_left]

/-- R40: `STATUS.BUSY` is 1 exactly outside IDLE. -/
theorem State.busy_iff (s : State) : s.busy = true ↔ s.phase ≠ .idle := by
  simp [State.busy]

/-- Settles O55: each field is reached by skipping the fields below it. -/
theorem statusWordLayout : Obligations.StatusWordLayout := by
  unfold Obligations.StatusWordLayout
  intro s
  have skipBusy (k n : Nat) : s.status.extractLsb' (1 + k) n =
      (0#20 ++ s.lastop ++ s.errkind ++ 0#2 ++ s.result).extractLsb' k n := extractLsb'_append_skip _ _ k n
  have skipResult (k n : Nat) : (0#20 ++ s.lastop ++ s.errkind ++ 0#2 ++ s.result).extractLsb' (1 + k) n =
      (0#20 ++ s.lastop ++ s.errkind ++ 0#2).extractLsb' k n := extractLsb'_append_skip _ _ k n
  have skipReserved (k n : Nat) : (0#20 ++ s.lastop ++ s.errkind ++ 0#2).extractLsb' (2 + k) n =
      (0#20 ++ s.lastop ++ s.errkind).extractLsb' k n := extractLsb'_append_skip _ _ k n
  have skipErrkind (k n : Nat) : (0#20 ++ s.lastop ++ s.errkind).extractLsb' (4 + k) n =
      (0#20 ++ s.lastop).extractLsb' k n := extractLsb'_append_skip _ _ k n
  have hbusy : s.status.getLsbD 0 = s.busy :=
    (BitVec.getLsbD_append (x := 0#20 ++ s.lastop ++ s.errkind ++ 0#2 ++ s.result)).trans (by simp)
  refine ⟨by rw [hbusy, State.busy_iff], ?_, ?_, ?_, ?_, ?_⟩
  · exact (skipBusy 0 1).trans BitVec.extractLsb'_append_eq_right
  · exact (skipBusy 1 2).trans <| (skipResult 0 2).trans BitVec.extractLsb'_append_eq_right
  · exact (skipBusy 3 4).trans <| (skipResult 2 4).trans <| (skipReserved 0 4).trans BitVec.extractLsb'_append_eq_right
  · exact (skipBusy 7 4).trans <| (skipResult 6 4).trans <| (skipReserved 4 4).trans <| (skipErrkind 0 4).trans
      BitVec.extractLsb'_append_eq_right
  · exact (skipBusy 11 20).trans <| (skipResult 10 20).trans <| (skipReserved 8 20).trans <| (skipErrkind 4 20).trans
      BitVec.extractLsb'_append_eq_left

/-- Settles O56: register by register, then latch by latch. -/
theorem resetValues : Obligations.ResetValues := by
  unfold Obligations.ResetValues
  refine ⟨fun r => ?_, by decide⟩
  cases r <;> decide

/-! ### Parameters (R8) -/

/-- R8: bank size and flash base are whole sectors, and the window's base is a multiple of its size. -/
theorem multiples_of_wf {p : Params} (h : p.Wf) :
    0 < p.bankSize ∧ p.bankSize % 4096 = 0 ∧ p.flashBase % 4096 = 0 ∧ p.fpcBase % 64 = 0 := by
  obtain ⟨hsize, ⟨hbase, -⟩, ⟨hwin, -⟩, -⟩ := h
  have hbank : 0 < p.bankSize ∧ 4096 ∣ p.bankSize := by
    simp only [Params.BankSizeOk, List.mem_cons, List.not_mem_nil, or_false] at hsize
    omega
  have hflash : 4096 ∣ p.flashBase := hbank.2.trans (Nat.dvd_of_mod_eq_zero hbase)
  exact ⟨hbank.1, Nat.mod_eq_zero_of_dvd hbank.2, Nat.mod_eq_zero_of_dvd hflash, hwin⟩

/-- R60: a flash address is a 32-bit address. -/
theorem InFlash.lt_addressSpace {p : Params} {a : Nat} (hp : p.Wf) (h : InFlash p a) : a < 2 ^ 32 := by
  obtain ⟨-, ⟨-, hend⟩, -, -⟩ := hp
  exact Nat.lt_of_lt_of_le h.2 hend

/-- R15: with a whole sector's base, flash has the whole sector. -/
theorem InFlash.of_sector {p : Params} {a b : Nat} (hp : p.Wf) (h : EraseAddrValid p a) (hlo : a ≤ b)
    (hhi : b < a + Config.sectorSize) : InFlash p b := by
  obtain ⟨-, hsize, hbase, -⟩ := multiples_of_wf hp
  obtain ⟨halign, hin⟩ := h
  simp only [InFlash, Params.flashEnd, Config.sectorSize] at *
  omega

/-- R15: with a word's address, flash has the whole word. -/
theorem InFlash.of_word {p : Params} {a b : Nat} (hp : p.Wf) (h : WriteAddrValid p a) (hlo : a ≤ b)
    (hhi : b < a + 4) : InFlash p b := by
  obtain ⟨-, hsize, hbase, -⟩ := multiples_of_wf hp
  obtain ⟨halign, hin⟩ := h
  simp only [InFlash, Params.flashEnd] at *
  omega

/-! ### The host's register stores -/

theorem offset_le (r : Reg) : r.offset ≤ 40 := by cases r <;> decide

theorem offset_mod (r : Reg) : r.offset % 4 = 0 := by cases r <;> decide

/-- R20: the register map is inverted by its offsets. -/
theorem ofOffset_offset (r : Reg) : Reg.ofOffset r.offset = some r := by cases r <;> rfl

/-- R108: the address of a register, without wrap-around. -/
theorem toNat_regAddr {p : Params} (hp : p.Wf) (r : Reg) : (regAddr p r).toNat = p.fpcBase + r.offset := by
  obtain ⟨-, -, ⟨-, hend, -⟩, -⟩ := hp
  have := offset_le r
  simp only [Config.windowSize, Config.addressSpace] at hend
  rw [regAddr, BitVec.toNat_ofNat, Nat.mod_eq_of_lt (by omega)]

/-- R60: a register's address lies in the window's region. -/
theorem regionOf_regAddr {p : Params} (hp : p.Wf) (r : Reg) : regionOf p (regAddr p r).toNat = .window := by
  rw [toNat_regAddr hp]
  obtain ⟨-, -, ⟨-, -, hdisj⟩, -⟩ := hp
  have := offset_le r
  simp only [Config.windowSize] at hdisj
  rw [regionOf, if_neg (by simp only [InFlash]; omega), if_pos (by simp only [InWindow, Config.windowSize]; omega)]

/-- R66: a 32-bit access at a register's address is admitted. -/
theorem admitted_regAddr {p : Params} (hp : p.Wf) (r : Reg) : admitted .w32 (regAddr p r) = true := by
  obtain ⟨-, -, -, hwin⟩ := multiples_of_wf hp
  have := offset_mod r
  simp only [admitted, aligned, toNat_regAddr hp, Width.bytes, Bool.and_eq_true, beq_iff_eq]
  exact ⟨trivial, by omega⟩

/-- R150: a host store to a register other than `CMD`, while idle, is the register's write. -/
theorem hostStore_regAddr {s : State} {r : Reg} {v : Word} (hp : s.params.Wf) (hidle : s.phase = .idle)
    (hr : r ≠ .cmd) : hostStore .w32 (regAddr s.params r) v s = .next (s.writeReg r v) := by
  have hbusy : s.busy = false := by simp [State.busy, hidle]
  have hofs : (regAddr s.params r).toNat - s.params.fpcBase = r.offset := by rw [toNat_regAddr hp]; omega
  rw [hostStore, regionOf_regAddr hp]
  simp only [storeWindow, hbusy, admitted_regAddr hp, hofs, ofOffset_offset]
  cases r with
  | cmd => exact absurd rfl hr
  | _ => rfl

/-- Settles O47: the store reaches the register's write, and each register's write is as the statement says. -/
theorem hostWritesARegister : Obligations.HostWritesARegister := by
  unfold Obligations.HostWritesARegister
  intro s r v rest ops hp hidle hnext hr
  obtain ⟨hsched, hhost⟩ := hnext
  have hstep : step s = hostStore .w32 (regAddr s.params r) v (s.taken rest ops) := by
    rw [step_of_sched hsched, agentStep, hostStep, hhost]; rfl
  have hstore : hostStore .w32 (regAddr s.params r) v (s.taken rest ops) = .next ((s.taken rest ops).writeReg r v) :=
    hostStore_regAddr (s := s.taken rest ops) hp hidle hr
  rw [hstep, hstore]
  cases r <;> rfl

/-! ### Hardwired lock bits (R27) -/

/-- A lock register's update under a mask off the bits `h` keeps them 1, whatever is put back. -/
theorem hardwired_kept {w m h : Word} (hw : w &&& h = h) (hm : m &&& h = 0) (x : Word) :
    (w &&& ~~~m ||| x) &&& h = h := by
  ext i hi
  have hwi := congrArg (·[i]) hw
  have hmi := congrArg (·[i]) hm
  simp at hwi hmi ⊢
  cases hh : h[i] <;> simp_all

/-- R27: the hardwired bits are those at or above `NSECT`. -/
theorem getLsbD_hardwired (p : Params) {i : Nat} (hi : i < 32) :
    (hardwired p).getLsbD i = decide (p.nsect ≤ i) := by
  rw [hardwired, BitVec.getLsbD_not, BitVec.getLsbD_ofNat, Nat.testBit_two_pow_sub_one]
  rcases Nat.lt_or_ge i p.nsect with h | h <;> simp [hi, h]

/-- R15, R27: a sector's lock bit is never a hardwired one. -/
theorem lockMask_and_hardwired {p : Params} (hp : p.Wf) (lo hi : Nat) : lockMask p lo hi &&& hardwired p = 0 := by
  obtain ⟨hpos, hsize, -, -⟩ := multiples_of_wf hp
  have hsect (a : Nat) : sidx p a < p.nsect := by
    have := Nat.mod_lt (off p a) hpos
    unfold sidx Params.nsect Config.sectorSize
    omega
  have := hsect lo
  have := hsect hi
  apply BitVec.eq_of_getLsbD_eq
  intro i hi32
  rw [BitVec.getLsbD_and, getLsbD_hardwired p hi32]
  simp only [lockMask, BitVec.getLsbD_or, BitVec.getLsbD_shiftLeft, BitVec.getLsbD_one]
  simp
  omega

theorem hardwiredOk_iff (s : State) :
    s.HardwiredOk ↔ ∀ b, s.weprot b &&& hardwired s.params = hardwired s.params :=
  ⟨fun ⟨h0, h1⟩ b => by cases b; exacts [h0, h1], fun h => ⟨h .b0, h .b1⟩⟩

/-- R162: what an unlock leaves in each lock register. -/
theorem weprot_unlock (s : State) (lo hi : Nat) (b : Bank) :
    (s.unlock lo hi).weprot b =
      if bankOf s.params lo = b then s.weprot b &&& ~~~lockMask s.params lo hi else s.weprot b := by
  cases b <;> cases hb : bankOf s.params lo <;> simp [State.weprot, hb]

/-- R162: what an unlock saves, and that its sectors are then unlocked. -/
theorem unlock_save (s : State) (lo hi : Nat) :
    (s.unlock lo hi).lkSave &&& lockMask s.params lo hi = (s.unlock lo hi).lkSave ∧
      (s.unlock lo hi).weprot (bankOf s.params lo) &&& lockMask s.params lo hi = 0 := by
  rw [weprot_unlock, if_pos rfl]
  constructor <;> ext i hi <;> simp

/-- R27, R162: an unlock leaves the hardwired bits 1. -/
theorem hardwiredOk_unlock {s : State} (hp : s.params.Wf) (h : s.HardwiredOk) (lo hi : Nat) :
    (s.unlock lo hi).HardwiredOk := by
  rw [hardwiredOk_iff] at h ⊢
  intro b
  rw [weprot_unlock, State.unlock_params]
  split
  · simpa using hardwired_kept (h b) (lockMask_and_hardwired hp lo hi) 0
  · exact h b

/-- R27, R163: a restore under a mask off the hardwired bits leaves them 1. -/
theorem hardwiredOk_restore {s : State} (h : s.HardwiredOk) (hm : s.lkMask &&& hardwired s.params = 0) :
    s.restore.HardwiredOk := by
  rw [hardwiredOk_iff] at h ⊢
  intro b
  rw [State.restored_lock, State.restore_params]
  split
  · exact hardwired_kept (h b) hm _
  · exact h b

/-! ### The span of a request (R48, R71, R302) -/

/-- R48: the first byte of a request. -/
def Request.base : Request → Nat
  | .prog ta _ _ _ => ta.toNat
  | .erase ta => ta.toNat

/-- R48: the number of bytes of a request. -/
def Request.size : Request → Nat
  | .prog _ ws _ _ => 4 * ws.length
  | .erase _ => Config.sectorSize

/-- R302: a reset that cuts off a request fills its span. -/
theorem cutOff_eq_fill (d : Nat) (r : Request) (m : Memory) : ∃ f, cutOff d r m = m.fill r.base r.size f := by
  cases r with
  | prog ta ws pre burst => exact ⟨_, by simp only [cutOff, Memory.putWords, List.length_map, List.length_range]; rfl⟩
  | erase ta => exact ⟨_, rfl⟩

/-- R71, R75, R77: a completion ends the request, may set a flag, and changes the array at most in the request's
span. -/
theorem complete_eq (d : Nat) (r : Request) (s : State) :
    ∃ m pre regv, complete d r s = { s.completed with flash := m, mfPre := pre, mfRegv := regv } ∧
      (m = s.flash ∨ ∃ f, m = s.flash.fill r.base r.size f) := by
  cases r with
  | prog ta ws pre burst =>
    have fills (ws' : List Word) (h : ws'.length = ws.length) :
        ∃ f, s.flash.putWords ta.toNat ws' = s.flash.fill (Request.prog ta ws pre burst).base
          (Request.prog ta ws pre burst).size f :=
      ⟨_, by rw [Memory.putWords, h]; rfl⟩
    obtain ⟨v, -, -, h⟩ | ⟨-, -, -, h⟩ | ⟨-, -, h⟩ := completeProg_cases d ta.toNat ws pre burst s
    · exact ⟨_, s.mfPre, true, h, .inr (fills _ (length_violatedWords ..))⟩
    · exact ⟨_, true, s.mfRegv, h, .inl rfl⟩
    · exact ⟨_, s.mfPre, s.mfRegv, h, .inr (fills _ (length_pulsedWords ..))⟩
  | erase ta =>
    obtain ⟨-, h⟩ | ⟨-, h⟩ := completeErase_cases d ta.toNat s
    · exact ⟨_, s.mfPre, s.mfRegv, h, .inl rfl⟩
    · exact ⟨_, s.mfPre, s.mfRegv, h, .inr ⟨_, rfl⟩⟩

/-! ### What an accepted command can do -/

/-- R151, R152, R155: everything that a command stored while idle can do without a fault. -/
inductive CommandOutcome (s : State) : State → Prop where
  /-- R151. -/
  | unchanged : CommandOutcome s s
  /-- R152, R157: a command with no acceptance part. -/
  | reported (lastop : BitVec 4) (r : BitVec 1) (k : ErrKind) (hk : r = 0 ↔ k = .none) :
      CommandOutcome s (s.report lastop r k)
  /-- R160: the command ends in its acceptance step. -/
  | ended (o : Op) (e : BitVec 2) (r : BitVec 1) (k : ErrKind) (hk : r = 0 ↔ k = .none) :
      CommandOutcome s ((s.accept o e).finish r k 0)
  /-- R171. -/
  | word (e : BitVec 2) (he : e ≠ 0) (hvalid : WriteAddrValid s.params s.addr.toNat)
      (hbank : ¬ BankConflict s.params s.addr.toNat (s.addr.toNat + 3) e) :
      CommandOutcome s ((s.accept .writeWord e).startProgram s.addr.toNat [s.data] false)
  /-- R201. -/
  | array (e : BitVec 2) (he : e ≠ 0) :
      CommandOutcome s
        { s.accept .writeArray e with
          aBase := s.addr, aSrc := s.src, aCount := s.count, aIdx := 0, phase := .next }
  /-- R217. -/
  | burst (e : BitVec 2) (he : e ≠ 0) (ds : List Word) (hpos : ds ≠ []) (hmax : ds.length ≤ 16)
      (hvalid : MassWriteAddrValid s.params s.addr.toNat ds.length)
      (hbank : ¬ BankConflict s.params s.addr.toNat (s.addr.toNat + 4 * ds.length - 1) e) :
      CommandOutcome s ((s.accept .fastWrite e).startProgram s.addr.toNat ds true)
  /-- R241. -/
  | erase (e : BitVec 2) (he : e ≠ 0) (hvalid : EraseAddrValid s.params s.addr.toNat)
      (hbank : ¬ BankConflict s.params s.addr.toNat (s.addr.toNat + 4095) e) :
      CommandOutcome s
        { (s.accept .erase e).unlock s.addr.toNat (s.addr.toNat + 4095) with
          ta := s.addr, pcnt := 0, phase := .issue }

theorem acceptWriteWord_outcome (s : State) {e : BitVec 2} (he : e ≠ 0) :
    CommandOutcome s (acceptWriteWord (s.accept .writeWord e)) := by
  obtain ⟨-, h⟩ | ⟨-, -, h⟩ | ⟨hvalid, hbank, h⟩ := acceptWriteWord_cases (s.accept .writeWord e) <;> rw [h]
  · exact .ended .writeWord e 1 .invalidAddress (by simp)
  · exact .ended .writeWord e 1 .bankConflict (by simp)
  · exact .word e he hvalid hbank

theorem acceptWriteArray_outcome (s : State) {e : BitVec 2} (he : e ≠ 0) :
    CommandOutcome s (acceptWriteArray (s.accept .writeArray e)) := by
  obtain ⟨-, h⟩ | ⟨-, h⟩ := acceptWriteArray_cases (s.accept .writeArray e) <;> rw [h]
  · exact .ended .writeArray e 1 .invalidAddress (by simp)
  · exact .array e he

theorem acceptFastWrite_outcome {s t : State} {e : BitVec 2} (he : e ≠ 0)
    (h : acceptFastWrite (s.accept .fastWrite e) = .next t) : CommandOutcome s t := by
  obtain ⟨-, rfl⟩ | ⟨-, -, rfl⟩ | ⟨-, -, rfl⟩ | ⟨hpos, hvalid, -, hbank, ds, hds, rfl⟩ := acceptFastWrite_next h
  · exact .ended .fastWrite e 0 .none (by simp)
  · exact .ended .fastWrite e 1 .invalidAddress (by simp)
  · exact .ended .fastWrite e 1 .bankConflict (by simp)
  · have hlen := State.length_srcWords hds
    rw [← hlen] at hvalid hbank hpos
    refine .burst e he ds (fun h => hpos (by simp [h])) ?_ hvalid hbank
    rw [hlen]
    exact Nat.min_le_right _ _

theorem acceptErase_outcome (s : State) {e : BitVec 2} (he : e ≠ 0) :
    CommandOutcome s (acceptErase (s.accept .erase e)) := by
  obtain ⟨-, h⟩ | ⟨-, -, h⟩ | ⟨hvalid, hbank, h⟩ := acceptErase_cases (s.accept .erase e) <;> rw [h]
  · exact .ended .erase e 1 .invalidAddress (by simp)
  · exact .ended .erase e 1 .bankConflict (by simp)
  · exact .erase e he hvalid hbank

/-- A command that answers a next state was stored while idle, and did one of the things listed. -/
theorem exec_outcome {i : Instr} {s t : State} (h : exec i s = .next t) : s.phase = .idle ∧ CommandOutcome s t := by
  obtain ⟨hidle, h⟩ := exec_next h
  refine ⟨hidle, ?_⟩
  obtain ⟨e, -, rfl⟩ | ⟨e, -, rfl⟩ | ⟨-, rfl⟩ | ⟨e, -, he, rfl⟩ | ⟨e, -, he, rfl⟩ | ⟨e, -, he, h⟩ | ⟨e, -, he, rfl⟩ := h
  · exact .unchanged
  · exact .reported 1 0 .none (by simp)
  · exact .reported _ 1 .illegalCommand (by simp)
  · exact acceptWriteWord_outcome s he
  · exact acceptWriteArray_outcome s he
  · exact acceptFastWrite_outcome he h
  · exact acceptErase_outcome s he

/-! ### What a host step can do -/

/-- A state up to the model's own record of the host and of the order of steps (logs 1 to 3). -/
def State.recorded (s : State) (rdata : Word) (host : List HostOp) (sched : List Turn) (tape : List Nat) (drawn : Nat) :
    State :=
  { s with rdata := rdata, host := host, sched := sched, tape := tape, drawn := drawn }

/-- R6, R108, R110: everything that a host step can do without a fault. -/
inductive HostOutcome (s : State) : State → Prop where
  /-- R64, R84, R110, R153: a load, a pass of `POLL`, or no step. -/
  | recorded (v : Word) (ops : List HostOp) (tape : List Nat) (drawn : Nat) :
      HostOutcome s (s.recorded v ops s.sched tape drawn)
  /-- R67. -/
  | stored (ops : List HostOp) (w : Width) (a v : Word) (hregion : regionOf s.params a.toNat = .sysmem)
      (halign : aligned w a = true) :
      HostOutcome s { s with host := ops, sysmem := s.sysmem.writeLE a.toNat w.bytes v }
  /-- R150. -/
  | wrote (ops : List HostOp) (r : Reg) (v : Word) (hidle : s.phase = .idle) :
      HostOutcome s (State.writeReg r v { s with host := ops })
  /-- R104, R155. -/
  | commanded (ops : List HostOp) (t : State) (hidle : s.phase = .idle) (h : CommandOutcome { s with host := ops } t) :
      HostOutcome s t

theorem storeCmd_outcome {c : Word} {s t : State} (h : storeCmd c s = .next t) : CommandOutcome s t := by
  obtain ⟨i, -, h⟩ | ⟨-, rfl⟩ := storeCmd_next h
  · exact (exec_outcome h).2
  · exact .reported _ 1 .illegalCommand (by simp)

/-- R6: a host step that does not fault did one of the things listed. -/
theorem hostStep_outcome {s t : State} (h : hostStep s = .next t) : HostOutcome s t := by
  unfold hostStep at h
  split at h
  case h_1 =>
    cases h
    exact .recorded s.rdata s.host s.tape s.drawn
  case h_2 o ops _ =>
    cases o with
    | store w a v =>
      obtain ⟨-, h⟩ | ⟨hregion, halign, rfl⟩ := hostStore_next h
      · obtain ⟨hidle, h | ⟨r, -, rfl⟩⟩ := storeWindow_next h
        · exact .commanded ops t hidle (storeCmd_outcome h)
        · exact .wrote ops r v hidle
      · exact .stored ops w a v hregion halign
    | load w a =>
      obtain ⟨v, rfl | rfl⟩ := hostLoad_next h
      · exact .recorded v ops s.tape s.drawn
      · exact .recorded v ops s.tape.tail (s.drawn + 1)
    | poll =>
      cases h
      rw [hostPoll_eq]
      exact .recorded s.status _ s.tape s.drawn

/-! ### What a wait step can do -/

/-- R43, R174, R220: how many words the wait step of a word or burst compares. -/
def State.laneCount (s : State) : Nat := if s.op = .fastWrite then min s.n.toNat 16 else 1

/-- A state up to the words to issue next and whether they are pre-verified (R174, R220). -/
def State.corrected (s : State) (ws : Vector Word 16) (pre : Bool) : State := { s with wiss := ws, preEn := pre }

/-- R172, R173, R175: no word that a wait step corrected fails pre-verify on the array as it is. -/
def State.NoPreFail (s : State) (ws : Vector Word 16) : Prop :=
  ∀ i < s.laneCount, preFails (ws.toList.getD i 0) (s.flash.word (s.ta.toNat + 4 * i)) = false

/-- R174, R220, R244: everything that a wait step can do. -/
inductive WaitOutcome (s : State) : State → Prop where
  /-- R159: no operation is in progress (log 14). -/
  | held (hop : s.op = .none) : WaitOutcome s s
  /-- R176, R224, R246: another issue. -/
  | again (ws : Vector Word 16) (pre : Bool) (hcap : s.pcnt.toNat < s.cap)
      (hpre : s.op ≠ .erase → pre = true → s.NoPreFail ws) :
      WaitOutcome s { s.corrected ws pre with phase := .issue }
  /-- R160: the end of WRITE_WORD, WRITE_ARRAY or ERASE. -/
  | ended (ws : Vector Word 16) (pre : Bool) (r : BitVec 1) (k : ErrKind) (w : Word) (hop : s.op ≠ .fastWrite)
      (hk : r = 0 ↔ k = .none) : WaitOutcome s ((s.corrected ws pre).finish r k w)
  /-- R160, R220: the end of FAST_WRITE. -/
  | burstEnded (ws : Vector Word 16) (pre : Bool) (r : BitVec 1) (k : ErrKind) (w : Word)
      (hk : r = 0 ↔ k = .none) : WaitOutcome s ((s.corrected ws pre).finishBurst r k w)
  /-- R205: WRITE_ARRAY goes on to its next word. -/
  | wordEnded (hop : s.op = .writeArray) :
      WaitOutcome s { s.restore with aIdx := s.aIdx + 1, written := s.aIdx + 1, phase := .next }

/-- R173: a word corrected after a post-verify failure programs only bits that read 1. -/
theorem preFails_postCorrect (r e : Word) : preFails (postCorrect r e) e = false := by
  have : ~~~(postCorrect r e) &&& ~~~e = 0 := by
    ext i hi
    simp [postCorrect]
  simp [preFails, this]

/-- R219, R220: a lane of a burst corrected after a post-verify failure. -/
theorem getD_setLanes_postCorrect (v s : Vector Word 16) (m : Memory) (a : Nat) (n : BitVec 5) {i : Nat}
    (hi : i < min n.toNat 16) :
    (setLanes v (List.zipWith postCorrect (lanes s n) (m.words a (lanes s n).length))).toList.getD i 0 =
      postCorrect (s.toList.getD i 0) (m.word (a + 4 * i)) := by
  have hi16 : i < 16 := by omega
  have hin : i < n.toNat := by omega
  simp [setLanes, lanes, Memory.words, hi16, hin]

/-- R176, R224, R246: a retry with corrected words issues them again, or ends as its exit does. -/
theorem retry_outcome {s : State} {ex : State → State} {ws : Vector Word 16} {pre : Bool} {cap : Nat}
    (hcap : cap = s.cap) (hpre : s.op ≠ .erase → pre = true → s.NoPreFail ws)
    (hex : WaitOutcome s (ex (s.corrected ws pre))) :
    WaitOutcome s (retry cap ex (s.corrected ws pre)) := by
  obtain ⟨hlt, h⟩ | ⟨-, h⟩ := retry_cases cap ex (s.corrected ws pre) <;> rw [h]
  · exact .again ws pre (hcap ▸ hlt) hpre
  · exact hex

theorem wordExhausted_outcome {s : State} (hop : s.op ≠ .fastWrite) (ws : Vector Word 16) (pre : Bool) :
    WaitOutcome s (wordExhausted (s.corrected ws pre)) := by
  unfold wordExhausted
  split
  · exact .ended ws pre 1 .verifyExhausted _ hop (by simp)
  · exact .ended ws pre 1 .verifyExhausted _ hop (by simp)

/-- R174: the wait step of a word, in the terms of every wait step. -/
theorem waitWord_outcome {s : State} (hop : s.op = .writeWord ∨ s.op = .writeArray) : WaitOutcome s (waitWord s) := by
  have hcap : Config.maxProgramPulses = s.cap := by rcases hop with h | h <;> simp [State.cap, h]
  have hcount : s.laneCount = 1 := by rcases hop with h | h <;> simp [State.laneCount, h]
  have hburst : s.op ≠ .fastWrite := by rcases hop with h | h <;> simp [h]
  obtain ⟨-, h⟩ | ⟨-, -, h⟩ | ⟨-, -, h⟩ := waitWord_cases s <;> rw [h]
  · exact retry_outcome hcap (by simp) (wordExhausted_outcome hburst _ _)
  · refine retry_outcome (pre := s.preEn) hcap (fun _ _ i hi => ?_) (wordExhausted_outcome hburst _ _)
    obtain rfl : i = 0 := by omega
    simp [setLanes, preFails_postCorrect]
  · unfold wordSuccess
    split
    · exact .wordEnded ‹_›
    · exact .ended s.wiss s.preEn 0 .none 1 hburst (by simp)

/-- R220: the wait step of a burst, in the terms of every wait step. -/
theorem waitBurst_outcome {s : State} (hop : s.op = .fastWrite) : WaitOutcome s (waitBurst s) := by
  have hcap : Config.maxProgramPulses = s.cap := by simp [State.cap, hop]
  obtain ⟨-, h⟩ | ⟨-, -, h⟩ | ⟨-, -, -, h⟩ | ⟨-, -, -, h⟩ := waitBurst_cases s <;> rw [h]
  · exact .burstEnded s.wiss s.preEn 1 .regionLockViolation 0 (by simp)
  · exact retry_outcome hcap (by simp) (.burstEnded _ _ 1 .verifyExhausted 0 (by simp))
  · refine retry_outcome (pre := s.preEn) hcap (fun _ _ i hi => ?_) (.burstEnded _ _ 1 .verifyExhausted 0 (by simp))
    rw [State.laneCount, if_pos hop] at hi
    rw [getD_setLanes_postCorrect _ _ _ _ _ hi, preFails_postCorrect]
  · exact .burstEnded s.wiss s.preEn 0 .none _ (by simp)

/-- R244: the wait step of an erase, in the terms of every wait step. -/
theorem waitErase_outcome {s : State} (hop : s.op = .erase) : WaitOutcome s (waitErase s) := by
  have hcap : Config.maxErasePulses = s.cap := by simp [State.cap, hop]
  have hburst : s.op ≠ .fastWrite := by simp [hop]
  obtain ⟨-, h⟩ | ⟨-, h⟩ := waitErase_cases s <;> rw [h]
  · exact .ended s.wiss s.preEn 0 .none 0 hburst (by simp)
  · exact retry_outcome (ws := s.wiss) (pre := s.preEn) hcap (fun h => absurd hop h)
      (.ended s.wiss s.preEn 1 .verifyExhausted 0 hburst (by simp))

/-- R159: a wait step does one of the things listed. -/
theorem waitStep_outcome (s : State) : WaitOutcome s (waitStep s) := by
  unfold waitStep
  split
  · exact waitWord_outcome (.inl ‹_›)
  · exact waitWord_outcome (.inr ‹_›)
  · exact waitBurst_outcome ‹_›
  · exact waitErase_outcome ‹_›
  · exact .held ‹_›

/-! ### The canonical form of the memories (R49, R50) -/

/-- Both memories are the same data. -/
def State.SameMemories (s t : State) : Prop := t.flash = s.flash ∧ t.sysmem = s.sysmem

/-- Both memories are in canonical form (log 6). -/
def State.Canonical (s : State) : Prop := s.flash.wf = true ∧ s.sysmem.wf = true

theorem State.Canonical.of_same {s t : State} (h : s.Canonical) (hst : s.SameMemories t) : t.Canonical := by
  obtain ⟨hflash, hsysmem⟩ := hst
  rwa [State.Canonical, hflash, hsysmem]

/-- R155: a command touches no memory in its acceptance step. -/
theorem CommandOutcome.sameMemories {s t : State} (h : CommandOutcome s t) : s.SameMemories t := by
  cases h <;> constructor <;> simp

/-- R159: a wait step touches no memory. -/
theorem WaitOutcome.sameMemories {s t : State} (h : WaitOutcome s t) : s.SameMemories t := by
  cases h <;> constructor <;> simp [State.corrected]

/-- R203: a NEXT step touches no memory. -/
theorem nextWord_sameMemories {s t : State} (h : nextWord s = .next t) : s.SameMemories t := by
  obtain ⟨-, rfl⟩ | ⟨-, -, rfl⟩ | ⟨-, -, rfl⟩ | ⟨-, -, -, d, -, rfl⟩ := nextWord_next h <;> constructor <;> simp

/-- R69: the controller touches no memory. -/
theorem controllerStep_sameMemories {s t : State} (h : controllerStep s = .next t) : s.SameMemories t := by
  obtain ⟨-, -, rfl⟩ | ⟨-, -, rfl⟩ | ⟨-, h⟩ | rfl := controllerStep_next h
  · exact ⟨rfl, rfl⟩
  · exact (waitStep_outcome s).sameMemories
  · exact nextWord_sameMemories h
  · exact ⟨rfl, rfl⟩

theorem writeReg_sameMemories (r : Reg) (v : Word) (s : State) : s.SameMemories (s.writeReg r v) := by
  cases r <;> exact ⟨rfl, rfl⟩

theorem HostOutcome.canonical {s t : State} (hs : s.Canonical) (h : HostOutcome s t) : t.Canonical := by
  cases h with
  | recorded => exact hs
  | stored ops w a v => exact ⟨hs.1, Memory.wf_writeLE hs.2 _ _ _⟩
  | wrote ops r v => exact State.Canonical.of_same (s := { s with host := ops }) hs (writeReg_sameMemories ..)
  | commanded ops _ _ h => exact State.Canonical.of_same (s := { s with host := ops }) hs h.sameMemories

theorem pulseUnitStep_canonical {s : State} (hs : s.Canonical) : (pulseUnitStep s).Canonical := by
  obtain ⟨hflash, hsysmem⟩ := hs
  obtain ⟨-, h⟩ | ⟨r, -, h⟩ := pulseUnitStep_cases s <;> rw [h]
  · exact ⟨hflash, hsysmem⟩
  · obtain ⟨m, pre, regv, h, rfl | ⟨f, rfl⟩⟩ := complete_eq s.drawValue r s.drawNext <;> rw [h]
    · exact ⟨hflash, hsysmem⟩
    · exact ⟨Memory.wf_fill hflash _ _ _, hsysmem⟩

theorem agentStep_canonical {a : Agent} {s t : State} (hs : s.Canonical) (h : agentStep a s = .next t) :
    t.Canonical := by
  cases a with
  | host => exact (hostStep_outcome h).canonical hs
  | controller => exact hs.of_same (controllerStep_sameMemories h)
  | pulseUnit => cases h; exact pulseUnitStep_canonical hs

theorem resetStep_canonical {s : State} (hs : s.Canonical) : (resetStep s).Canonical := by
  unfold resetStep
  split
  case h_1 => exact hs
  case h_2 r _ =>
    obtain ⟨f, hf⟩ := cutOff_eq_fill s.drawValue r s.flash
    rw [hf]
    exact ⟨Memory.wf_fill hs.1 _ _ _, hs.2⟩

/-- Settles O34: every change of a memory is a fill, and a fill keeps the canonical form. -/
theorem stepKeepsMemoriesCanonical : Obligations.StepKeepsMemoriesCanonical := by
  unfold Obligations.StepKeepsMemoriesCanonical
  intro s t hflash hsysmem h
  have hs : s.Canonical := ⟨hflash, hsysmem⟩
  obtain ⟨rest, -, hreset⟩ | ⟨a, q, d, hagent⟩ := step_cases s
  · rw [hreset] at h
    cases h
    exact resetStep_canonical (s := { s with sched := rest }) hs
  · exact agentStep_canonical (s := { s with sched := q, drawn := d }) hs (hagent ▸ h)

/-! ### What a completion or a start rests on -/

/-- The parts of the invariant that do not speak of the command in progress, with no request pending. -/
structure State.Ready (s : State) : Prop where
  params : s.params.Wf
  memories : s.MemoriesOk
  hardwiredOk : s.HardwiredOk
  mask : s.lkHeld = true → s.lkMask &&& hardwired s.params = 0
  request : s.mpend = none
  count : s.pcnt.toNat ≤ Config.maxErasePulses

/-- R155: what acceptance leaves in the report and the latches. -/
structure State.Accepted (s : State) : Prop where
  result : s.result = 0
  errkind : s.errkind = 0
  op : s.op ≠ .none
  lastop : s.lastop = s.op.code
  declared : s.exb ≠ 0

theorem State.MemoriesOk.of_eq {s t : State} (h : s.MemoriesOk) (hp : t.params = s.params) (hf : t.flash = s.flash)
    (hs : t.sysmem = s.sysmem) : t.MemoriesOk := by
  rwa [State.MemoriesOk, hp, hf, hs]

theorem State.HardwiredOk.of_eq {s t : State} (h : s.HardwiredOk) (hp : t.params = s.params)
    (h0 : t.weprot0 = s.weprot0) (h1 : t.weprot1 = s.weprot1) : t.HardwiredOk := by
  rwa [State.HardwiredOk, hp, h0, h1]

theorem State.Ready.of_eq {s t : State} (h : s.Ready) (hp : t.params = s.params) (hm : t.MemoriesOk)
    (hw : t.HardwiredOk) (hheld : t.lkHeld = s.lkHeld) (hmask : t.lkMask = s.lkMask) (hreq : t.mpend = s.mpend)
    (hcount : t.pcnt.toNat ≤ Config.maxErasePulses) : t.Ready where
  params := hp ▸ h.params
  memories := hm
  hardwiredOk := hw
  mask := by rw [hheld, hmask, hp]; exact h.mask
  request := hreq ▸ h.request
  count := hcount

theorem State.Ready.report {s : State} (h : s.Ready) (l : BitVec 4) (r : BitVec 1) (k : ErrKind) :
    (s.report l r k).Ready :=
  h.of_eq rfl h.memories h.hardwiredOk rfl rfl rfl (by simp)

theorem State.Ready.accept {s : State} (h : s.Ready) (o : Op) (e : BitVec 2) : (s.accept o e).Ready :=
  h.of_eq rfl h.memories h.hardwiredOk rfl rfl rfl (by simp)

theorem State.Ready.corrected {s : State} (h : s.Ready) (ws : Vector Word 16) (pre : Bool) :
    (s.corrected ws pre).Ready :=
  h.of_eq rfl h.memories h.hardwiredOk rfl rfl rfl h.count

/-- R155: acceptance is read off the report and the latches. -/
theorem State.Accepted.of_eq {s t : State} (h : s.Accepted) (hr : t.result = s.result) (hk : t.errkind = s.errkind)
    (ho : t.op = s.op) (hl : t.lastop = s.lastop) (he : t.exb = s.exb) : t.Accepted :=
  ⟨hr ▸ h.result, hk ▸ h.errkind, ho ▸ h.op, by rw [hl, ho, h.lastop], he ▸ h.declared⟩

/-- R23, R270: the error kind is one the block reports, and it is none exactly with NOERROR. -/
abbrev State.Reported (s : State) : Prop :=
  s.errkind ∈ [0#4, 1#4, 2#4, 3#4, 4#4, 6#4] ∧ (s.result = 0 ↔ s.errkind = 0)

theorem ErrKind.code_mem (k : ErrKind) : k.code ∈ [0#4, 1#4, 2#4, 3#4, 4#4, 6#4] := by cases k <;> decide

theorem ErrKind.code_eq_zero_iff (k : ErrKind) : k.code = 0 ↔ k = .none := by cases k <;> decide

theorem State.reported_of {s : State} {r : BitVec 1} {k : ErrKind} (hr : s.result = r) (he : s.errkind = k.code)
    (hk : r = 0 ↔ k = .none) : s.Reported :=
  ⟨he ▸ k.code_mem, by rw [hr, he, ErrKind.code_eq_zero_iff, hk]⟩

/-! ### The parts of the invariant, by the phase -/

section
variable {s : State} (h : s.Inv)
include h

theorem State.Inv.mpend_eq_none (hw : s.phase = .wait → s.mfDone = true) : s.mpend = none := by
  by_contra hne
  obtain ⟨hwait, hdone⟩ := h.request.1.1 hne
  simp [hw hwait] at hdone

theorem State.Inv.ready (hm : s.mpend = none) : s.Ready where
  params := h.params
  memories := h.memories
  hardwiredOk := h.hardwired
  mask hheld := by
    obtain ⟨-, hmask, -, -⟩ := h.lock.2 hheld
    rw [hmask]
    exact lockMask_and_hardwired h.params _ _
  request := hm
  count := h.count.1

theorem State.Inv.ready_of_idle (hidle : s.phase = .idle) : s.Ready :=
  h.ready (h.mpend_eq_none (by simp [hidle]))

theorem State.Inv.accepted_of_busy (hbusy : s.phase ≠ .idle) : s.Accepted := by
  obtain ⟨-, hres, hrun, -⟩ := h.report
  obtain ⟨hresult, hop, hlast, hexb⟩ := hrun (s.busy_iff.2 hbusy)
  exact ⟨hresult, hres.1 hresult, hop, hlast, hexb⟩

theorem State.Inv.lkHeld_eq_false (hinactive : ¬ s.Active) : s.lkHeld = false := by
  rw [← Bool.not_eq_true, h.lock.1]
  exact hinactive

theorem State.Inv.lkHeld_of_active (hactive : s.Active) : s.lkHeld = true := h.lock.1.2 hactive

theorem State.Inv.burst_eq_false (hop : s.phase = .idle ∨ s.op ≠ .fastWrite) : s.burst = false := by
  rw [← Bool.not_eq_true]
  intro hburst
  obtain ⟨hbusy, hfast⟩ := h.burst.1 hburst
  exact hop.elim (s.busy_iff.1 hbusy) (absurd hfast)

end

/-- R40: in IDLE the invariant says only what does not speak of a command. -/
theorem State.Inv.of_idle {s : State} (h : s.Ready) (hidle : s.phase = .idle) (hrep : s.Reported)
    (hburst : s.burst = false) (hheld : s.lkHeld = false) : s.Inv where
  params := h.params
  memories := h.memories
  hardwired := h.hardwiredOk
  report := ⟨hrep.1, hrep.2, by simp [State.busy, hidle], by simp [hidle]⟩
  target := fun hactive => by simp [State.Active, hidle] at hactive
  burst := by simp [State.BurstOk, State.busy, hburst, hidle]
  lock := by simp [State.LockOk, State.Active, hheld, hidle]
  request := by simp [State.RequestOk, h.request, hidle]
  count := ⟨h.count, by simp [hidle], by simp [hidle]⟩
  array _ hbusy := by simp [State.busy, hidle] at hbusy

/-! ### Completion keeps the invariant (R160) -/

theorem State.Ready.hardwiredOk_restoreIfHeld {s : State} (h : s.Ready) : s.restoreIfHeld.HardwiredOk := by
  cases hheld : s.lkHeld with
  | false => rw [State.restoreIfHeld_of_not_held hheld]; exact h.hardwiredOk
  | true => rw [State.restoreIfHeld_of_held hheld]; exact hardwiredOk_restore h.hardwiredOk (h.mask hheld)

theorem State.Ready.finish {s : State} (h : s.Ready) (r : BitVec 1) (k : ErrKind) (w : Word) :
    (s.finish r k w).Ready where
  params := by simpa using h.params
  memories := h.memories.of_eq (by simp) (by simp) (by simp)
  hardwiredOk := h.hardwiredOk_restoreIfHeld.of_eq (by simp) rfl rfl
  mask := by simp
  request := by simpa using h.request
  count := by simpa using h.count

/-- R160: the completion of a word, array or erase keeps the invariant. -/
theorem State.Ready.inv_finish {s : State} (h : s.Ready) (hburst : s.burst = false) {r : BitVec 1} {k : ErrKind}
    (hk : r = 0 ↔ k = .none) (w : Word) : (s.finish r k w).Inv :=
  State.Inv.of_idle (h.finish r k w) (by simp) (State.reported_of (by simp) (by simp) hk) (by simpa using hburst)
    (by simp)

/-- R160, R220: the completion of a burst keeps the invariant, and clears `BURST` itself. -/
theorem State.Ready.inv_finishBurst {s : State} (h : s.Ready) {r : BitVec 1} {k : ErrKind}
    (hk : r = 0 ↔ k = .none) (w : Word) : (s.finishBurst r k w).Inv :=
  have ready : (s.finishBurst r k w).Ready := { h.finish r k w with }
  State.Inv.of_idle ready (by simp) (State.reported_of (by simp) (by simp) hk) (by simp) (by simp)

/-! ### A start keeps the invariant (R156, R241) -/

theorem State.accepted_accept (s : State) {o : Op} {e : BitVec 2} (ho : o ≠ .none) (he : e ≠ 0) :
    (s.accept o e).Accepted where
  result := by simp
  errkind := by simp
  op := by simpa using ho
  lastop := by simp
  declared := by simpa using he

theorem State.Accepted.reportOk {s : State} (h : s.Accepted) (hnext : s.phase = .next → s.op = .writeArray) :
    s.ReportOk :=
  ⟨by simp [h.errkind], by simp [h.result, h.errkind], fun _ => ⟨h.result, h.op, h.lastop, h.declared⟩, hnext⟩

/-- R46, R162: a lock save of the sectors of `[lo, hi]` is held, and they are unlocked. -/
def State.Saves (s : State) (lo hi : Nat) : Prop :=
  s.lkBank = bankOf s.params lo ∧ s.lkMask = lockMask s.params lo hi ∧
    s.lkSave &&& s.lkMask = s.lkSave ∧ s.weprot s.lkBank &&& s.lkMask = 0

theorem State.unlock_saves (s : State) (lo hi : Nat) : (s.unlock lo hi).Saves lo hi := by
  obtain ⟨hsave, hclear⟩ := unlock_save s lo hi
  exact ⟨rfl, rfl, hsave, hclear⟩

theorem State.lockOk_of_saves {s : State} (hactive : s.Active) (hheld : s.lkHeld = true)
    (h : s.Saves s.ta.toNat s.targetEnd) : s.LockOk :=
  ⟨by simp [hheld, hactive], fun _ => h⟩

theorem State.cap_pos (s : State) : 0 < s.cap := by
  unfold State.cap
  split <;> decide

/-- R135, R156: the target of a word or burst that starts, without wrap-around. -/
theorem State.startProgram_target (s : State) (hop : s.op ≠ .erase) {a : Nat} {ws : List Word} (b : Bool)
    (ha : a < 2 ^ 32) (hlen : ws.length ≤ 16) :
    (s.startProgram a ws b).ta.toNat = a ∧ (s.startProgram a ws b).n.toNat = ws.length ∧
      (s.startProgram a ws b).targetEnd = a + 4 * ws.length - 1 := by
  have hta : (s.startProgram a ws b).ta.toNat = a := by
    rw [State.startProgram_ta, BitVec.toNat_ofNat, Nat.mod_eq_of_lt ha]
  have hn : (s.startProgram a ws b).n.toNat = ws.length := by
    rw [State.startProgram_n, BitVec.toNat_ofNat, Nat.mod_eq_of_lt (by omega)]
  refine ⟨hta, hn, ?_⟩
  rw [State.targetEnd, State.targetLength, State.startProgram_op, if_neg hop, hta, hn]

/-- R156: the start of a word or burst keeps the invariant where its target, `BURST` and the array's counts are
right. -/
theorem State.Ready.inv_startProgram {s : State} (h : s.Ready) (hacc : s.Accepted) (hop : s.op ≠ .erase) {a : Nat}
    {ws : List Word} {b : Bool} (ha : a < 2 ^ 32) (hlen : ws.length ≤ 16)
    (htarget : (s.startProgram a ws b).TargetOk) (hburst : b = true ↔ s.op = .fastWrite)
    (harray : (s.startProgram a ws b).ArrayOk) : (s.startProgram a ws b).Inv where
  params := by simpa using h.params
  memories := h.memories.of_eq (by simp) (by simp) (by simp)
  hardwired := (hardwiredOk_unlock h.params h.hardwiredOk _ _).of_eq (by simp) rfl rfl
  report := (hacc.of_eq (by simp) (by simp) (by simp) (by simp) (by simp)).reportOk (by simp)
  target := htarget
  burst := by simpa [State.BurstOk, State.busy] using hburst
  lock := by
    obtain ⟨hta, -, hend⟩ := s.startProgram_target hop b ha hlen
    refine State.lockOk_of_saves (.inl rfl) rfl ?_
    rw [hta, hend]
    exact s.unlock_saves _ _
  request := by simp [State.RequestOk, h.request]
  count := by simp [State.CountOk, State.cap_pos]
  array := harray

/-- R241: the start of an erase keeps the invariant. -/
theorem State.Ready.inv_startErase {s : State} (h : s.Ready) (hacc : s.Accepted) (hop : s.op = .erase)
    (hburst : s.burst = false) (hvalid : EraseAddrValid s.params s.addr.toNat)
    (hbank : ¬ BankConflict s.params s.addr.toNat (s.addr.toNat + 4095) s.exb) :
    ({ s.unlock s.addr.toNat (s.addr.toNat + 4095) with ta := s.addr, pcnt := 0, phase := .issue } : State).Inv where
  params := by simpa using h.params
  memories := h.memories.of_eq (by simp) (by simp) (by simp)
  hardwired := (hardwiredOk_unlock h.params h.hardwiredOk _ _).of_eq (by simp) rfl rfl
  report := (hacc.of_eq (by simp) (by simp) (by simp) (by simp) (by simp)).reportOk (by simp)
  target _ := by
    refine ⟨?_, fun _ => hvalid, by simp [hop], by simp [hop], by simp [hop]⟩
    simpa [State.targetEnd, State.targetLength, hop, Config.sectorSize] using hbank
  burst := by simpa [State.BurstOk, State.busy, hop] using hburst
  lock := by
    refine State.lockOk_of_saves (.inl rfl) rfl ?_
    simp only [State.targetEnd, State.targetLength, State.unlock_op, hop, if_true]
    exact s.unlock_saves _ _
  request := by simp [State.RequestOk, h.request]
  count := by simp [State.CountOk, State.cap_pos]
  array := by simp [State.ArrayOk, hop]

/-- R130, R135: the target of a word that starts. -/
theorem State.targetOk_startWord {s : State} {a : Nat} {d : Word} (hp : s.params.Wf)
    (hop : s.op = .writeWord ∨ s.op = .writeArray)
    (hvalid : WriteAddrValid s.params a) (hbank : ¬ BankConflict s.params a (a + 3) s.exb) :
    (s.startProgram a [d] false).TargetOk := by
  have herase : s.op ≠ .erase := by rcases hop with h | h <;> simp [h]
  have hfast : s.op ≠ .fastWrite := by rcases hop with h | h <;> simp [h]
  obtain ⟨hta, hn, hend⟩ := s.startProgram_target herase (ws := [d]) false (hvalid.2.lt_addressSpace hp) (by simp)
  intro _
  simp only [hta, hend, State.startProgram_params, State.startProgram_exb, State.startProgram_op,
    State.startProgram_postEn, State.startProgram_n]
  exact ⟨hbank, fun h => absurd h herase, fun h => absurd h hfast, fun _ => ⟨rfl, hvalid⟩, fun _ => trivial⟩

/-- R131, R135: the target of a burst that starts. -/
theorem State.targetOk_startBurst {s : State} {a : Nat} {ds : List Word} (hp : s.params.Wf) (hop : s.op = .fastWrite)
    (hpos : ds ≠ []) (hmax : ds.length ≤ 16) (hvalid : MassWriteAddrValid s.params a ds.length)
    (hbank : ¬ BankConflict s.params a (a + 4 * ds.length - 1) s.exb) :
    (s.startProgram a ds true).TargetOk := by
  obtain ⟨hta, hn, hend⟩ :=
    s.startProgram_target (by simp [hop]) (ws := ds) true (hvalid.2.1.lt_addressSpace hp) hmax
  intro _
  simp only [hta, hend, hn, hop, State.startProgram_params, State.startProgram_exb, State.startProgram_op,
    State.startProgram_postEn]
  exact ⟨hbank, by simp, fun _ => ⟨List.length_pos_iff.2 hpos, hmax, hvalid⟩, by simp, fun _ => trivial⟩

/-! ### The invariant along a command (R155 to R160) -/

/-- R203: between two words of an array. -/
theorem State.Ready.inv_next {s : State} (h : s.Ready) (hacc : s.Accepted) (hphase : s.phase = .next)
    (hop : s.op = .writeArray) (hburst : s.burst = false) (hheld : s.lkHeld = false) (hwritten : s.written = s.aIdx)
    (hle : s.aIdx.toNat ≤ s.aCount.toNat) : s.Inv where
  params := h.params
  memories := h.memories
  hardwired := h.hardwiredOk
  report := hacc.reportOk fun _ => hop
  target hactive := by simp [State.Active, hphase] at hactive
  burst := by simp [State.BurstOk, hburst, hop]
  lock := by simp [State.LockOk, State.Active, hheld, hphase]
  request := by simp [State.RequestOk, h.request, hphase]
  count := ⟨h.count, by simp [hphase], by simp [hphase]⟩
  array _ _ := ⟨hwritten, hle, by simp [State.Active, hphase]⟩

/-- R155: the acceptance step of a command keeps the invariant, whatever the command does. -/
theorem CommandOutcome.inv {s t : State} (h : s.Inv) (hidle : s.phase = .idle) (hc : CommandOutcome s t) : t.Inv := by
  have ready := h.ready_of_idle hidle
  have hburst := h.burst_eq_false (.inl hidle)
  have hheld := h.lkHeld_eq_false (by simp [State.Active, hidle])
  cases hc with
  | unchanged => exact h
  | reported l r k hk =>
    exact State.Inv.of_idle (ready.report l r k) (by simpa using hidle) (State.reported_of (by simp) (by simp) hk)
      (by simpa using hburst) (by simpa using hheld)
  | ended o e r k hk => exact (ready.accept o e).inv_finish (by simpa using hburst) hk 0
  | word e he hvalid hbank =>
    refine (ready.accept .writeWord e).inv_startProgram (s.accepted_accept (by simp) he) (by simp)
      (hvalid.2.lt_addressSpace h.params) (by simp) ?_ (by simp) (by simp [State.ArrayOk])
    exact State.targetOk_startWord h.params (.inl rfl) hvalid hbank
  | array e he =>
    have ready' := ready.accept .writeArray e
    have hacc : (s.accept .writeArray e).Accepted := s.accepted_accept (by simp) he
    exact State.Ready.inv_next { ready' with } (hacc.of_eq rfl rfl rfl rfl rfl) rfl rfl hburst hheld rfl (Nat.zero_le _)
  | burst e he ds hpos hmax hvalid hbank =>
    refine (ready.accept .fastWrite e).inv_startProgram (s.accepted_accept (by simp) he) (by simp)
      (hvalid.2.1.lt_addressSpace h.params) hmax ?_ (by simp) (by simp [State.ArrayOk])
    exact State.targetOk_startBurst h.params rfl hpos hmax hvalid hbank
  | erase e he hvalid hbank =>
    exact (ready.accept .erase e).inv_startErase (s.accepted_accept (by simp) he) rfl hburst hvalid hbank

/-! ### The invariant along the controller (R158, R159, R203) -/

theorem State.Inv.op_of_next {s : State} (h : s.Inv) (hnext : s.phase = .next) : s.op = .writeArray := by
  obtain ⟨-, -, -, hop⟩ := h.report
  exact hop hnext

/-- R203: a NEXT step keeps the invariant. -/
theorem nextWord_inv {s t : State} (h : s.Inv) (hnext : s.phase = .next) (ht : nextWord s = .next t) : t.Inv := by
  have hop := h.op_of_next hnext
  have hbusy : s.phase ≠ .idle := by simp [hnext]
  have hburst := h.burst_eq_false (.inr (by simp [hop]))
  have ready := h.ready (h.mpend_eq_none (by simp [hnext]))
  have ready' : ({ s with pcnt := 0 } : State).Ready :=
    ready.of_eq rfl h.memories h.hardwired rfl rfl rfl (by simp)
  obtain ⟨hwritten, hle, -⟩ := h.array hop (s.busy_iff.2 hbusy)
  obtain ⟨-, rfl⟩ | ⟨-, -, rfl⟩ | ⟨-, -, rfl⟩ | ⟨hne, hvalid, hbank, d, -, rfl⟩ := nextWord_next ht
  · exact ready.inv_finish hburst (by decide) _
  · exact ready'.inv_finish hburst (by decide) _
  · exact ready'.inv_finish hburst (by decide) _
  · have ha := hvalid.2.lt_addressSpace h.params
    have hacc : ({ s with pcnt := 0 } : State).Accepted := (h.accepted_of_busy hbusy).of_eq rfl rfl rfl rfl rfl
    refine ready'.inv_startProgram hacc (by simp [hop]) ha (by simp) ?_ (by simp [hop]) ?_
    · exact State.targetOk_startWord (s := { s with pcnt := 0 }) h.params (.inr hop) hvalid hbank
    · have hlt : s.aIdx.toNat < s.aCount.toNat := lt_of_le_of_ne hle fun heq => hne (BitVec.eq_of_toNat_eq heq)
      refine fun _ _ => ⟨by simpa using hwritten, by simpa using hle, fun _ => ⟨by simpa using hlt, ?_⟩⟩
      rw [State.startProgram_ta, BitVec.toNat_ofNat, Nat.mod_eq_of_lt ha]
      rfl

/-- `s` with what a pulse of its word, burst or erase changes taken from `u` (R71, R158, R174): the issues counted, the
words to issue, the request, the flags of its completion, the array and the draws. -/
def State.withPulse (s u : State) : State :=
  { s with
    phase := u.phase, pcnt := u.pcnt, wiss := u.wiss, preEn := u.preEn
    mfDone := u.mfDone, mfPre := u.mfPre, mfRegv := u.mfRegv, mpend := u.mpend
    flash := u.flash, tape := u.tape, drawn := u.drawn }

theorem State.Active.busy {s : State} (h : s.Active) : s.phase ≠ .idle := by
  rcases h with h | h <;> simp [h]

/-- R156 to R174: while its word, burst or erase is in progress, the invariant rests on the array, the request and the
count of issues only. -/
theorem State.Inv.withPulse {s u : State} (h : s.Inv) (hs : s.Active) (hu : u.Active)
    (hm : (s.withPulse u).MemoriesOk) (hr : (s.withPulse u).RequestOk) (hc : (s.withPulse u).CountOk) :
    (s.withPulse u).Inv where
  params := h.params
  memories := hm
  hardwired := h.hardwired
  report := by
    have hacc : (s.withPulse u).Accepted := (h.accepted_of_busy hs.busy).of_eq rfl rfl rfl rfl rfl
    refine hacc.reportOk fun (hnext : u.phase = .next) => ?_
    rcases hu with h | h <;> simp [h] at hnext
  target _ := h.target hs
  burst := by
    have hbusy : (s.withPulse u).busy = true := (State.busy_iff _).2 hu.busy
    have hburst := h.burst
    simp only [State.BurstOk, s.busy_iff.2 hs.busy, hbusy, true_and] at hburst ⊢
    exact hburst
  lock := ⟨⟨fun _ => hu, fun _ => h.lkHeld_of_active hs⟩, h.lock.2⟩
  request := hr
  count := hc
  array hop _ := by
    obtain ⟨hwritten, hle, hcur⟩ := h.array hop (s.busy_iff.2 hs.busy)
    exact ⟨hwritten, hle, fun _ => hcur hs⟩

/-- R47, R176: the count of issues does not wrap. -/
theorem State.Inv.toNat_pcnt_issue {s : State} (h : s.Inv) : s.issue.pcnt.toNat = s.pcnt.toNat + 1 := by
  have hmax := h.count.1
  rw [State.issue_pcnt, BitVec.toNat_add, Nat.mod_eq_of_lt]
  · rfl
  · simp only [Config.maxErasePulses] at hmax
    simp
    omega

theorem State.cap_le (s : State) : s.cap ≤ Config.maxErasePulses := by
  unfold State.cap
  split <;> decide

/-- R158: an issue keeps the invariant: below the cap the count stays within it. -/
theorem issue_inv {s : State} (h : s.Inv) (hissue : s.phase = .issue) : s.issue.Inv := by
  obtain ⟨-, hcap, -⟩ := h.count
  have hle : s.issue.pcnt.toNat ≤ s.cap := by
    rw [h.toNat_pcnt_issue]
    exact hcap hissue
  have hpos : 1 ≤ s.issue.pcnt.toNat := by
    rw [h.toNat_pcnt_issue]
    exact Nat.le_add_left 1 _
  refine h.withPulse (u := s.issue) (.inl hissue) (.inr rfl) h.memories ?_ ?_
  · exact ⟨⟨fun _ => ⟨rfl, rfl⟩, fun _ => by simp [State.withPulse]⟩, fun _ => rfl⟩
  · exact ⟨hle.trans s.cap_le, fun h => by simp [State.withPulse] at h, fun _ => ⟨hpos, hle⟩⟩

theorem State.Ready.restore {s : State} (h : s.Ready) (hheld : s.lkHeld = true) : s.restore.Ready :=
  { h with hardwiredOk := hardwiredOk_restore h.hardwiredOk (h.mask hheld), mask := by simp }

/-- R159: a wait step keeps the invariant, whatever it does. -/
theorem WaitOutcome.inv {s t : State} (h : s.Inv) (hwait : s.phase = .wait) (hdone : s.mfDone = true)
    (ht : WaitOutcome s t) : t.Inv := by
  have hactive : s.Active := .inr hwait
  have hmpend := h.mpend_eq_none fun _ => hdone
  have ready := h.ready hmpend
  cases ht with
  | held => exact h
  | again ws pre hcap =>
    refine h.withPulse (u := { s.corrected ws pre with phase := .issue }) hactive (.inl rfl) h.memories ?_ ?_
    · simp [State.RequestOk, State.withPulse, State.corrected, hmpend]
    · exact ⟨h.count.1, fun _ => hcap, fun h => by simp [State.withPulse] at h⟩
  | ended ws pre r k w hop hk => exact (ready.corrected ws pre).inv_finish (h.burst_eq_false (.inr hop)) hk w
  | burstEnded ws pre r k w hk => exact (ready.corrected ws pre).inv_finishBurst hk w
  | wordEnded hop =>
    have hacc := h.accepted_of_busy hactive.busy
    obtain ⟨-, -, hcur⟩ := h.array hop (s.busy_iff.2 hactive.busy)
    have hlt := (hcur hactive).1
    have hsucc : (s.aIdx + 1).toNat ≤ s.aCount.toNat := by
      have := s.aCount.isLt
      bv_omega
    have hrest := ready.restore (h.lkHeld_of_active hactive)
    exact State.Ready.inv_next { hrest with } (hacc.of_eq rfl rfl rfl rfl rfl) rfl hop
      (h.burst_eq_false (.inr (by simp [hop]))) rfl rfl hsucc

theorem controllerStep_inv {s t : State} (h : s.Inv) (ht : controllerStep s = .next t) : t.Inv := by
  obtain ⟨hissue, -, rfl⟩ | ⟨hwait, hdone, rfl⟩ | ⟨hnext, ht⟩ | rfl := controllerStep_next ht
  · exact issue_inv h hissue
  · exact (waitStep_outcome s).inv h hwait hdone
  · exact nextWord_inv h hnext ht
  · exact h

/-! ### The invariant along a completion and a reset (R71 to R79, R300 to R302) -/

/-- R165: a pending request is one that the controller waits for. -/
theorem State.Inv.wait_of_pending {s : State} (h : s.Inv) (hne : s.mpend ≠ none) :
    s.phase = .wait ∧ s.mfDone = false :=
  h.request.1.1 hne

/-- R48, R135: a pending request spans the target of the command in progress. -/
theorem State.Inv.request_span {s : State} (h : s.Inv) {r : Request} (hr : s.mpend = some r) :
    s.Active ∧ r.base = s.ta.toNat ∧ r.size = s.targetLength := by
  obtain ⟨-, hissued⟩ := h.request
  have hne : s.mpend ≠ none := by simp [hr]
  have hactive : s.Active := .inr (h.wait_of_pending hne).1
  obtain rfl : r = s.request := Option.some.inj (hr.symm.trans (hissued hne))
  refine ⟨hactive, ?_⟩
  obtain ⟨-, -, hfast, hword, -⟩ := h.target hactive
  have hn (herase : s.op ≠ .erase) : s.n.toNat ≤ 16 := by
    cases hop : s.op with
    | none => exact absurd hop (h.accepted_of_busy hactive.busy).op
    | writeWord => rw [(hword (.inl hop)).1]; decide
    | writeArray => rw [(hword (.inr hop)).1]; decide
    | fastWrite => exact (hfast hop).2.1
    | erase => exact absurd hop herase
  unfold State.request State.targetLength
  split
  · exact ⟨rfl, rfl⟩
  · exact ⟨rfl, by rw [Request.size, length_lanes _ _ (hn ‹_›)]⟩

/-- R15, R135: the target of a command in progress lies in flash. -/
theorem State.Inv.inFlash_of_target {s : State} (h : s.Inv) (hactive : s.Active) {a : Nat} (hlo : s.ta.toNat ≤ a)
    (hhi : a < s.ta.toNat + s.targetLength) : InFlash s.params a := by
  obtain ⟨-, herase, hfast, hword, -⟩ := h.target hactive
  have word (hop : s.op = .writeWord ∨ s.op = .writeArray) : InFlash s.params a := by
    obtain ⟨hn, hvalid⟩ := hword hop
    refine InFlash.of_word h.params hvalid hlo ?_
    have hlen : s.targetLength = 4 := by rcases hop with h | h <;> simp [State.targetLength, h, hn]
    rwa [hlen] at hhi
  cases hop : s.op with
  | none => exact absurd hop (h.accepted_of_busy hactive.busy).op
  | writeWord => exact word (.inl hop)
  | writeArray => exact word (.inr hop)
  | fastWrite =>
    obtain ⟨hpos, -, -, hfirst, hlast⟩ := hfast hop
    have hlen : s.targetLength = 4 * s.n.toNat := by simp [State.targetLength, hop]
    rw [hlen] at hhi
    obtain ⟨hbase, -⟩ := hfirst
    obtain ⟨-, hend⟩ := hlast
    exact ⟨hbase.trans hlo, by omega⟩
  | erase =>
    have hlen : s.targetLength = Config.sectorSize := by simp [State.targetLength, hop]
    exact InFlash.of_sector h.params (herase hop) hlo (hlen ▸ hhi)

/-- R71, R75, R302: filling the span of the pending request keeps both memories in form. -/
theorem State.Inv.memoriesOk_fill {s : State} (h : s.Inv) {r : Request} (hr : s.mpend = some r) (f : Nat → Byte) :
    ({ s with flash := s.flash.fill r.base r.size f } : State).MemoriesOk := by
  obtain ⟨hactive, hbase, hsize⟩ := h.request_span hr
  obtain ⟨hflash, hsysmem, hin, hout⟩ := h.memories
  refine ⟨Memory.wf_fill hflash _ _ _, hsysmem, fun c hc => ?_, hout⟩
  rcases Memory.mem_fill hc with hc | ⟨hlo, hhi⟩
  · exact hin c hc
  · rw [hbase, hsize] at hhi
    exact h.inFlash_of_target hactive (hbase ▸ hlo) hhi

/-- R71, R75: a completion keeps the invariant: what it fills is the target, which lies in flash. -/
theorem pulseUnitStep_inv {s : State} (h : s.Inv) : (pulseUnitStep s).Inv := by
  obtain ⟨-, ht⟩ | ⟨r, hr, ht⟩ := pulseUnitStep_cases s <;> rw [ht]
  · exact h
  · obtain ⟨m, pre, regv, ht, hm⟩ := complete_eq s.drawValue r s.drawNext
    rw [ht]
    obtain ⟨hwait, -⟩ := h.wait_of_pending (by simp [hr])
    refine h.withPulse (u := { s.drawNext.completed with flash := m, mfPre := pre, mfRegv := regv }) (.inr hwait)
      (.inr hwait) ?_ (by simp [State.RequestOk, State.withPulse]) h.count
    rcases hm with rfl | ⟨f, rfl⟩
    · exact h.memories
    · exact h.memoriesOk_fill hr f

/-- R300: the reset values meet the invariant over any memories in form. -/
theorem restart_inv {s : State} (hp : s.params.Wf) (hm : s.MemoriesOk) : s.restart.Inv := by
  have hones (x : Word) : 0xFFFFFFFF &&& x = x := BitVec.allOnes_and
  have ready : s.restart.Ready :=
    ⟨hp, hm, ⟨hones _, hones _⟩, fun hheld => absurd hheld Bool.false_ne_true, rfl, Nat.zero_le _⟩
  exact State.Inv.of_idle ready rfl (State.reported_of (r := 0) (k := .none) rfl rfl (by simp)) rfl rfl

/-- Settles O32: the memories list nothing, and IDLE asks nothing of a command. -/
theorem resetMeetsTheInvariant : Obligations.ResetMeetsTheInvariant :=
  restart_inv (s := State.reset) (by decide) (by decide)

/-- R302: a reset that cuts off a request fills its target only, which lies in flash. -/
theorem resetStep_inv {s : State} (h : s.Inv) : (resetStep s).Inv := by
  unfold resetStep
  split
  case h_1 => exact restart_inv h.params h.memories
  case h_2 r hr =>
    obtain ⟨f, hf⟩ := cutOff_eq_fill s.drawValue r s.flash
    rw [hf]
    exact restart_inv (s := { s.drawNext with flash := s.flash.fill r.base r.size f }) h.params (h.memoriesOk_fill hr f)

/-! ### The invariant along the host (R67, R108, R150) -/

/-- The invariant does not speak of the model's own record. -/
theorem State.Inv.recorded {s : State} (h : s.Inv) (v : Word) (ops : List HostOp) (q : List Turn) (tape : List Nat)
    (drawn : Nat) : (s.recorded v ops q tape drawn).Inv :=
  ⟨h.params, h.memories, h.hardwired, h.report, h.target, h.burst, h.lock, h.request, h.count, h.array⟩

/-- R60, R67: every byte of an aligned access to SYSMEM lies in SYSMEM. -/
theorem sysmem_of_aligned {p : Params} (hp : p.Wf) {w : Width} {a : Word} (hregion : regionOf p a.toNat = .sysmem)
    (halign : aligned w a = true) {b : Nat} (hlo : a.toNat ≤ b) (hhi : b < a.toNat + w.bytes) :
    b < Config.addressSpace ∧ ¬ InFlash p b ∧ ¬ InWindow p b := by
  obtain ⟨-, hsize, hbase, hwin⟩ := multiples_of_wf hp
  have ha := a.isLt
  have hnot : ¬ InFlash p a.toNat ∧ ¬ InWindow p a.toNat := by
    unfold regionOf at hregion
    split at hregion
    · cases hregion
    · split at hregion
      · cases hregion
      · exact ⟨‹_›, ‹_›⟩
  have hmod : a.toNat % w.bytes = 0 := by simpa [aligned] using halign
  simp only [InFlash, InWindow, Params.flashEnd, Config.windowSize, Config.addressSpace] at *
  cases w <;> simp only [Width.bytes] at hmod hhi <;> omega

/-- R67: a store to SYSMEM keeps the invariant. -/
theorem State.Inv.storeSysmem {s : State} (h : s.Inv) {w : Width} {a : Word}
    (hregion : regionOf s.params a.toNat = .sysmem) (halign : aligned w a = true) (v : Word) :
    ({ s with sysmem := s.sysmem.writeLE a.toNat w.bytes v } : State).Inv := by
  obtain ⟨hflash, hsysmem, hin, hout⟩ := h.memories
  refine ⟨h.params, ⟨hflash, Memory.wf_writeLE hsysmem _ _ _, hin, fun c hc => ?_⟩, h.hardwired, h.report, h.target,
    h.burst, h.lock, h.request, h.count, h.array⟩
  rcases Memory.mem_fill hc with hc | ⟨hlo, hhi⟩
  · exact hout c hc
  · exact sysmem_of_aligned h.params hregion halign hlo hhi

/-- `s` with what a register write changes taken from `u` (R150): the operand registers and the lock registers. -/
def State.withOperands (s u : State) : State :=
  { s with
    addr := u.addr, data := u.data, count := u.count, src := u.src, clkmhz := u.clkmhz
    weprot0 := u.weprot0, weprot1 := u.weprot1 }

theorem writeReg_frame (r : Reg) (v : Word) (s : State) : s.writeReg r v = s.withOperands (s.writeReg r v) := by
  cases r <;> rfl

/-- R27: a write to a lock register leaves its hardwired bits 1. -/
theorem hardwiredOk_writeReg {s : State} (h : s.HardwiredOk) (r : Reg) (v : Word) : (s.writeReg r v).HardwiredOk := by
  have hor : (v ||| hardwired s.params) &&& hardwired s.params = hardwired s.params := by
    ext i hi
    simpa using Or.inr
  cases r with
  | weprot0 => exact ⟨hor, h.2⟩
  | weprot1 => exact ⟨h.1, hor⟩
  | _ => exact h

/-- R150: a register write while idle keeps the invariant. -/
theorem State.Inv.writeReg {s : State} (h : s.Inv) (hidle : s.phase = .idle) (r : Reg) (v : Word) :
    (s.writeReg r v).Inv := by
  obtain ⟨hkind, hres, -, -⟩ := h.report
  have hw := hardwiredOk_writeReg h.hardwired r v
  rw [writeReg_frame] at hw ⊢
  exact State.Inv.of_idle ((h.ready_of_idle hidle).of_eq rfl h.memories hw rfl rfl rfl h.count.1) hidle ⟨hkind, hres⟩
    (h.burst_eq_false (.inl hidle)) (h.lkHeld_eq_false (by simp [State.Active, hidle]))

/-- R6: a host step keeps the invariant, whatever it does. -/
theorem HostOutcome.inv {s t : State} (h : s.Inv) (ht : HostOutcome s t) : t.Inv := by
  have hops (ops : List HostOp) : ({ s with host := ops } : State).Inv := h.recorded s.rdata ops s.sched s.tape s.drawn
  cases ht with
  | recorded v ops tape drawn => exact h.recorded v ops s.sched tape drawn
  | stored ops w a v hregion halign => exact (hops ops).storeSysmem hregion halign v
  | wrote ops r v hidle => exact (hops ops).writeReg hidle r v
  | commanded ops t hidle ht => exact ht.inv (hops ops) hidle

/-! ### The invariant along a step -/

theorem agentStep_inv {a : Agent} {s t : State} (h : s.Inv) (ht : agentStep a s = .next t) : t.Inv := by
  cases a with
  | host => exact (hostStep_outcome ht).inv h
  | controller => exact controllerStep_inv h ht
  | pulseUnit => cases ht; exact pulseUnitStep_inv h

/-- Settles O33: a reset leaves IDLE with its memories in form, and each agent keeps the invariant in every case of its
step. -/
theorem stepKeepsTheInvariant : Obligations.StepKeepsTheInvariant := by
  unfold Obligations.StepKeepsTheInvariant
  intro s t h ht
  obtain ⟨rest, -, hreset⟩ | ⟨a, q, d, hagent⟩ := step_cases s
  · rw [hreset] at ht
    cases ht
    exact resetStep_inv (h.recorded s.rdata s.host rest s.tape s.drawn)
  · exact agentStep_inv (h.recorded s.rdata s.host q s.tape d) (hagent ▸ ht)

/-! ### The issues at which a pre-verify can fail (R45, R175) -/

/-- Nothing was issued yet for the word or burst in progress, if there is one. -/
def State.Unissued (s : State) : Prop := s.phase ≠ .wait ∧ (s.phase = .issue → s.pcnt = 0)

/-- Before the first issue, R175 asks nothing. -/
theorem State.Unissued.retryOk {s : State} (h : s.Unissued) : s.RetryOk := by
  obtain ⟨hwait, hissue⟩ := h
  refine fun _ => ⟨?_, fun h => absurd h hwait, fun h => absurd h hwait⟩
  rintro (⟨hphase, hpos⟩ | ⟨hphase, -⟩)
  · simp [hissue hphase] at hpos
  · exact absurd hphase hwait

theorem State.unissued_of_idle {s : State} (h : s.phase = .idle) : s.Unissued := by
  simp [State.Unissued, h]

theorem State.unissued_of_next {s : State} (h : s.phase = .next) : s.Unissued := by
  simp [State.Unissued, h]

theorem State.unissued_of_pcnt {s : State} (h : s.phase = .issue) (hp : s.pcnt = 0) : s.Unissued := by
  simp [State.Unissued, h, hp]

/-- R155: a command has issued nothing in its acceptance step. -/
theorem CommandOutcome.unissued {s t : State} (h : CommandOutcome s t) (hidle : s.phase = .idle) : t.Unissued := by
  cases h with
  | unchanged => exact State.unissued_of_idle hidle
  | reported => exact State.unissued_of_idle hidle
  | ended => exact State.unissued_of_idle rfl
  | array => exact State.unissued_of_next rfl
  | word => exact State.unissued_of_pcnt rfl rfl
  | burst => exact State.unissued_of_pcnt rfl rfl
  | erase => exact State.unissued_of_pcnt rfl rfl

/-- R203: a NEXT step has issued nothing for its word. -/
theorem nextWord_unissued {s t : State} (h : nextWord s = .next t) : t.Unissued := by
  obtain ⟨-, rfl⟩ | ⟨-, -, rfl⟩ | ⟨-, -, rfl⟩ | ⟨-, -, -, d, -, rfl⟩ := nextWord_next h
  · exact State.unissued_of_idle rfl
  · exact State.unissued_of_idle rfl
  · exact State.unissued_of_idle rfl
  · exact State.unissued_of_pcnt rfl rfl

theorem HostOutcome.retryOk {s t : State} (h : s.RetryOk) (ht : HostOutcome s t) : t.RetryOk := by
  cases ht with
  | recorded => exact h
  | stored => exact h
  | wrote ops r v hidle =>
    rw [writeReg_frame]
    exact (State.unissued_of_idle hidle).retryOk
  | commanded ops t hidle ht => exact (ht.unissued hidle).retryOk

/-- R158, R175: an issue clears the flags, and issues the words that its retry corrected. -/
theorem issue_retryOk {s : State} (h : s.Inv) (hretry : s.RetryOk) (hissue : s.phase = .issue) : s.issue.RetryOk := by
  intro hop
  obtain ⟨hpre, -, -⟩ := hretry hop
  refine ⟨?_, by simp, fun _ _ => ⟨rfl, rfl⟩⟩
  rintro (⟨hphase, -⟩ | ⟨-, -, hcount⟩)
  · simp at hphase
  · rw [h.toNat_pcnt_issue] at hcount
    exact hpre (.inl ⟨hissue, by omega⟩)

/-- R43, R156: a word or burst in progress has as many words as its wait step compares. -/
theorem State.Inv.laneCount_eq {s : State} (h : s.Inv) (hactive : s.Active) (hop : s.op ≠ .erase) :
    s.n.toNat = s.laneCount := by
  obtain ⟨-, -, hfast, hword, -⟩ := h.target hactive
  cases hs : s.op with
  | none => exact absurd hs (h.accepted_of_busy hactive.busy).op
  | writeWord => simp [State.laneCount, hs, (hword (.inl hs)).1]
  | writeArray => simp [State.laneCount, hs, (hword (.inr hs)).1]
  | fastWrite => simp [State.laneCount, hs, (hfast hs).2.1]
  | erase => exact absurd hs hop

/-- R175: a retry issues words that cannot fail pre-verify, or issues without pre-verify. -/
theorem WaitOutcome.retryOk {s t : State} (h : s.Inv) (hretry : s.RetryOk) (hwait : s.phase = .wait)
    (ht : WaitOutcome s t) : t.RetryOk := by
  cases ht with
  | held => exact hretry
  | again ws pre hcap hpre =>
    intro hop
    refine ⟨fun _ hen i hi => ?_, by simp, by simp⟩
    exact hpre hop hen i (h.laneCount_eq (.inr hwait) hop ▸ hi)
  | ended => exact (State.unissued_of_idle rfl).retryOk
  | burstEnded => exact (State.unissued_of_idle rfl).retryOk
  | wordEnded => exact (State.unissued_of_next rfl).retryOk

theorem controllerStep_retryOk {s t : State} (h : s.Inv) (hretry : s.RetryOk) (ht : controllerStep s = .next t) :
    t.RetryOk := by
  obtain ⟨hissue, -, rfl⟩ | ⟨hwait, -, rfl⟩ | ⟨-, ht⟩ | rfl := controllerStep_next ht
  · exact issue_retryOk h hretry hissue
  · exact (waitStep_outcome s).retryOk h hretry hwait
  · exact (nextWord_unissued ht).retryOk
  · exact hretry

/-- R72: where every word passes pre-verify, the request does. -/
theorem anyPreFails_eq_false {v : Vector Word 16} {n : BitVec 5} {m : Memory} {a : Nat}
    (h : ∀ i < n.toNat, preFails (v.toList.getD i 0) (m.word (a + 4 * i)) = false) :
    anyPreFails (lanes v n) (m.words a (lanes v n).length) = false := by
  rw [anyPreFails, List.any_eq_false]
  intro b hb
  obtain ⟨i, hi, rfl⟩ := List.getElem_of_mem hb
  have hin : i < n.toNat ∧ i < 16 := by simpa [lanes] using hi
  simpa [lanes, Memory.words, hin] using h i hin.1

/-- R72: a completion sets `MF_PRE` only for a request with pre-verify enabled that fails it. -/
theorem complete_mfPre {d : Nat} {r : Request} {s : State} (hclear : s.mfPre = false)
    (hset : (complete d r s).mfPre = true) :
    ∃ ta ws burst, r = .prog ta ws true burst ∧ anyPreFails ws (s.flash.words ta.toNat ws.length) = true := by
  cases r with
  | prog ta ws pre burst =>
    rw [complete] at hset
    obtain ⟨v, -, -, h⟩ | ⟨-, rfl, hfails, -⟩ | ⟨-, -, h⟩ := completeProg_cases d ta.toNat ws pre burst s
    · simp [h, hclear] at hset
    · exact ⟨ta, ws, burst, rfl, hfails⟩
    · simp [h, hclear] at hset
  | erase ta =>
    rw [complete] at hset
    obtain ⟨-, h⟩ | ⟨-, h⟩ := completeErase_cases d ta.toNat s <;> simp [h, hclear] at hset

/-- R175: a request that is pending and fails pre-verify is the first issue of its word or burst. -/
theorem State.RetryOk.pcnt_eq_one {s : State} (hretry : s.RetryOk) (h : s.Inv) (hop : s.op ≠ .erase) {ta : Word}
    {ws : List Word} {burst : Bool} (hr : s.mpend = some (.prog ta ws true burst))
    (hfails : anyPreFails ws (s.flash.words ta.toNat ws.length) = true) : s.pcnt.toNat = 1 := by
  have hne : s.mpend ≠ none := by simp [hr]
  obtain ⟨hwait, hdone⟩ := h.wait_of_pending hne
  obtain ⟨-, hissued⟩ := h.request
  have hreq : Request.prog ta ws true burst = .prog s.ta (lanes s.wiss s.n) s.preEn s.burst := by
    rw [← Option.some.inj (hr.symm.trans (hissued hne)).symm, State.request, if_neg hop]
  obtain ⟨rfl, rfl, hpre, rfl⟩ := Request.prog.inj hreq
  obtain ⟨-, -, hcount⟩ := h.count
  have hpos := (hcount hwait).1
  by_contra hmany
  obtain ⟨hnofail, -, -⟩ := hretry hop
  have hnone := anyPreFails_eq_false (hnofail (.inr ⟨hwait, hdone, by omega⟩) hpre.symm)
  rw [hnone] at hfails
  exact Bool.false_ne_true hfails

/-- R71, R175: a completion sets `MF_PRE` only for a request that was issued once. -/
theorem pulseUnitStep_retryOk {s : State} (h : s.Inv) (hretry : s.RetryOk) : (pulseUnitStep s).RetryOk := by
  obtain ⟨-, ht⟩ | ⟨r, hr, ht⟩ := pulseUnitStep_cases s <;> rw [ht]
  · exact hretry
  · obtain ⟨hwait, hdone⟩ := h.wait_of_pending (by simp [hr])
    obtain ⟨m, pre, regv, heq, -⟩ := complete_eq s.drawValue r s.drawNext
    have hmfPre : (complete s.drawValue r s.drawNext).mfPre = pre := by rw [heq]
    rw [heq]
    intro (hop : s.op ≠ .erase)
    refine ⟨by simp [hwait], fun _ _ hset => ?_, by simp⟩
    obtain ⟨-, -, hclear⟩ := hretry hop
    obtain ⟨ta, ws, burst, rfl, hfails⟩ := complete_mfPre (s := s.drawNext) (hclear hwait hdone).1 (hmfPre.trans hset)
    exact hretry.pcnt_eq_one h hop hr hfails

theorem agentStep_retryOk {a : Agent} {s t : State} (h : s.Inv) (hretry : s.RetryOk) (ht : agentStep a s = .next t) :
    t.RetryOk := by
  cases a with
  | host => exact (hostStep_outcome ht).retryOk hretry
  | controller => exact controllerStep_retryOk h hretry ht
  | pulseUnit => cases ht; exact pulseUnitStep_retryOk h hretry

theorem resetStep_retryOk (s : State) : (resetStep s).RetryOk := by
  unfold resetStep
  split <;> exact (State.unissued_of_idle rfl).retryOk

/-- Settles O35: a retry after a post-verify failure issues words that cannot fail pre-verify, a retry after a
pre-verify failure turns pre-verify off, and every other step leaves nothing issued or keeps what was. -/
theorem preVerifyFailsOnlyAtTheFirstIssue : Obligations.PreVerifyFailsOnlyAtTheFirstIssue := by
  unfold Obligations.PreVerifyFailsOnlyAtTheFirstIssue
  refine ⟨(State.unissued_of_idle rfl).retryOk, fun s t h hretry ht => ?_⟩
  obtain ⟨rest, -, hreset⟩ | ⟨a, q, d, hagent⟩ := step_cases s
  · rw [hreset] at ht
    cases ht
    exact resetStep_retryOk _
  · exact agentStep_retryOk (h.recorded s.rdata s.host q s.tape d) hretry (hagent ▸ ht)

end Sys2Proof.Machine

/-! Proofs about the memories (spec/20_memory.md): the source words of a burst, what a completion programs and
erases, where the array changes, and the host's loads and stores outside the registers. -/

namespace Sys2Proof.Machine

/-! ### The source words of a burst (R68, R217, R285) -/

theorem touchesWindow_iff (p : Params) (a : Nat) : touchesWindow p a = true ↔ ∃ k < 4, InWindow p (a + k) := by
  simp [touchesWindow]

theorem srcRead_of_touches {s : State} {a : Nat} (h : touchesWindow s.params a = true) : s.srcRead a = none := by
  simp [State.srcRead, h]

theorem srcRead_of_not_touches {s : State} {a : Nat} (h : touchesWindow s.params a = false) :
    s.srcRead a = some (s.memRead a 4) := by
  simp [State.srcRead, h]

/-- R217, log 15: the source words are read in order, up to the first that touches the window. -/
theorem srcWords_eq_error {s : State} {src n i : Nat} (hi : i < n) (hbad : touchesWindow s.params (src + 4 * i) = true)
    (hgood : ∀ j < i, touchesWindow s.params (src + 4 * j) = false) :
    s.srcWords src n = .error (src + 4 * i) := by
  induction n generalizing src i with
  | zero => omega
  | succ n ih =>
    cases i with
    | zero =>
      have hread : s.srcRead src = none := srcRead_of_touches hbad
      rw [State.srcWords, hread]
      rfl
    | succ i =>
      have hread : s.srcRead src = some (s.memRead src 4) := srcRead_of_not_touches (hgood 0 (by omega))
      have hnext (j : Nat) : src + 4 * (j + 1) = src + 4 + 4 * j := by omega
      have htail : s.srcWords (src + 4) n = .error (src + 4 + 4 * i) :=
        ih (by omega) (hnext i ▸ hbad) fun j hj => hnext j ▸ hgood (j + 1) (by omega)
      rw [State.srcWords, hread, hnext]
      dsimp only
      rw [htail]

/-- R215: FAST_WRITE, stored while idle with a declared bank, runs its acceptance part. -/
theorem exec_fastWrite_of_idle {e : BitVec 2} {s : State} (hidle : s.phase = .idle) (he : e ≠ 0) :
    exec (.fastWrite e) s = acceptFastWrite (s.accept .fastWrite e) :=
  acceptMutating_of_idle hidle he

/-- R217: a burst that passes its checks faults where a source word does. -/
theorem acceptFastWrite_of_error {s : State} {bad : Nat} (hpos : burstLength s ≠ 0)
    (htarget : MassWriteAddrValid s.params s.addr.toNat (burstLength s)) (hsrc : SrcValid s.src.toNat (burstLength s))
    (hbank : ¬ BankConflict s.params s.addr.toNat (s.addr.toNat + 4 * burstLength s - 1) s.exb)
    (hbad : s.srcWords s.src.toNat (burstLength s) = .error bad) :
    acceptFastWrite s = .fault (.srcInBlock bad) := by
  unfold acceptFastWrite
  dsimp only
  rw [if_neg hpos, if_neg (not_not.2 htarget), if_neg (not_not.2 hsrc), if_neg hbank, hbad]

/-- Settles O14: the burst passes its checks, and its words are read up to the first that touches the window. -/
theorem fastWriteSourceInWindowFaults : Obligations.FastWriteSourceInWindowFaults := by
  unfold Obligations.FastWriteSourceInWindowFaults
  intro e s i hidle he n hi htarget hsrc hbank hbad hgood
  rw [exec_fastWrite_of_idle hidle he]
  refine acceptFastWrite_of_error (s := s.accept .fastWrite e) (Nat.ne_zero_of_lt hi) htarget hsrc hbank ?_
  refine srcWords_eq_error hi ((touchesWindow_iff ..).2 hbad) fun j hj => ?_
  rw [← Bool.not_eq_true, touchesWindow_iff]
  rintro ⟨k, hk, hin⟩
  exact hgood j hj k hk hin

/-! ### The tests of a completion (R71, R72, R77) -/

/-- R71: the word at the address is neither reserved nor locked. -/
def State.Free (s : State) (a : Nat) : Prop := a ∉ s.params.reserved ∧ s.locked a = false

theorem violates_iff (s : State) (a : Nat) : s.violates a = true ↔ a ∈ s.params.reserved ∨ s.locked a = true := by
  simp [State.violates]

theorem violates_eq_false_iff (s : State) (a : Nat) : s.violates a = false ↔ s.Free a := by
  simp [State.violates, State.Free]

theorem firstViolation_eq_none {s : State} {ta n : Nat} (h : ∀ i < n, s.Free (ta + 4 * i)) :
    s.firstViolation ta n = none := by
  simpa [State.firstViolation, violates_eq_false_iff] using h

theorem firstViolation_eq_some {s : State} {ta n v : Nat} (hv : v < n) (hbad : s.violates (ta + 4 * v) = true)
    (hfree : ∀ i < v, s.Free (ta + 4 * i)) : s.firstViolation ta n = some v := by
  rw [State.firstViolation, List.find?_range_eq_some]
  exact ⟨hbad, List.mem_range.2 hv, fun i hi => by simpa using (violates_eq_false_iff ..).2 (hfree i hi)⟩

/-- R72: a request fails pre-verify where some word has a target bit that already reads 0. -/
theorem anyPreFails_words_iff (ws : List Word) (m : Memory) (a : Nat) :
    anyPreFails ws (m.words a ws.length) = true ↔
      ∃ i < ws.length, ~~~(ws.getD i 0) &&& ~~~(m.word (a + 4 * i)) ≠ 0 := by
  simp only [anyPreFails, List.any_eq_true, List.mem_iff_getElem, id_eq]
  constructor
  · rintro ⟨b, ⟨i, hi, hb⟩, rfl⟩
    have hin : i < ws.length := by simpa using hi
    exact ⟨i, hin, by simpa [Memory.words, preFails, hin] using hb⟩
  · rintro ⟨i, hi, hne⟩
    exact ⟨true, ⟨i, by simpa using hi, by simpa [Memory.words, preFails, hi] using hne⟩, rfl⟩

/-! ### Failed and unerased bits (R73, R75) -/

/-- R73: the failed bits of a committed pulse, cut down to target bits that read 1. -/
theorem exists_failedBits (old w f : Word) :
    ∃ g, g &&& ~~~(~~~w &&& old) = 0 ∧ programWord old w f = old &&& (w ||| g) :=
  ⟨f &&& (~~~w &&& old), by rw [BitVec.and_assoc, BitVec.and_not_self]; simp, rfl⟩

/-- R75: the unerased bits of an erase pulse, cut down to bits that read 0. -/
theorem exists_unerasedBits (old z : Byte) : ∃ y, y &&& old = 0 ∧ eraseByte old z = ~~~y :=
  ⟨z &&& ~~~old, by rw [BitVec.and_assoc, BitVec.and_comm (~~~old), BitVec.and_not_self]; simp, rfl⟩

/-! ### The words that a completion leaves (R73, R77, R78) -/

theorem getD_pulsedWords (s : State) (d ta : Nat) (ws olds : List Word) {i : Nat} (hi : i < ws.length) :
    (s.pulsedWords d ta ws olds).getD i 0 =
      if s.locked (ta + 4 * i) then olds.getD i 0
      else programWord (olds.getD i 0) (ws.getD i 0) (drawWord d i) := by
  simp [State.pulsedWords, hi]

theorem getD_violatedWords (d v : Nat) (ws olds : List Word) {i : Nat} (hi : i < ws.length) :
    (violatedWords d v ws olds).getD i 0 =
      if i < v ∧ d.testBit (32 * ws.length + i) then programWord (olds.getD i 0) (ws.getD i 0) (drawWord d i)
      else olds.getD i 0 := by
  simp [violatedWords, hi]

/-- R73, R78: the array after a committed pulse. -/
def State.pulsedFlash (s : State) (d ta : Nat) (ws : List Word) : Memory :=
  s.flash.putWords ta (s.pulsedWords d ta ws (s.flash.words ta ws.length))

/-- R77: the array after a burst whose first violating word is word `v`. -/
def State.violatedFlash (s : State) (d v ta : Nat) (ws : List Word) : Memory :=
  s.flash.putWords ta (violatedWords d v ws (s.flash.words ta ws.length))

theorem word_pulsedFlash (s : State) (d ta : Nat) {ws : List Word} {i : Nat} (hi : i < ws.length) :
    (s.pulsedFlash d ta ws).word (ta + 4 * i) =
      if s.locked (ta + 4 * i) then s.flash.word (ta + 4 * i)
      else programWord (s.flash.word (ta + 4 * i)) (ws.getD i 0) (drawWord d i) := by
  rw [State.pulsedFlash, Memory.word_putWords _ _ _ _ (by simpa using hi), getD_pulsedWords _ _ _ _ _ hi,
    Memory.words_getD _ _ _ _ hi]

theorem word_violatedFlash (s : State) (d v ta : Nat) {ws : List Word} {i : Nat} (hi : i < ws.length) :
    (s.violatedFlash d v ta ws).word (ta + 4 * i) =
      if i < v ∧ d.testBit (32 * ws.length + i) then
        programWord (s.flash.word (ta + 4 * i)) (ws.getD i 0) (drawWord d i)
      else s.flash.word (ta + 4 * i) := by
  rw [State.violatedFlash, Memory.word_putWords _ _ _ _ (by simpa using hi), getD_violatedWords _ _ _ _ hi,
    Memory.words_getD _ _ _ _ hi]

/-- R73: a byte outside the request is as before. -/
theorem read_pulsedFlash_of_outside (s : State) (d ta : Nat) (ws : List Word) {a : Nat}
    (ha : a < ta ∨ ta + 4 * ws.length ≤ a) : (s.pulsedFlash d ta ws).read a = s.flash.read a := by
  rw [State.pulsedFlash, Memory.read_putWords, length_pulsedWords, if_neg (by omega)]

/-- A word that is replaced by itself leaves its bytes. -/
theorem read_putWords_of_word_eq {m : Memory} {ta a : Nat} {ws : List Word} (hlo : ta ≤ a)
    (h : ws.getD ((a - ta) / 4) 0 = m.word (ta + 4 * ((a - ta) / 4))) : (m.putWords ta ws).read a = m.read a := by
  rw [Memory.read_putWords]
  split
  · rw [h, Memory.byteOf_word _ _ _ (Nat.mod_lt _ (by decide))]
    congr 1
    omega
  · rfl

/-- R77: the violating word, the words after it and every byte outside the request are as before. -/
theorem read_violatedFlash_of_outside (s : State) (d ta : Nat) (ws : List Word) {v a : Nat}
    (ha : a < ta ∨ ta + 4 * v ≤ a) : (s.violatedFlash d v ta ws).read a = s.flash.read a := by
  by_cases hin : ta ≤ a ∧ a < ta + 4 * ws.length
  · have hi : (a - ta) / 4 < ws.length := by omega
    refine read_putWords_of_word_eq hin.1 ?_
    rw [getD_violatedWords _ _ _ _ hi, if_neg (by omega), Memory.words_getD _ _ _ _ hi]
  · rw [State.violatedFlash, Memory.read_putWords, length_violatedWords, if_neg hin]

/-! ### The completion of a pending request (R71, R75) -/

theorem pulseUnitStep_of_pending {s : State} {r : Request} (h : s.mpend = some r) :
    pulseUnitStep s = complete s.drawValue r s.drawNext := by
  simp [pulseUnitStep, h]

/-- R71, R77: a burst that meets a violating word. -/
theorem pulseUnitStep_of_violation {s : State} {ta : Word} {ws : List Word} {pre : Bool} {v : Nat}
    (hr : s.mpend = some (.prog ta ws pre true)) (hv : s.firstViolation ta.toNat ws.length = some v) :
    pulseUnitStep s =
      { s.drawNext.completed with flash := s.violatedFlash s.drawValue v ta.toNat ws, mfRegv := true } := by
  rw [pulseUnitStep_of_pending hr, complete]
  have hv' : s.drawNext.firstViolation ta.toNat ws.length = some v := hv
  obtain ⟨u, -, hu, h⟩ | ⟨hnone, -⟩ | ⟨hnone, -⟩ := completeProg_cases s.drawValue ta.toNat ws pre true s.drawNext
  · obtain rfl := Option.some.inj (hv'.symm.trans hu)
    exact h
  · simp [hv'] at hnone
  · simp [hv'] at hnone

/-- R71, R72: a request that meets no violating word and fails pre-verify. -/
theorem pulseUnitStep_of_preFails {s : State} {ta : Word} {ws : List Word} {burst : Bool}
    (hr : s.mpend = some (.prog ta ws true burst))
    (hfree : burst = true → ∀ i < ws.length, s.Free (ta.toNat + 4 * i))
    (hfails : anyPreFails ws (s.flash.words ta.toNat ws.length) = true) :
    pulseUnitStep s = { s.drawNext.completed with mfPre := true } := by
  rw [pulseUnitStep_of_pending hr, complete]
  obtain ⟨v, hburst, hv, -⟩ | ⟨-, -, -, h⟩ | ⟨-, hpass, -⟩ :=
    completeProg_cases s.drawValue ta.toNat ws true burst s.drawNext
  · cases hv.symm.trans (firstViolation_eq_none (s := s.drawNext) (hfree hburst))
  · exact h
  · simp [hfails] at hpass

/-- R71, R73: a request that meets no violating word and passes pre-verify, or has it disabled. -/
theorem pulseUnitStep_of_passes {s : State} {ta : Word} {ws : List Word} {pre burst : Bool}
    (hr : s.mpend = some (.prog ta ws pre burst))
    (hfree : burst = true → ∀ i < ws.length, s.Free (ta.toNat + 4 * i))
    (hpass : pre = true → anyPreFails ws (s.flash.words ta.toNat ws.length) = false) :
    pulseUnitStep s = { s.drawNext.completed with flash := s.pulsedFlash s.drawValue ta.toNat ws } := by
  rw [pulseUnitStep_of_pending hr, complete]
  obtain ⟨v, hburst, hv, -⟩ | ⟨-, hpre, hfails, -⟩ | ⟨-, -, h⟩ :=
    completeProg_cases s.drawValue ta.toNat ws pre burst s.drawNext
  · cases hv.symm.trans (firstViolation_eq_none (s := s.drawNext) (hfree hburst))
  · cases hfails.symm.trans (hpass hpre)
  · exact h

/-- Settles O27: no word violates, and some word fails pre-verify. -/
theorem preVerifyInhibitsTheRequest : Obligations.PreVerifyInhibitsTheRequest := by
  unfold Obligations.PreVerifyInhibitsTheRequest
  intro s ta ws burst hr hfree hfails
  exact pulseUnitStep_of_preFails hr hfree ((anyPreFails_words_iff ..).2 hfails)

/-- Settles O28: the pulse is committed, and the draws of `exists_drawWord` take every choice of failed bits. -/
theorem committedPulseProgramsItsWords : Obligations.CommittedPulseProgramsItsWords := by
  unfold Obligations.CommittedPulseProgramsItsWords
  intro s ta ws pre burst hr hfree hpass
  have hverify (hpre : pre = true) : anyPreFails ws (s.flash.words ta.toNat ws.length) = false := by
    rw [← Bool.not_eq_true, anyPreFails_words_iff]
    rintro ⟨i, hi, hne⟩
    exact hne (hpass hpre i hi)
  have hstep := pulseUnitStep_of_passes hr hfree hverify
  have hflash : (pulseUnitStep s).flash = s.pulsedFlash s.drawValue ta.toNat ws := by rw [hstep]
  have hdrawn (d : Nat) : (pulseUnitStep { s with tape := d :: s.tape }).flash = s.pulsedFlash d ta.toNat ws :=
    congrArg State.flash (pulseUnitStep_of_passes (s := { s with tape := d :: s.tape }) hr hfree hverify)
  refine ⟨fun i hi => ⟨fun hlocked => ?_, fun hunlocked => ?_⟩, fun fs hfs => ?_, fun a ha => ?_, by rw [hstep]; rfl⟩
  · rw [hflash, word_pulsedFlash _ _ _ hi, if_pos hlocked]
  · obtain ⟨f, hf, hword⟩ := exists_failedBits (s.flash.word (ta.toNat + 4 * i)) (ws.getD i 0) (drawWord s.drawValue i)
    exact ⟨f, hf, by rw [hflash, word_pulsedFlash _ _ _ hi, if_neg (by simp [hunlocked]), hword]⟩
  · obtain ⟨d, hd⟩ := exists_drawWord ws.length fs fun _ => false
    refine ⟨d, fun i hi => ?_⟩
    dsimp only
    intro hunlocked
    rw [hdrawn, word_pulsedFlash _ _ _ hi, if_neg (by simp [hunlocked]), (hd i hi).1, programWord_of_subset (hfs i hi)]
  · rw [hflash, read_pulsedFlash_of_outside _ _ _ _ ha]

/-- Settles O29: word `v` is the first violating one, and the draws of `exists_drawWord` take every choice of words and
of failed bits. -/
theorem regionViolationLeavesTheRest : Obligations.RegionViolationLeavesTheRest := by
  unfold Obligations.RegionViolationLeavesTheRest
  intro s ta ws pre v hr hv hbad hfree
  have hfirst := firstViolation_eq_some hv ((violates_iff ..).2 hbad) hfree
  have hstep := pulseUnitStep_of_violation hr hfirst
  have hflash : (pulseUnitStep s).flash = s.violatedFlash s.drawValue v ta.toNat ws := by rw [hstep]
  have hdrawn (d : Nat) : (pulseUnitStep { s with tape := d :: s.tape }).flash = s.violatedFlash d v ta.toNat ws :=
    congrArg State.flash (pulseUnitStep_of_violation (s := { s with tape := d :: s.tape }) hr hfirst)
  refine ⟨fun i hi => ?_, fun go fs hfs => ?_, fun a ha => ?_, by rw [hstep]; rfl⟩
  · obtain ⟨f, hf, hword⟩ := exists_failedBits (s.flash.word (ta.toNat + 4 * i)) (ws.getD i 0) (drawWord s.drawValue i)
    dsimp only
    rw [hflash, word_violatedFlash _ _ _ _ (hi.trans hv)]
    split
    · exact .inr ⟨f, hf, hword⟩
    · exact .inl rfl
  · obtain ⟨d, hd⟩ := exists_drawWord ws.length fs go
    refine ⟨d, fun i hi => ?_⟩
    obtain ⟨hword, hgo⟩ := hd i (hi.trans hv)
    dsimp only
    rw [hdrawn, word_violatedFlash _ _ _ _ (hi.trans hv), hword, hgo, programWord_of_subset (hfs i hi)]
    simp only [hi, true_and]
  · rw [hflash, read_violatedFlash_of_outside _ _ _ _ ha]

/-! ### The completion of an erase (R75, R78) -/

/-- R75: the array after an erase pulse. -/
def State.erasedFlash (s : State) (d sb : Nat) : Memory :=
  s.flash.fill sb Config.sectorSize fun k => eraseByte (s.flash.read (sb + k)) (drawByte d k)

theorem read_erasedFlash (s : State) (d sb : Nat) {k : Nat} (hk : k < Config.sectorSize) :
    (s.erasedFlash d sb).read (sb + k) = eraseByte (s.flash.read (sb + k)) (drawByte d k) := by
  rw [State.erasedFlash, Memory.read_fill, if_pos (by omega), Nat.add_sub_cancel_left]

theorem read_erasedFlash_of_outside (s : State) (d sb : Nat) {a : Nat} (ha : a < sb ∨ sb + Config.sectorSize ≤ a) :
    (s.erasedFlash d sb).read a = s.flash.read a := by
  rw [State.erasedFlash, Memory.read_fill, if_neg (by omega)]

/-- R78: a locked sector's erase changes nothing of the array. -/
theorem pulseUnitStep_erase_of_locked {s : State} {sb : Word} (hr : s.mpend = some (.erase sb))
    (hlocked : s.locked sb.toNat = true) : pulseUnitStep s = s.drawNext.completed := by
  rw [pulseUnitStep_of_pending hr, complete]
  obtain ⟨-, h⟩ | ⟨hunlocked, -⟩ := completeErase_cases s.drawValue sb.toNat s.drawNext
  · exact h
  · cases hlocked.symm.trans hunlocked

theorem pulseUnitStep_erase_of_unlocked {s : State} {sb : Word} (hr : s.mpend = some (.erase sb))
    (hunlocked : s.locked sb.toNat = false) :
    pulseUnitStep s = { s.drawNext.completed with flash := s.erasedFlash s.drawValue sb.toNat } := by
  rw [pulseUnitStep_of_pending hr, complete]
  obtain ⟨hlocked, -⟩ | ⟨-, h⟩ := completeErase_cases s.drawValue sb.toNat s.drawNext
  · cases hunlocked.symm.trans hlocked
  · exact h

/-- Settles O30: by the lock of the sector; the draws of `exists_drawByte` take every choice of unerased bits. -/
theorem erasePulseErasesItsSector : Obligations.ErasePulseErasesItsSector := by
  unfold Obligations.ErasePulseErasesItsSector
  intro s sb hr
  cases hlock : s.locked sb.toNat with
  | true =>
    have hstep := pulseUnitStep_erase_of_locked hr hlock
    exact ⟨fun _ => by rw [hstep]; rfl, by simp, by simp, fun a _ => by rw [hstep]; rfl, by rw [hstep]; rfl⟩
  | false =>
    have hstep := pulseUnitStep_erase_of_unlocked hr hlock
    have hflash : (pulseUnitStep s).flash = s.erasedFlash s.drawValue sb.toNat := by rw [hstep]
    have hdrawn (d : Nat) : (pulseUnitStep { s with tape := d :: s.tape }).flash = s.erasedFlash d sb.toNat :=
      congrArg State.flash (pulseUnitStep_erase_of_unlocked (s := { s with tape := d :: s.tape }) hr hlock)
    refine ⟨by simp, fun _ k hk => ?_, fun _ zs hzs => ?_, fun a ha => ?_, by rw [hstep]; rfl⟩
    · rw [hflash, read_erasedFlash _ _ _ hk]
      exact exists_unerasedBits _ _
    · obtain ⟨d, hd⟩ := exists_drawByte 4096 zs
      refine ⟨d, fun k hk => ?_⟩
      rw [hdrawn, read_erasedFlash _ _ _ hk, hd k hk, eraseByte_of_subset (hzs k hk)]
    · rw [hflash, read_erasedFlash_of_outside _ _ _ ha]

/-! ### The direction in which bits move (R70) -/

/-- R73: a committed pulse sets no bit of a word. -/
theorem programWord_sets_none (old w f : Word) : programWord old w f &&& ~~~old = 0 := by
  ext i hi
  cases h : old[i] <;> simp [programWord, h]

/-- R75: an erase pulse clears no bit of a byte. -/
theorem eraseByte_clears_none (old z : Byte) : old &&& ~~~(eraseByte old z) = 0 := by
  ext i hi
  cases h : old[i] <;> simp [eraseByte, h]

theorem byteOf_and_not (x y : Word) (k : Nat) (hk : k < 4) : byteOf x k &&& ~~~(byteOf y k) = byteOf (x &&& ~~~y) k := by
  apply BitVec.eq_of_getLsbD_eq
  intro i hi
  have : 8 * k + i < 32 := by omega
  simp [getLsbD_byteOf, hi, this, -BitVec.getLsbD_eq_getElem]

/-- Where no word sets a bit of the word that it replaces, no byte does. -/
theorem read_putWords_sets_none {m : Memory} {ta : Nat} {ws : List Word}
    (h : ∀ i < ws.length, ws.getD i 0 &&& ~~~(m.word (ta + 4 * i)) = 0) (a : Nat) :
    (m.putWords ta ws).read a &&& ~~~(m.read a) = 0 := by
  rw [Memory.read_putWords]
  split
  · have hk : (a - ta) % 4 < 4 := Nat.mod_lt _ (by decide)
    have ha : a = ta + 4 * ((a - ta) / 4) + (a - ta) % 4 := by omega
    have hold : m.read a = byteOf (m.word (ta + 4 * ((a - ta) / 4))) ((a - ta) % 4) := by
      rw [Memory.byteOf_word _ _ _ hk, ← ha]
    rw [hold, byteOf_and_not _ _ _ hk, h _ (by omega)]
    simp [byteOf]
  · exact BitVec.and_not_self _

/-- R70, R73, R77: the completion of a program request sets no bit of the array. -/
theorem completeProg_sets_none (d ta : Nat) (ws : List Word) (pre burst : Bool) (s : State) (a : Nat) :
    (completeProg d ta ws pre burst s).flash.read a &&& ~~~(s.flash.read a) = 0 := by
  obtain ⟨v, -, -, h⟩ | ⟨-, -, -, h⟩ | ⟨-, -, h⟩ := completeProg_cases d ta ws pre burst s <;> rw [h]
  · refine read_putWords_sets_none (fun i hi => ?_) a
    have hi : i < ws.length := by simpa using hi
    rw [getD_violatedWords _ _ _ _ hi, Memory.words_getD _ _ _ _ hi]
    split
    · exact programWord_sets_none ..
    · exact BitVec.and_not_self _
  · exact BitVec.and_not_self _
  · refine read_putWords_sets_none (fun i hi => ?_) a
    have hi : i < ws.length := by simpa using hi
    rw [getD_pulsedWords _ _ _ _ _ hi, Memory.words_getD _ _ _ _ hi]
    split
    · exact BitVec.and_not_self _
    · exact programWord_sets_none ..

/-- R70, R75: the completion of an erase request clears no bit of the array. -/
theorem completeErase_clears_none (d sb : Nat) (s : State) (a : Nat) :
    s.flash.read a &&& ~~~((completeErase d sb s).flash.read a) = 0 := by
  obtain ⟨-, h⟩ | ⟨-, h⟩ := completeErase_cases d sb s <;> rw [h]
  · exact BitVec.and_not_self _
  · change s.flash.read a &&& ~~~((s.erasedFlash d sb).read a) = 0
    by_cases ha : a < sb ∨ sb + Config.sectorSize ≤ a
    · rw [read_erasedFlash_of_outside _ _ _ ha]
      exact BitVec.and_not_self _
    · obtain ⟨k, rfl⟩ : ∃ k, a = sb + k := ⟨a - sb, by omega⟩
      rw [read_erasedFlash _ _ _ (by omega)]
      exact eraseByte_clears_none ..

/-- Settles O31, by the kind of the pending request. -/
theorem pulsesMoveBitsOneWay : Obligations.PulsesMoveBitsOneWay := by
  unfold Obligations.PulsesMoveBitsOneWay
  refine fun s a => ⟨fun ta ws pre burst hr => ?_, fun ta hr => ?_⟩
  · rw [pulseUnitStep_of_pending hr]
    exact completeProg_sets_none _ _ _ _ _ s.drawNext a
  · rw [pulseUnitStep_of_pending hr]
    exact completeErase_clears_none _ _ s.drawNext a

/-! ### Where the array changes (R69, R225, R247) -/

/-- R65: no host step changes the array. -/
theorem HostOutcome.flash_eq {s t : State} (h : HostOutcome s t) : t.flash = s.flash := by
  cases h with
  | recorded => rfl
  | stored => rfl
  | wrote ops r v => exact (writeReg_sameMemories r v { s with host := ops }).1
  | commanded ops t _ h => exact h.sameMemories.1

/-- R71, R75: a completion changes the array only in the span of its request. -/
theorem read_complete_of_outside {d : Nat} {r : Request} {s : State} {a : Nat}
    (ha : ¬ (r.base ≤ a ∧ a < r.base + r.size)) :
    (complete d r s).flash.read a = s.flash.read a := by
  obtain ⟨m, pre, regv, h, rfl | ⟨f, rfl⟩⟩ := complete_eq d r s <;> rw [h]
  exact (Memory.read_fill ..).trans (if_neg ha)

theorem mpend_complete (d : Nat) (r : Request) (s : State) : (complete d r s).mpend = none := by
  obtain ⟨m, pre, regv, h, -⟩ := complete_eq d r s
  rw [h]
  rfl

/-- R69, R70: the flash macro changes the array only as it completes a request, and only in the target. -/
theorem pulseUnitStep_changes_target {s : State} (h : s.Inv) {a : Nat}
    (hne : (pulseUnitStep s).flash.read a ≠ s.flash.read a) :
    s.mpend ≠ none ∧ (pulseUnitStep s).mpend = none ∧ s.InTarget a := by
  obtain ⟨-, ht⟩ | ⟨r, hr, ht⟩ := pulseUnitStep_cases s <;> rw [ht] at hne ⊢
  · exact absurd rfl hne
  · have hspan : r.base ≤ a ∧ a < r.base + r.size := by
      by_contra hout
      exact hne (read_complete_of_outside hout)
    obtain ⟨-, hbase, hsize⟩ := h.request_span hr
    rw [hbase, hsize] at hspan
    refine ⟨by simp [hr], mpend_complete .., hspan.1, ?_⟩
    rw [State.targetEnd]
    omega

/-- Settles O38: of the three agents, only the flash macro changes the array. -/
theorem arrayChangesOnlyInTheTarget : Obligations.ArrayChangesOnlyInTheTarget := by
  unfold Obligations.ArrayChangesOnlyInTheTarget
  intro s t a h hsched ht hne
  obtain ⟨rest, hreset, -⟩ | ⟨agent, q, d, hagent⟩ := step_cases s
  · exact absurd hreset (hsched rest)
  · rw [hagent] at ht
    cases agent with
    | host => exact absurd (congrArg (·.read a) (hostStep_outcome ht).flash_eq) hne
    | controller => exact absurd (congrArg (·.read a) (controllerStep_sameMemories ht).1) hne
    | pulseUnit =>
      cases ht
      exact pulseUnitStep_changes_target (h.recorded s.rdata s.host q s.tape d) hne

/-! ### Regions and alignment (R60, R64, R66) -/

theorem regionOf_of_inFlash {p : Params} {a : Nat} (h : InFlash p a) : regionOf p a = .flash := if_pos h

theorem regionOf_of_neither {p : Params} {a : Nat} (hflash : ¬ InFlash p a) (hwin : ¬ InWindow p a) :
    regionOf p a = .sysmem := by
  rw [regionOf, if_neg hflash, if_neg hwin]

/-- R8, R60: the window does not overlap flash. -/
theorem regionOf_of_inWindow {p : Params} {a : Nat} (hp : p.Wf) (h : InWindow p a) : regionOf p a = .window := by
  obtain ⟨-, -, ⟨-, -, hdisjoint⟩, -⟩ := hp
  have hflash : ¬ InFlash p a := by
    simp only [InFlash, InWindow] at *
    omega
  rw [regionOf, if_neg hflash, if_pos h]

theorem aligned_iff (w : Width) (a : Word) : aligned w a = true ↔ a.toNat % w.bytes = 0 := by
  simp [aligned]

theorem admitted_iff (w : Width) (a : Word) : admitted w a = true ↔ w = .w32 ∧ a.toNat % 4 = 0 := by
  cases w <;> simp [admitted, aligned, Width.bytes]

/-- R60, R64: an aligned access lies in flash with its first byte. -/
theorem inFlash_add_iff {p : Params} (hp : p.Wf) {w : Width} {a k : Nat} (halign : a % w.bytes = 0) (hk : k < w.bytes) :
    InFlash p (a + k) ↔ InFlash p a := by
  obtain ⟨-, hsize, hbase, -⟩ := multiples_of_wf hp
  simp only [InFlash, Params.flashEnd]
  cases w <;> simp only [Width.bytes] at halign hk <;> omega

theorem bytes_le_four (w : Width) : w.bytes ≤ 4 := by cases w <;> decide

/-- R20: an offset that names a register is that register's. -/
theorem offset_of_ofOffset {n : Nat} {r : Reg} (h : Reg.ofOffset n = some r) : r.offset = n := by
  unfold Reg.ofOffset at h
  split at h <;> cases h <;> rfl

/-- R20: the offsets from 0x2C on are reserved. -/
theorem ofOffset_of_reserved {n : Nat} (h : 0x2C ≤ n) : Reg.ofOffset n = none := by
  cases hr : Reg.ofOffset n with
  | none => rfl
  | some r =>
    have hmax := offset_le r
    rw [offset_of_ofOffset hr] at hmax
    omega

/-! ### The host's loads (R64, R84, R282, R284) -/

/-- R62: a byte beyond those that were read is 0. -/
theorem byteOf_readLE_of_ge (f : Nat → Byte) (a n k : Nat) (hk : n ≤ k) : byteOf (readLE f a n) k = 0 := by
  apply BitVec.eq_of_getLsbD_eq
  intro i hi
  rw [getLsbD_byteOf _ _ _ hi]
  by_cases h : 8 * k + i < 32
  · rw [getLsbD_readLE _ _ _ _ h]
    simp
    omega
  · rw [BitVec.getLsbD_of_ge _ _ (by omega)]
    simp

/-- R6, R108: the host's next operation, on its turn. -/
theorem step_of_hostNext {s : State} {o : HostOp} {rest : List Turn} {ops : List HostOp} (h : s.HostNext o rest ops) :
    step s = hostOp o (s.taken rest ops) := by
  obtain ⟨hsched, hhost⟩ := h
  rw [step_of_sched hsched, agentStep, hostStep, hhost]
  rfl

theorem hostLoad_sysmem {s : State} {w : Width} {a : Word} (hregion : regionOf s.params a.toNat = .sysmem)
    (halign : aligned w a = true) : hostLoad w a s = .next { s with rdata := s.memRead a.toNat w.bytes } := by
  simp [hostLoad, hregion, halign]

theorem hostLoad_flash {s : State} {w : Width} {a : Word} (hregion : regionOf s.params a.toNat = .flash)
    (halign : aligned w a = true) : hostLoad w a s = .next (loadFlash w a s) := by
  simp [hostLoad, hregion, halign]

theorem hostLoad_window {s : State} {w : Width} {a : Word} (hregion : regionOf s.params a.toNat = .window) :
    hostLoad w a s = loadWindow w a s := by
  simp [hostLoad, hregion]

theorem hostLoad_misaligned {s : State} {w : Width} {a : Word} (hwin : ¬ InWindow s.params a.toNat)
    (halign : aligned w a = false) : hostLoad w a s = .fault (.misaligned a w) := by
  by_cases hin : InFlash s.params a.toNat
  · simp [hostLoad, regionOf_of_inFlash hin, halign]
  · simp [hostLoad, regionOf_of_neither hin hwin, halign]

theorem readsFree_iff (s : State) (a : Word) :
    s.readsFree a = true ↔ s.phase ≠ .idle ∧ declares s.exb (bankOf s.params a.toNat) = false := by
  simp [State.readsFree, State.busy]

/-- R64, R84: an aligned load that R84 does not make free. -/
theorem hostLoad_stored {s : State} {w : Width} {a : Word} (hwin : ¬ InWindow s.params a.toNat)
    (halign : a.toNat % w.bytes = 0)
    (hread : InFlash s.params a.toNat → s.phase = .idle ∨ declares s.exb (bankOf s.params a.toNat) = true) :
    hostLoad w a s = .next { s with rdata := s.memRead a.toNat w.bytes } := by
  have halign := (aligned_iff ..).2 halign
  by_cases hin : InFlash s.params a.toNat
  · have hfree : ¬ s.readsFree a = true := by
      rw [readsFree_iff]
      rintro ⟨hbusy, hundeclared⟩
      rcases hread hin with hidle | hdeclared
      · exact hbusy hidle
      · cases hundeclared.symm.trans hdeclared
    rw [hostLoad_flash (regionOf_of_inFlash hin) halign, loadFlash, if_neg hfree]
  · exact hostLoad_sysmem (regionOf_of_neither hin hwin) halign

/-- R84: an aligned load that R84 makes free. -/
theorem hostLoad_free {s : State} {w : Width} {a : Word} (hin : InFlash s.params a.toNat)
    (halign : a.toNat % w.bytes = 0) (hbusy : s.phase ≠ .idle)
    (hundeclared : declares s.exb (bankOf s.params a.toNat) = false) :
    hostLoad w a s = .next { s.drawNext with rdata := narrow w (drawWord s.drawValue 0) } := by
  rw [hostLoad_flash (regionOf_of_inFlash hin) ((aligned_iff ..).2 halign), loadFlash,
    if_pos ((readsFree_iff ..).2 ⟨hbusy, hundeclared⟩)]

/-- R60, R62: the bytes of an aligned load, all of the memory of its first byte. -/
theorem byteOf_memRead {s : State} (hp : s.params.Wf) {w : Width} {a k : Nat} (halign : a % w.bytes = 0)
    (hk : k < w.bytes) :
    byteOf (s.memRead a w.bytes) k =
      if InFlash s.params a then s.flash.read (a + k) else s.sysmem.read (a + k) := by
  rw [State.memRead, byteOf_readLE _ _ _ _ hk (bytes_le_four w), State.memByte]
  exact if_congr (inFlash_add_iff hp halign hk) rfl rfl

/-- Settles O48: the load returns what `MemRead` reads, whose bytes are the stored ones and 0 beyond the width. -/
theorem loadReturnsTheStoredBytes : Obligations.LoadReturnsTheStoredBytes := by
  unfold Obligations.LoadReturnsTheStoredBytes
  intro s w a rest ops hp hnext hwin halign hread
  refine ⟨s.memRead a.toNat w.bytes, ?_, fun k hk => byteOf_memRead hp halign hk,
    fun k hk => byteOf_readLE_of_ge _ _ _ _ hk⟩
  rw [step_of_hostNext hnext]
  exact hostLoad_stored (s := s.taken rest ops) hwin halign hread

/-- Settles O49: the load of an undeclared bank takes a draw. -/
theorem flashLoadIsFreeWhileBusy : Obligations.FlashLoadIsFreeWhileBusy := by
  unfold Obligations.FlashLoadIsFreeWhileBusy
  intro s w a rest ops hnext hin halign hbusy hundeclared
  rw [step_of_hostNext hnext]
  exact hostLoad_free (s := s.taken rest ops) hin halign hbusy hundeclared

/-! ### The host's stores (R65, R67, R283, R284) -/

theorem hostStore_sysmem {s : State} {w : Width} {a v : Word} (hregion : regionOf s.params a.toNat = .sysmem)
    (halign : aligned w a = true) :
    hostStore w a v s = .next { s with sysmem := s.sysmem.writeLE a.toNat w.bytes v } := by
  simp [hostStore, hregion, halign]

theorem hostStore_misaligned {s : State} {w : Width} {a v : Word} (hregion : regionOf s.params a.toNat = .sysmem)
    (halign : aligned w a = false) : hostStore w a v s = .fault (.misaligned a w) := by
  simp [hostStore, hregion, halign]

theorem hostStore_flash {s : State} {w : Width} {a v : Word} (hregion : regionOf s.params a.toNat = .flash) :
    hostStore w a v s = .fault (.flashStore a w (narrow w v)) := by
  simp [hostStore, hregion]

theorem hostStore_window {s : State} {w : Width} {a v : Word} (hregion : regionOf s.params a.toNat = .window) :
    hostStore w a v s = storeWindow w a v s := by
  simp [hostStore, hregion]

/-- Settles O50: SYSMEM is written at the bytes of the store only. -/
theorem sysmemStoreStoresItsBytes : Obligations.SysmemStoreStoresItsBytes := by
  unfold Obligations.SysmemStoreStoresItsBytes
  intro s w a v rest ops hnext hflash hwin halign
  refine ⟨s.sysmem.writeLE a.toNat w.bytes v, ?_, fun k hk => ?_, fun b hb => ?_⟩
  · rw [step_of_hostNext hnext]
    exact hostStore_sysmem (s := s.taken rest ops) (regionOf_of_neither hflash hwin) ((aligned_iff ..).2 halign)
  · rw [Memory.read_writeLE, if_pos (by omega), Nat.add_sub_cancel_left]
  · rw [Memory.read_writeLE, if_neg (by omega)]

/-- Settles O52: the region of the first byte is flash. -/
theorem flashStoreFaults : Obligations.FlashStoreFaults := by
  unfold Obligations.FlashStoreFaults
  intro s w a v rest ops hnext hin
  rw [step_of_hostNext hnext]
  exact ⟨hostStore_flash (s := s.taken rest ops) (regionOf_of_inFlash hin), rfl⟩

/-- Settles O53: the region of the first byte is flash or SYSMEM. -/
theorem misalignedAccessFaults : Obligations.MisalignedAccessFaults := by
  unfold Obligations.MisalignedAccessFaults
  intro s w a v rest ops _ hwin hmis
  have halign : aligned w a = false := by rwa [← Bool.not_eq_true, aligned_iff]
  refine ⟨fun hnext => ?_, fun hnext hflash => ?_⟩ <;> rw [step_of_hostNext hnext]
  · exact hostLoad_misaligned (s := s.taken rest ops) hwin halign
  · exact hostStore_misaligned (s := s.taken rest ops) (regionOf_of_neither hflash hwin) halign

/-! ### The host's accesses to the window (R66, R282) -/

theorem loadWindow_of_not_admitted {s : State} {w : Width} {a : Word} (h : admitted w a = false) :
    loadWindow w a s = .fault (.badWidth a w) := by
  simp [loadWindow, h]

theorem loadWindow_of_reserved {s : State} {w : Width} {a : Word} (h : admitted w a = true)
    (hres : Reg.ofOffset (a.toNat - s.params.fpcBase) = none) : loadWindow w a s = .fault (.reservedOffset a w) := by
  simp [loadWindow, h, hres]

theorem storeWindow_of_not_admitted {s : State} {w : Width} {a v : Word} (hidle : s.phase = .idle)
    (h : admitted w a = false) : storeWindow w a v s = .fault (.badWidth a w) := by
  simp [storeWindow, State.busy, hidle, h]

theorem storeWindow_of_reserved {s : State} {w : Width} {a v : Word} (hidle : s.phase = .idle)
    (h : admitted w a = true) (hres : Reg.ofOffset (a.toNat - s.params.fpcBase) = none) :
    storeWindow w a v s = .fault (.reservedOffset a w) := by
  simp [storeWindow, State.busy, hidle, h, hres]

/-- Settles O51: the width test comes first, and then the register map has nothing at the offset. -/
theorem windowAccessFaults : Obligations.WindowAccessFaults := by
  unfold Obligations.WindowAccessFaults
  intro s w a v rest ops hp hin stops
  have hregion : regionOf (s.taken rest ops).params a.toNat = .window := regionOf_of_inWindow hp hin
  have hload (hnext : s.HostNext (.load w a) rest ops) : step s = loadWindow w a (s.taken rest ops) :=
    (step_of_hostNext hnext).trans (hostLoad_window hregion)
  have hstore (hnext : s.HostNext (.store w a v) rest ops) : step s = storeWindow w a v (s.taken rest ops) :=
    (step_of_hostNext hnext).trans (hostStore_window hregion)
  refine ⟨fun hbad => ?_, fun hw halign hofs => ?_⟩
  · have hadmitted : admitted w a = false := by
      rw [← Bool.not_eq_true, admitted_iff]
      rintro ⟨hw, halign⟩
      exact hbad.elim (absurd hw) (absurd halign)
    exact ⟨fun hnext => (hload hnext).trans (loadWindow_of_not_admitted hadmitted),
      fun hnext hidle => (hstore hnext).trans (storeWindow_of_not_admitted hidle hadmitted)⟩
  · have hadmitted := (admitted_iff w a).2 ⟨hw, halign⟩
    have hres := ofOffset_of_reserved hofs
    exact ⟨fun hnext => (hload hnext).trans (loadWindow_of_reserved hadmitted hres),
      fun hnext hidle => (hstore hnext).trans (storeWindow_of_reserved hidle hadmitted hres)⟩

/-! ### POLL (R82, R110) -/

/-- Settles O54: bit 0 of the status word is BUSY. -/
theorem pollLoopsWhileBusy : Obligations.PollLoopsWhileBusy := by
  unfold Obligations.PollLoopsWhileBusy
  intro s rest ops hnext
  obtain ⟨hbusy, -⟩ := statusWordLayout (s.taken rest ops)
  rw [step_of_hostNext hnext, hostOp, hostPoll_eq]
  refine ⟨fun hphase => ?_, fun hphase => ?_⟩
  · rw [if_pos (hbusy.2 hphase)]
    rfl
  · rw [if_neg fun h => hbusy.1 h hphase]
    rfl

end Sys2Proof.Machine

/-! Proofs about the encoding (spec/30_encoding.md): the fields of a command word, the decoder against the encoder and
against the opcode table, the host's store of a command, and the banks that a command declares. -/

namespace Sys2Proof.Machine

/-! ### The fields of a command word (R100) -/

theorem append_eq_append_iff {v w : Nat} {x x' : BitVec v} {y y' : BitVec w} :
    x ++ y = x' ++ y' ↔ x = x' ∧ y = y' := by
  constructor
  · intro h
    have hhigh := congrArg (BitVec.extractLsb' w v) h
    have hlow := congrArg (BitVec.extractLsb' 0 w) h
    rw [BitVec.extractLsb'_append_eq_left, BitVec.extractLsb'_append_eq_left] at hhigh
    rw [BitVec.extractLsb'_append_eq_right, BitVec.extractLsb'_append_eq_right] at hlow
    exact ⟨hhigh, hlow⟩
  · rintro ⟨rfl, rfl⟩
    rfl

/-- R100: the fields of a command word, bit 31 first. -/
theorem word_eq_fields (c : Word) :
    c = c.extractLsb' 10 22 ++ execbField c ++ c.extractLsb' 4 4 ++ opField c := by
  have hexecb : c.extractLsb' 10 22 ++ execbField c = c.extractLsb' 8 24 :=
    BitVec.extractLsb'_append_extractLsb'_eq_extractLsb' rfl
  have hreserved : c.extractLsb' 8 24 ++ c.extractLsb' 4 4 = c.extractLsb' 4 28 :=
    BitVec.extractLsb'_append_extractLsb'_eq_extractLsb' rfl
  have hop : c.extractLsb' 4 28 ++ opField c = c.extractLsb' 0 32 :=
    BitVec.extractLsb'_append_extractLsb'_eq_extractLsb' rfl
  rw [hexecb, hreserved, hop, BitVec.extractLsb'_eq_self]

theorem reservedClear_iff (c : Word) :
    reservedClear c = true ↔ c.extractLsb' 10 22 = 0 ∧ c.extractLsb' 4 4 = 0 := by
  simp [reservedClear]

/-- R100: a word has the fields of a command. -/
def HasFields (c : Word) (i : Instr) : Prop :=
  reservedClear c = true ∧ opField c = opcode i ∧ execbField c = execbOf i

/-- R100: a command encodes to the one word that has its fields. -/
theorem encode_eq_iff (c : Word) (i : Instr) : encode i = c ↔ HasFields c i := by
  have hfields : c = encode i ↔
      ((c.extractLsb' 10 22 = 0#22 ∧ execbField c = execbOf i) ∧ c.extractLsb' 4 4 = 0#4) ∧ opField c = opcode i := by
    rw [← append_eq_append_iff, ← append_eq_append_iff, ← append_eq_append_iff, ← word_eq_fields]
    rfl
  rw [eq_comm, hfields, HasFields, reservedClear_iff]
  tauto

/-! ### The decoder (R104) -/

theorem declared_eq_ok_iff {op : BitVec 4} {e : BitVec 2} {i j : Instr} :
    declared op e i = .ok j ↔ e ≠ 0 ∧ i = j := by
  unfold declared
  split
  case isTrue he => simp [he]
  case isFalse he => simp only [Except.ok.injEq, ne_eq, he, not_false_eq_true, true_and]

theorem decode_eq_ok_of_hasFields {c : Word} {i : Instr} (h : HasFields c i) (hwf : i.wf = true) :
    decode c = .ok i := by
  obtain ⟨hclear, hop, hexecb⟩ := h
  unfold decode
  rw [if_pos hclear, hop, hexecb]
  cases i with
  | nop e => rfl
  | init e => rfl
  | writeWord e | writeArray e | fastWrite e | erase e => exact declared_eq_ok_iff.2 ⟨bne_iff_ne.1 hwf, rfl⟩

theorem hasFields_of_decode_eq_ok {c : Word} {i : Instr} (h : decode c = .ok i) : HasFields c i ∧ i.wf = true := by
  unfold decode at h
  split at h
  case isFalse => cases h
  case isTrue hclear =>
    split at h
    case h_7 => cases h
    case h_1 hop | h_2 hop => cases h; exact ⟨⟨hclear, BitVec.eq_of_toNat_eq hop, rfl⟩, rfl⟩
    case h_3 hop | h_4 hop | h_5 hop | h_6 hop =>
      obtain ⟨hne, rfl⟩ := declared_eq_ok_iff.1 h
      exact ⟨⟨hclear, BitVec.eq_of_toNat_eq hop, rfl⟩, by simpa [Instr.wf] using hne⟩

/-- R104: the decoder answers the well-formed command whose fields the word has. -/
theorem decode_eq_ok_iff (c : Word) (i : Instr) : decode c = .ok i ↔ i.wf = true ∧ HasFields c i :=
  ⟨fun h => (hasFields_of_decode_eq_ok h).symm, fun ⟨hwf, h⟩ => decode_eq_ok_of_hasFields h hwf⟩

/-- Settles O1: both directions read the word by its fields. -/
theorem decodeInvertsEncode : Obligations.DecodeInvertsEncode := by
  unfold Obligations.DecodeInvertsEncode
  intro c i
  rw [decode_eq_ok_iff, encode_eq_iff]

/-- Settles O3, by the fields of each word. -/
theorem patternWordsDecode : Obligations.PatternWordsDecode := by
  unfold Obligations.PatternWordsDecode
  decide

/-! ### The opcode table (R107) -/

/-- R107: the row of a command. -/
def tableRow : Instr → OpcodeRow
  | .nop _ => opcodeTable[0]
  | .init _ => opcodeTable[1]
  | .writeWord _ => opcodeTable[2]
  | .writeArray _ => opcodeTable[3]
  | .fastWrite _ => opcodeTable[4]
  | .erase _ => opcodeTable[5]

theorem tableRow_mem (i : Instr) : tableRow i ∈ opcodeTable := by
  cases i <;> exact List.getElem_mem _

theorem mnemonic_tableRow (i : Instr) : (tableRow i).mnemonic = mnemonic i := by
  cases i <;> rfl

/-- R102, R107: a row is that of one command for each bank declaration. -/
theorem exists_tableRow_eq {r : OpcodeRow} (hr : r ∈ opcodeTable) (e : BitVec 2) :
    ∃ i, tableRow i = r ∧ execbOf i = e := by
  simp only [opcodeTable, List.mem_cons, List.not_mem_nil, or_false] at hr
  obtain rfl | rfl | rfl | rfl | rfl | rfl := hr
  · exact ⟨.nop e, rfl, rfl⟩
  · exact ⟨.init e, rfl, rfl⟩
  · exact ⟨.writeWord e, rfl, rfl⟩
  · exact ⟨.writeArray e, rfl, rfl⟩
  · exact ⟨.fastWrite e, rfl, rfl⟩
  · exact ⟨.erase e, rfl, rfl⟩

/-- R107: the mask of every row keeps the reserved bits and `OP`. -/
theorem and_mask_eq_iff (c : Word) (op : BitVec 4) :
    c &&& 0xFFFFFCFF = 0#22 ++ 0#2 ++ 0#4 ++ op ↔ reservedClear c = true ∧ opField c = op := by
  have hmasked : c &&& 0xFFFFFCFF = c.extractLsb' 10 22 ++ 0#2 ++ c.extractLsb' 4 4 ++ opField c := by
    have hmask : (0xFFFFFCFF : Word) = BitVec.allOnes 22 ++ 0#2 ++ BitVec.allOnes 4 ++ BitVec.allOnes 4 := by decide
    conv_lhs => rw [word_eq_fields c, hmask, BitVec.and_append, BitVec.and_append, BitVec.and_append]
    simp only [BitVec.and_allOnes, BitVec.and_zero]
  rw [hmasked, append_eq_append_iff, append_eq_append_iff, append_eq_append_iff, reservedClear_iff]
  tauto

/-- R107: a row selects a word by its reserved bits and `OP`, and its side condition asks for a declared bank. -/
theorem selects_tableRow_iff (c : Word) (i : Instr) :
    (tableRow i).selects c = true ↔
      (reservedClear c = true ∧ opField c = opcode i) ∧ ((tableRow i).needsExecb = true → execbField c ≠ 0) := by
  have hvalue : (tableRow i).value = 0#22 ++ 0#2 ++ 0#4 ++ opcode i := by
    cases i <;> simp [tableRow, opcodeTable, opcode]
  have hmask : (tableRow i).mask = 0xFFFFFCFF := by cases i <;> rfl
  rw [← and_mask_eq_iff, OpcodeRow.selects, hvalue, hmask, execbField]
  cases (tableRow i).needsExecb <;> simp

theorem wf_iff_tableRow (i : Instr) : i.wf = true ↔ ((tableRow i).needsExecb = true → execbOf i ≠ 0) := by
  cases i <;> simp [Instr.wf, tableRow, opcodeTable, execbOf]

/-- R104, R107: the decoder answers the command whose row selects the word, with the word's bank declaration. -/
theorem decode_eq_ok_iff_selects (c : Word) (i : Instr) :
    decode c = .ok i ↔ (tableRow i).selects c = true ∧ execbField c = execbOf i := by
  rw [decode_eq_ok_iff, HasFields, selects_tableRow_iff, wf_iff_tableRow]
  constructor
  · rintro ⟨hwf, hclear, hop, hexecb⟩
    exact ⟨⟨⟨hclear, hop⟩, hexecb ▸ hwf⟩, hexecb⟩
  · rintro ⟨⟨⟨hclear, hop⟩, hwf⟩, hexecb⟩
    exact ⟨hexecb ▸ hwf, hclear, hop, hexecb⟩

/-- Settles O2: the row of a decoded command selects its word, and a row that selects a word is that of the command with
the word's bank declaration. -/
theorem decoderAgreesWithOpcodeTable : Obligations.DecoderAgreesWithOpcodeTable := by
  unfold Obligations.DecoderAgreesWithOpcodeTable
  refine ⟨fun c i h => ?_, fun c r hr hsel => ?_, by decide⟩
  · obtain ⟨hsel, -⟩ := (decode_eq_ok_iff_selects c i).1 h
    exact ⟨tableRow i, tableRow_mem i, hsel, mnemonic_tableRow i⟩
  · obtain ⟨i, rfl, hexecb⟩ := exists_tableRow_eq hr (execbField c)
    exact ⟨i, (decode_eq_ok_iff_selects c i).2 ⟨hsel, hexecb.symm⟩, (mnemonic_tableRow i).symm⟩

/-! ### The host's store of a command (R104, R150, R154) -/

/-- R154: a command stored while another runs has no meaning. -/
theorem exec_of_busy {i : Instr} {s : State} (h : s.phase ≠ .idle) : exec i s = .fault (.busyWrite 0 (encode i)) := by
  cases i <;>
    simp only [exec, execNop, execInit, execWriteWord, execWriteArray, execFastWrite, execErase, acceptMutating,
      whenIdle_of_busy h]

theorem storeWindow_cmd_of_idle {s : State} {c : Word} (hp : s.params.Wf) (hidle : s.phase = .idle) :
    storeWindow .w32 (regAddr s.params .cmd) c s = storeCmd c s := by
  have hofs : (regAddr s.params .cmd).toNat - s.params.fpcBase = Reg.cmd.offset := by rw [toNat_regAddr hp]; omega
  simp [storeWindow, State.busy, hidle, admitted_regAddr hp, hofs, ofOffset_offset]

theorem storeWindow_cmd_of_busy {s : State} {c : Word} (hp : s.params.Wf) (hbusy : s.phase ≠ .idle) :
    storeWindow .w32 (regAddr s.params .cmd) c s = .fault (.busyWrite 0 c) := by
  have hofs : (regAddr s.params .cmd).toNat - s.params.fpcBase = 0 := by rw [toNat_regAddr hp]; simp [Reg.offset]
  have hwhole : narrow .w32 c = c := by simp [narrow, Width.bytes]
  rw [storeWindow, if_pos (s.busy_iff.2 hbusy), hofs, hwhole]

/-- Settles O4: while idle the store decodes the word, and while busy both fault with the word that the command
encodes to. -/
theorem stepRunsTheDecodedCommand : Obligations.StepRunsTheDecodedCommand := by
  unfold Obligations.StepRunsTheDecodedCommand
  intro s rest ops c i hp hnext hdecode
  have hstep : step s = storeWindow .w32 (regAddr s.params .cmd) c (s.taken rest ops) :=
    (step_of_hostNext hnext).trans (hostStore_window (s := s.taken rest ops) (regionOf_regAddr hp .cmd))
  rw [hstep]
  by_cases hidle : s.phase = .idle
  · refine (storeWindow_cmd_of_idle (s := s.taken rest ops) hp hidle).trans ?_
    rw [storeCmd, hdecode]
  · obtain ⟨-, rfl⟩ := (decodeInvertsEncode c i).1 hdecode
    refine (storeWindow_cmd_of_busy (s := s.taken rest ops) hp hidle).trans ?_
    rw [exec_of_busy (s := s.taken rest ops) hidle]

/-! ### The banks that a command declares (R102, R135, R320) -/

/-- R135: a target that has a byte of a declared bank starts or ends in that bank. -/
theorem bankConflict_of_declares {p : Params} {lo hi a : Nat} {e : BitVec 2} (hlo : InFlash p lo) (hhi : InFlash p hi)
    (hle : lo ≤ a) (hge : a ≤ hi) (h : declares e (bankOf p a) = true) : BankConflict p lo hi e := by
  have hpos := bankSize_pos_of_inFlash hlo
  cases hbank : bankOf p a with
  | b0 =>
    rw [hbank] at h
    have hoff : off p a < p.bankSize := (bankOf_eq_b0_iff hpos).1 hbank
    exact .inl ⟨h, .inl ((isInBank0_iff hlo).2 (lt_of_le_of_lt (Nat.sub_le_sub_right hle _) hoff))⟩
  | b1 =>
    rw [hbank] at h
    have hoff : p.bankSize ≤ off p a := (bankOf_eq_b1_iff hpos).1 hbank
    exact .inr ⟨h, .inr ((isInBank1_iff hhi).2 (hoff.trans (Nat.sub_le_sub_right hge _)))⟩

theorem State.Inv.targetLength_pos {s : State} (h : s.Inv) (hactive : s.Active) : 0 < s.targetLength := by
  obtain ⟨-, -, hfast, hword, -⟩ := h.target hactive
  cases hop : s.op with
  | none => exact absurd hop (h.accepted_of_busy hactive.busy).op
  | writeWord => simp [State.targetLength, hop, (hword (.inl hop)).1]
  | writeArray => simp [State.targetLength, hop, (hword (.inr hop)).1]
  | fastWrite =>
    have hn := (hfast hop).1
    have hlen : s.targetLength = 4 * s.n.toNat := by simp [State.targetLength, hop]
    omega
  | erase => simp [State.targetLength, hop, Config.sectorSize]

/-- R135: the target of a command in progress has no byte of a bank that the command declares. -/
theorem State.Inv.not_declares_of_inTarget {s : State} (h : s.Inv) (hactive : s.Active) {a : Nat} (ha : s.InTarget a) :
    ¬ declares s.exb (bankOf s.params a) = true := by
  obtain ⟨hbank, -⟩ := h.target hactive
  obtain ⟨hlo, hhi⟩ := ha
  have hpos := h.targetLength_pos hactive
  have hfirst : InFlash s.params s.ta.toNat := h.inFlash_of_target hactive le_rfl (by omega)
  have hlast : InFlash s.params s.targetEnd :=
    h.inFlash_of_target hactive (hlo.trans hhi) (by rw [State.targetEnd]; omega)
  exact fun hdecl => hbank (bankConflict_of_declares hfirst hlast hlo hhi hdecl)

/-! ### The steps of a command in progress, with a quiet host (R321) -/

/-- What every agent's step keeps where the host stores nothing to the window: the parameters, the rest of the schedule,
the bank declaration, IDLE, and that the host stores nothing to the window. -/
structure State.Continues (s t : State) : Prop where
  params : t.params = s.params
  sched : t.sched = s.sched
  exb : t.exb = s.exb
  idle : s.phase = .idle → t.phase = .idle
  quiet : s.HostQuiet → t.HostQuiet

theorem State.HostQuiet.of_eq {s t : State} (h : s.HostQuiet) (hp : t.params = s.params) (hh : t.host = s.host) :
    t.HostQuiet := by
  rwa [State.HostQuiet, hp, hh]

/-- A step of an agent other than the host leaves the host's program as it is. -/
theorem State.Continues.of_host_eq {s t : State} (hhost : t.host = s.host) (hp : t.params = s.params)
    (hs : t.sched = s.sched) (he : t.exb = s.exb) (hidle : s.phase = .idle → t.phase = .idle) : s.Continues t :=
  ⟨hp, hs, he, hidle, fun h => h.of_eq hp hhost⟩

theorem WaitOutcome.continues {s t : State} (hwait : s.phase = .wait) (h : WaitOutcome s t) : s.Continues t := by
  have hbusy : s.phase = .idle → t.phase = .idle := by simp [hwait]
  cases h <;> apply State.Continues.of_host_eq (hidle := hbusy) <;> simp [State.corrected]

theorem nextWord_continues {s t : State} (hnext : s.phase = .next) (h : nextWord s = .next t) : s.Continues t := by
  have hbusy : s.phase = .idle → t.phase = .idle := by simp [hnext]
  obtain ⟨-, rfl⟩ | ⟨-, -, rfl⟩ | ⟨-, -, rfl⟩ | ⟨-, -, -, d, -, rfl⟩ := nextWord_next h <;>
    apply State.Continues.of_host_eq (hidle := hbusy) <;> simp

theorem controllerStep_continues {s t : State} (h : controllerStep s = .next t) : s.Continues t := by
  obtain ⟨hissue, -, rfl⟩ | ⟨hwait, -, rfl⟩ | ⟨hnext, h⟩ | rfl := controllerStep_next h
  · exact .of_host_eq rfl rfl rfl rfl (by simp [hissue])
  · exact (waitStep_outcome s).continues hwait
  · exact nextWord_continues hnext h
  · exact .of_host_eq rfl rfl rfl rfl id

theorem pulseUnitStep_continues (s : State) : s.Continues (pulseUnitStep s) := by
  obtain ⟨-, h⟩ | ⟨r, -, h⟩ := pulseUnitStep_cases s <;> rw [h]
  · exact .of_host_eq rfl rfl rfl rfl id
  · obtain ⟨m, pre, regv, h, -⟩ := complete_eq s.drawValue r s.drawNext
    rw [h]
    exact .of_host_eq rfl rfl rfl rfl id

theorem inWindow_of_regionOf {p : Params} {a : Nat} (h : regionOf p a = .window) : InWindow p a := by
  unfold regionOf at h
  split at h
  · cases h
  · split at h
    · assumption
    · cases h

/-- R321: a quiet host loads, polls, or stores to SYSMEM. -/
theorem hostStep_continues {s t : State} (hquiet : s.HostQuiet) (h : hostStep s = .next t) : s.Continues t := by
  unfold hostStep at h
  split at h
  case h_1 =>
    cases h
    exact .of_host_eq rfl rfl rfl rfl id
  case h_2 o ops hhost =>
    have hrest : ({ s with host := ops } : State).HostQuiet := fun o' ho' => hquiet o' (by simp [hhost, ho'])
    cases o with
    | store w a v =>
      obtain ⟨hregion, -⟩ | ⟨-, -, rfl⟩ := hostStore_next h
      · exact absurd (inWindow_of_regionOf hregion) (hquiet (.store w a v) (by simp [hhost]))
      · exact ⟨rfl, rfl, rfl, id, fun _ => hrest⟩
    | load w a =>
      obtain ⟨v, rfl | rfl⟩ := hostLoad_next h <;> exact ⟨rfl, rfl, rfl, id, fun _ => hrest⟩
    | poll =>
      cases h
      rw [hostPoll_eq]
      refine ⟨rfl, rfl, rfl, id, fun _ => ?_⟩
      split
      · exact hquiet.of_eq rfl hhost.symm
      · exact hrest

theorem agentStep_continues {a : Agent} {s t : State} (hquiet : s.HostQuiet) (h : agentStep a s = .next t) :
    s.Continues t := by
  cases a with
  | host => exact hostStep_continues hquiet h
  | controller => exact controllerStep_continues h
  | pulseUnit => cases h; exact pulseUnitStep_continues s

/-- Every step of a run without a reset uses up one turn of the schedule: what such a step keeps holds after the run. -/
theorem run_induction {P : State → Prop}
    (hstep : ∀ {s t a rest}, P s → s.sched = .agent a :: rest → step s = .next t → t.sched = rest ∧ P t)
    {ts : List Turn} (hts : Turn.reset ∉ ts) {s t : State} (hs : P s) (hsched : s.sched = ts)
    (hrun : core.run ts.length s = .next t) : P t := by
  induction ts generalizing s with
  | nil => cases hrun; exact hs
  | cons turn ts ih =>
    obtain ⟨hturn, hrest⟩ := not_or.1 (List.mem_cons.not.1 hts)
    cases turn with
    | reset => exact absurd rfl hturn
    | agent a =>
      cases hu : step s with
      | next u =>
        obtain ⟨hused, hP⟩ := hstep hs hsched hu
        refine ih hrest hP hused ?_
        simpa [Host.Core.run, core, hu] using hrun
      | fault r => simp [Host.Core.run, core, hu] at hrun
      | refused r => simp [Host.Core.run, core, hu] at hrun

/-! ### The declared banks along a run -/

/-- `t` is reached from `s` in a run of a command with bank declaration `e`: the command runs on or has ended, and no
byte of a bank that it declares has changed. -/
structure State.KeepsDeclared (s : State) (e : BitVec 2) (t : State) : Prop where
  inv : t.Inv
  quiet : t.HostQuiet
  params : t.params = s.params
  exb : t.phase ≠ .idle → t.exb = e
  flash : ∀ a, InFlash s.params a → declares e (bankOf s.params a) = true → t.flash.read a = s.flash.read a

/-- R102, R135: a step changes no byte of a bank that the command in progress declares. -/
theorem step_read_of_declares {s t : State} {agent : Agent} {rest : List Turn} (h : s.Inv)
    (hsched : s.sched = .agent agent :: rest) (ht : step s = .next t) {a : Nat}
    (ha : s.phase ≠ .idle → declares s.exb (bankOf s.params a) = true) : t.flash.read a = s.flash.read a := by
  by_contra hne
  obtain ⟨hpending, -, htarget⟩ := arrayChangesOnlyInTheTarget s t a h (by simp [hsched]) ht hne
  have hactive : s.Active := .inr (h.wait_of_pending hpending).1
  exact h.not_declares_of_inTarget hactive htarget (ha hactive.busy)

theorem State.KeepsDeclared.step {s u t : State} {e : BitVec 2} {a : Agent} {rest : List Turn}
    (h : s.KeepsDeclared e u) (hsched : u.sched = .agent a :: rest) (ht : step u = .next t) :
    t.sched = rest ∧ s.KeepsDeclared e t := by
  have hagent : agentStep a { u with sched := rest } = .next t := step_of_sched hsched ▸ ht
  have hcont := agentStep_continues (s := { u with sched := rest }) h.quiet hagent
  refine ⟨hcont.sched, stepKeepsTheInvariant u t h.inv ht, hcont.quiet h.quiet, hcont.params.trans h.params,
    fun hbusy => hcont.exb.trans (h.exb fun hidle => hbusy (hcont.idle hidle)), fun b hb hdecl => ?_⟩
  refine (step_read_of_declares h.inv hsched ht fun hbusy => ?_).trans (h.flash b hb hdecl)
  rwa [h.exb hbusy, h.params]

/-- R155: a command that runs on after its acceptance step declares what its word declares. -/
theorem exb_of_exec {i : Instr} {s t : State} (h : exec i s = .next t) (hbusy : t.phase ≠ .idle) :
    t.exb = execbOf i := by
  obtain ⟨hidle, h⟩ := exec_next h
  obtain ⟨e, -, rfl⟩ | ⟨e, -, rfl⟩ | ⟨-, rfl⟩ | ⟨e, rfl, -, rfl⟩ | ⟨e, rfl, -, rfl⟩ | ⟨e, rfl, -, h⟩ | ⟨e, rfl, -, rfl⟩ := h
  · exact absurd hidle hbusy
  · exact absurd hidle hbusy
  · exact absurd hidle hbusy
  · obtain ⟨-, h⟩ | ⟨-, -, h⟩ | ⟨-, -, h⟩ := acceptWriteWord_cases (s.accept .writeWord e) <;> simp [h, execbOf]
  · obtain ⟨-, h⟩ | ⟨-, h⟩ := acceptWriteArray_cases (s.accept .writeArray e) <;> simp [h, execbOf]
  · obtain ⟨-, rfl⟩ | ⟨-, -, rfl⟩ | ⟨-, -, rfl⟩ | ⟨-, -, -, -, ds, -, rfl⟩ := acceptFastWrite_next h <;> simp [execbOf]
  · obtain ⟨-, h⟩ | ⟨-, -, h⟩ | ⟨-, -, h⟩ := acceptErase_cases (s.accept .erase e) <;> simp [h, execbOf]

theorem CommandOutcome.params_eq {s t : State} (h : CommandOutcome s t) : t.params = s.params := by cases h <;> simp

theorem CommandOutcome.host_eq {s t : State} (h : CommandOutcome s t) : t.host = s.host := by cases h <;> simp

/-- R155: the acceptance step of a command begins its run. -/
theorem exec_keepsDeclared {i : Instr} {s t : State} (h : s.Inv) (hquiet : s.HostQuiet) (ht : exec i s = .next t) :
    s.KeepsDeclared (execbOf i) t := by
  obtain ⟨hidle, hout⟩ := exec_outcome ht
  exact
    { inv := hout.inv h hidle
      quiet := hquiet.of_eq hout.params_eq hout.host_eq
      params := hout.params_eq
      exb := exb_of_exec ht
      flash := fun a _ _ => by rw [hout.sameMemories.1] }

theorem State.KeepsDeclared.withSched {s t : State} {e : BitVec 2} (h : s.KeepsDeclared e t) (ts : List Turn) :
    s.KeepsDeclared e { t with sched := ts } :=
  ⟨h.inv.recorded t.rdata t.host ts t.tape t.drawn, h.quiet, h.params, h.exb, h.flash⟩

/-- Settles O37, by induction on the schedule: the array changes only in the target of the command in progress, which
meets no declared bank. -/
theorem declaredBanksNeverChange : Obligations.DeclaredBanksNeverChange := by
  unfold Obligations.DeclaredBanksNeverChange
  intro i s s₁ t ts h hquiet hts hexec hrun
  have hstart := (exec_keepsDeclared h hquiet hexec).withSched ts
  exact (run_induction State.KeepsDeclared.step hts hstart rfl hrun).flash

end Sys2Proof.Machine

/-! Proofs about validation (spec/40_validation.md): the commands that end in their acceptance step, and that such a
command changes only its report and the latches `op` and `EXB`. -/

namespace Sys2Proof.Machine

/-! ### A command that ends in its acceptance step (R139, R155, R160) -/

/-- R139, R160: a completion in the acceptance step has no save to restore and no phase to leave, so it only reports. -/
theorem finish_accept_of_idle {s : State} (hidle : s.phase = .idle) (hheld : s.lkHeld = false) (o : Op) (e : BitVec 2)
    (r : BitVec 1) (k : ErrKind) :
    (s.accept o e).finish r k 0 =
      { s with
        lastop := o.code, op := o, exb := e, result := r, errkind := k.code, written := 0, pcnt := 0 } := by
  rw [State.finish_of_not_held (s := s.accept o e) hheld, ← hidle]
  rfl

/-- Settles O17, by what an accepted command can do: a command that has ended did nothing, reported, or completed; the
others have left IDLE. -/
theorem commandEndedAtAcceptanceChangesOnlyTheReport :
    Obligations.CommandEndedAtAcceptanceChangesOnlyTheReport := by
  unfold Obligations.CommandEndedAtAcceptanceChangesOnlyTheReport
  intro i s t hheld hexec hended
  obtain ⟨hidle, hout⟩ := exec_outcome hexec
  cases hout with
  | unchanged => rfl
  | reported => rfl
  | ended o e r k => rw [finish_accept_of_idle hidle hheld]
  | word | array | burst | erase => simp at hended

/-! ### WRITE_WORD (R136, R171) -/

/-- R170: WRITE_WORD, stored while idle with a declared bank, runs its acceptance part. -/
theorem exec_writeWord_of_idle {e : BitVec 2} {s : State} (hidle : s.phase = .idle) (he : e ≠ 0) :
    exec (.writeWord e) s = .next (acceptWriteWord (s.accept .writeWord e)) :=
  acceptMutating_of_idle (part := fun s => .next (acceptWriteWord s)) hidle he

theorem acceptWriteWord_of_not_valid {s : State} (h : ¬ WriteAddrValid s.params s.addr.toNat) :
    acceptWriteWord s = s.finish 1 .invalidAddress 0 :=
  if_pos h

theorem acceptWriteWord_of_conflict {s : State} (hvalid : WriteAddrValid s.params s.addr.toNat)
    (h : BankConflict s.params s.addr.toNat (s.addr.toNat + 3) s.exb) :
    acceptWriteWord s = s.finish 1 .bankConflict 0 :=
  (if_neg (not_not.2 hvalid)).trans (if_pos h)

/-- Settles O10: the first failing check ends the command, and its completion only reports. -/
theorem writeWordRejected : Obligations.WriteWordRejected := by
  unfold Obligations.WriteWordRejected
  intro e s hidle hheld he
  rw [exec_writeWord_of_idle hidle he]
  refine ⟨fun hinvalid => ?_, fun hvalid hbank => ?_⟩
  · rw [acceptWriteWord_of_not_valid (s := s.accept .writeWord e) hinvalid, finish_accept_of_idle hidle hheld]
    rfl
  · rw [acceptWriteWord_of_conflict (s := s.accept .writeWord e) hvalid hbank, finish_accept_of_idle hidle hheld]
    rfl

/-! ### FAST_WRITE (R136, R217, R226) -/

/-- R226: a burst of no words succeeds. -/
theorem acceptFastWrite_of_empty {s : State} (h : burstLength s = 0) :
    acceptFastWrite s = .next (s.finish 0 .none 0) :=
  if_pos h

theorem acceptFastWrite_of_not_targetValid {s : State} (hpos : burstLength s ≠ 0)
    (h : ¬ MassWriteAddrValid s.params s.addr.toNat (burstLength s)) :
    acceptFastWrite s = .next (s.finish 1 .invalidAddress 0) :=
  (if_neg hpos).trans (if_pos h)

theorem acceptFastWrite_of_not_srcValid {s : State} (hpos : burstLength s ≠ 0)
    (htarget : MassWriteAddrValid s.params s.addr.toNat (burstLength s)) (h : ¬ SrcValid s.src.toNat (burstLength s)) :
    acceptFastWrite s = .next (s.finish 1 .invalidAddress 0) := by
  unfold acceptFastWrite
  dsimp only
  rw [if_neg hpos, if_neg (not_not.2 htarget), if_pos h, State.fail_eq_finish]

theorem acceptFastWrite_of_conflict {s : State} (hpos : burstLength s ≠ 0)
    (htarget : MassWriteAddrValid s.params s.addr.toNat (burstLength s)) (hsrc : SrcValid s.src.toNat (burstLength s))
    (h : BankConflict s.params s.addr.toNat (s.addr.toNat + 4 * burstLength s - 1) s.exb) :
    acceptFastWrite s = .next (s.finish 1 .bankConflict 0) := by
  unfold acceptFastWrite
  dsimp only
  rw [if_neg hpos, if_neg (not_not.2 htarget), if_neg (not_not.2 hsrc), if_pos h, State.fail_eq_finish]

/-- Settles O13: the count and then the first failing check end the command, and its completion only reports. -/
theorem fastWriteRejected : Obligations.FastWriteRejected := by
  unfold Obligations.FastWriteRejected
  intro e s hidle hheld he n ended
  have hended (r : BitVec 1) (k : ErrKind) : (s.accept .fastWrite e).finish r k 0 = ended r k.code :=
    finish_accept_of_idle hidle hheld ..
  rw [exec_fastWrite_of_idle hidle he]
  refine ⟨fun hzero => ?_, fun hpos htarget => ?_, fun hpos htarget hsrc => ?_, fun hpos htarget hsrc hbank => ?_⟩
  · rw [acceptFastWrite_of_empty (s := s.accept .fastWrite e) hzero, hended]
    rfl
  · rw [acceptFastWrite_of_not_targetValid (s := s.accept .fastWrite e) hpos htarget, hended]
    rfl
  · rw [acceptFastWrite_of_not_srcValid (s := s.accept .fastWrite e) hpos htarget hsrc, hended]
    rfl
  · rw [acceptFastWrite_of_conflict (s := s.accept .fastWrite e) hpos htarget hsrc hbank, hended]
    rfl

/-! ### ERASE (R136, R241) -/

/-- R240: ERASE, stored while idle with a declared bank, runs its acceptance part. -/
theorem exec_erase_of_idle {e : BitVec 2} {s : State} (hidle : s.phase = .idle) (he : e ≠ 0) :
    exec (.erase e) s = .next (acceptErase (s.accept .erase e)) :=
  acceptMutating_of_idle (part := fun s => .next (acceptErase s)) hidle he

theorem acceptErase_of_not_valid {s : State} (h : ¬ EraseAddrValid s.params s.addr.toNat) :
    acceptErase s = s.finish 1 .invalidAddress 0 :=
  if_pos h

theorem acceptErase_of_conflict {s : State} (hvalid : EraseAddrValid s.params s.addr.toNat)
    (h : BankConflict s.params s.addr.toNat (s.addr.toNat + 4095) s.exb) :
    acceptErase s = s.finish 1 .bankConflict 0 :=
  (if_neg (not_not.2 hvalid)).trans (if_pos h)

/-- Settles O16: the first failing check ends the command, and its completion only reports. -/
theorem eraseRejected : Obligations.EraseRejected := by
  unfold Obligations.EraseRejected
  intro e s hidle hheld he
  rw [exec_erase_of_idle hidle he]
  refine ⟨fun hinvalid => ?_, fun hvalid hbank => ?_⟩
  · rw [acceptErase_of_not_valid (s := s.accept .erase e) hinvalid, finish_accept_of_idle hidle hheld]
    rfl
  · rw [acceptErase_of_conflict (s := s.accept .erase e) hvalid hbank, finish_accept_of_idle hidle hheld]
    rfl

end Sys2Proof.Machine

/-! Proofs about control (spec/41_control.md): the lock save and restore, the start of a word, burst or erase, the
commands that complete at once, the issue step, the end of WRITE_WORD, the host's register loads, and that a command
gives both lock registers back. -/

namespace Sys2Proof.Machine

/-! ### The lock save and restore (R161 to R163) -/

/-- R162: an unlock touches only the lock register of its bank and the lock save; `m` is the mask of its span. -/
theorem unlock_eq (s : State) {lo hi : Nat} {m : Word} (hm : lockMask s.params lo hi = m) :
    s.unlock lo hi =
      { s with
        lkBank := bankOf s.params lo, lkMask := m, lkSave := s.weprot (bankOf s.params lo) &&& m, lkHeld := true
        weprot0 := if bankOf s.params lo = .b0 then s.weprot0 &&& ~~~m else s.weprot0
        weprot1 := if bankOf s.params lo = .b1 then s.weprot1 &&& ~~~m else s.weprot1 } := by
  subst hm
  unfold State.unlock State.setWeprot
  cases bankOf s.params lo <;> rfl

/-- R163: a restore touches only the lock register of the saved bank. -/
theorem restore_eq (s : State) :
    s.restore =
      { s with
        weprot0 := if s.lkBank = .b0 then (s.weprot0 &&& ~~~s.lkMask) ||| s.lkSave else s.weprot0
        weprot1 := if s.lkBank = .b1 then (s.weprot1 &&& ~~~s.lkMask) ||| s.lkSave else s.weprot1
        lkHeld := false } := by
  unfold State.restore State.setWeprot
  cases s.lkBank <;> rfl

/-- Settles O26: the two operations, field by field. -/
theorem unlockClearsItsSpan : Obligations.UnlockClearsItsSpan := by
  unfold Obligations.UnlockClearsItsSpan
  exact ⟨fun s lo hi => unlock_eq s rfl, restore_eq⟩

/-! ### The span of one sector (R15, R161) -/

/-- R15: a bank is a whole number of sectors, so a sector's index is counted in whole sectors. -/
theorem sidx_eq {p : Params} (hp : p.Wf) (a : Nat) : sidx p a = off p a / Config.sectorSize % p.nsect := by
  obtain ⟨-, hsize, -, -⟩ := multiples_of_wf hp
  have hbank : p.bankSize = Config.sectorSize * p.nsect := (Nat.mul_div_cancel' (Nat.dvd_of_mod_eq_zero hsize)).symm
  rw [sidx, hbank, Nat.mod_mul_right_div_self]

/-- R161: a span within one sector has that sector's lock bit only. -/
theorem lockMask_of_sector {p : Params} (hp : p.Wf) {lo hi : Nat}
    (h : off p hi / Config.sectorSize = off p lo / Config.sectorSize) : lockMask p lo hi = 1#32 <<< sidx p lo := by
  rw [lockMask, sidx_eq hp hi, h, ← sidx_eq hp, BitVec.or_self]

/-- R130: a word lies in one sector. -/
theorem lockMask_word {p : Params} (hp : p.Wf) {a : Nat} (h : WriteAddrValid p a) :
    lockMask p a (a + 3) = 1#32 <<< sidx p a := by
  obtain ⟨-, -, hbase, -⟩ := multiples_of_wf hp
  obtain ⟨halign, hlo, -⟩ := h
  refine lockMask_of_sector hp ?_
  simp only [off, Config.sectorSize]
  omega

/-- R132: a sector's own span. -/
theorem lockMask_sector {p : Params} (hp : p.Wf) {a : Nat} (h : EraseAddrValid p a) :
    lockMask p a (a + 4095) = 1#32 <<< sidx p a := by
  obtain ⟨-, -, hbase, -⟩ := multiples_of_wf hp
  obtain ⟨halign, hlo, -⟩ := h
  refine lockMask_of_sector hp ?_
  simp only [off, Config.sectorSize] at *
  omega

/-! ### Accepted commands (R156, R171, R217, R241) -/

theorem acceptWriteWord_of_valid {s : State} (hvalid : WriteAddrValid s.params s.addr.toNat)
    (hbank : ¬ BankConflict s.params s.addr.toNat (s.addr.toNat + 3) s.exb) :
    acceptWriteWord s = s.startProgram s.addr.toNat [s.data] false :=
  (if_neg (not_not.2 hvalid)).trans (if_neg hbank)

theorem acceptErase_of_valid {s : State} (hvalid : EraseAddrValid s.params s.addr.toNat)
    (hbank : ¬ BankConflict s.params s.addr.toNat (s.addr.toNat + 4095) s.exb) :
    acceptErase s = { s.unlock s.addr.toNat (s.addr.toNat + 4095) with ta := s.addr, pcnt := 0, phase := .issue } :=
  (if_neg (not_not.2 hvalid)).trans (if_neg hbank)

/-- R217: the source words of a burst, where each of them can be read. -/
theorem srcWords_eq_ok {s : State} {src : Nat} {ds : List Word}
    (h : ∀ i < ds.length, s.srcRead (src + 4 * i) = some (ds.getD i 0)) : s.srcWords src ds.length = .ok ds := by
  induction ds generalizing src with
  | nil => rfl
  | cons d ds ih =>
    have hhead : s.srcRead src = some d := h 0 (by simp)
    have htail : s.srcWords (src + 4) ds.length = .ok ds := by
      refine ih fun i hi => ?_
      have hnext : src + 4 + 4 * i = src + 4 * (i + 1) := by omega
      rw [hnext]
      exact h (i + 1) (by simpa using hi)
    rw [List.length_cons, State.srcWords, hhead]
    dsimp only
    rw [htail]

theorem acceptFastWrite_of_valid {s : State} {ds : List Word} (hlen : burstLength s = ds.length) (hpos : ds ≠ [])
    (htarget : MassWriteAddrValid s.params s.addr.toNat ds.length) (hsrc : SrcValid s.src.toNat ds.length)
    (hbank : ¬ BankConflict s.params s.addr.toNat (s.addr.toNat + 4 * ds.length - 1) s.exb)
    (hwords : s.srcWords s.src.toNat ds.length = .ok ds) :
    acceptFastWrite s = .next (s.startProgram s.addr.toNat ds true) := by
  unfold acceptFastWrite
  dsimp only
  rw [hlen, if_neg (by simpa using hpos), if_neg (not_not.2 htarget), if_neg (not_not.2 hsrc), if_neg hbank, hwords]

/-- R156: the start of a word or burst at `ADDR`, field by field; `m` is the mask of its span. -/
theorem startProgram_eq (s : State) {ws : List Word} {m : Word}
    (hm : lockMask s.params s.addr.toNat (s.addr.toNat + 4 * ws.length - 1) = m) (b : Bool) :
    s.startProgram s.addr.toNat ws b =
      { s with
        ta := s.addr, n := BitVec.ofNat 5 ws.length, burst := b
        sref := setLanes s.sref ws, wiss := setLanes s.wiss ws, preEn := true, postEn := true
        lkBank := bankOf s.params s.addr.toNat, lkMask := m
        lkSave := s.weprot (bankOf s.params s.addr.toNat) &&& m, lkHeld := true
        weprot0 := if bankOf s.params s.addr.toNat = .b0 then s.weprot0 &&& ~~~m else s.weprot0
        weprot1 := if bankOf s.params s.addr.toNat = .b1 then s.weprot1 &&& ~~~m else s.weprot1
        pcnt := 0, phase := .issue } := by
  rw [State.startProgram, unlock_eq s hm, BitVec.ofNat_toNat, BitVec.setWidth_eq]

/-- Settles O9: the word's start, and its span is one sector. -/
theorem writeWordAccepted : Obligations.WriteWordAccepted := by
  unfold Obligations.WriteWordAccepted
  intro e s hp hidle he hvalid hbank
  have hmask : lockMask s.params s.addr.toNat (s.addr.toNat + 3) = 1#32 <<< sidx s.params s.addr.toNat :=
    lockMask_word hp hvalid
  rw [exec_writeWord_of_idle hidle he, acceptWriteWord_of_valid (s := s.accept .writeWord e) hvalid hbank]
  exact congrArg _ (startProgram_eq (s.accept .writeWord e) (ws := [s.data]) hmask false)

/-- Settles O12: the burst's words are read before its start. -/
theorem fastWriteAccepted : Obligations.FastWriteAccepted := by
  unfold Obligations.FastWriteAccepted
  intro e s ds hidle he hlen hpos htarget hsrc hbank hread
  have hwords : (s.accept .fastWrite e).srcWords s.src.toNat ds.length = .ok ds := srcWords_eq_ok hread
  rw [exec_fastWrite_of_idle hidle he,
    acceptFastWrite_of_valid (s := s.accept .fastWrite e) hlen.symm hpos htarget hsrc hbank hwords]
  exact congrArg _ (startProgram_eq (s.accept .fastWrite e) rfl true)

/-- Settles O15: the span of an erase is its sector. -/
theorem eraseAccepted : Obligations.EraseAccepted := by
  unfold Obligations.EraseAccepted
  intro e s hp hidle he hvalid hbank
  rw [exec_erase_of_idle hidle he, acceptErase_of_valid (s := s.accept .erase e) hvalid hbank]
  dsimp only [State.accept_addr]
  rw [unlock_eq (s.accept .erase e) (lockMask_sector hp hvalid)]
  rfl

/-! ### The commands that complete at once (R151, R152, R157) -/

/-- R104: a reserved bit that is set makes the word illegal, whatever its other fields are. -/
theorem decode_of_reserved {c : Word} (h : c.extractLsb' 10 22 ≠ 0 ∨ c.extractLsb' 4 4 ≠ 0) :
    decode c = .error .reservedBits := by
  have hset : ¬ reservedClear c = true := by
    rw [reservedClear_iff]
    rintro ⟨hhigh, hlow⟩
    exact h.elim (absurd hhigh) (absurd hlow)
  rw [decode, if_neg hset]

/-- Settles O7: NOP's word is its encoding, and its only act is the check that the block is idle. -/
theorem nopChangesNothing : Obligations.NopChangesNothing := by
  unfold Obligations.NopChangesNothing
  refine ⟨fun e => ?_, fun e s hidle => whenIdle_of_idle hidle, fun e s hbusy => exec_of_busy hbusy,
    fun c _ hreserved => decode_of_reserved hreserved⟩
  have hword : encode (.nop e) = 0#22 ++ e ++ 0#8 := by revert e; decide
  exact (decodeInvertsEncode _ _).2 ⟨rfl, hword⟩

/-- Settles O8: INIT's only act while idle is its report. -/
theorem initReportsSuccess : Obligations.InitReportsSuccess := by
  unfold Obligations.InitReportsSuccess
  refine ⟨fun e s hidle => ?_, fun e s hbusy => exec_of_busy hbusy⟩
  rw [exec, execInit, whenIdle_of_idle hidle]
  rfl

/-- R104, R150: the host's store to `CMD`, on its turn and while idle. -/
theorem step_of_storeCmd {s : State} {rest : List Turn} {ops : List HostOp} {c : Word} (hp : s.params.Wf)
    (hidle : s.phase = .idle) (hnext : s.HostNext (storeReg s.params .cmd c) rest ops) :
    step s = storeCmd c (s.taken rest ops) :=
  calc step s = storeWindow .w32 (regAddr s.params .cmd) c (s.taken rest ops) :=
        (step_of_hostNext hnext).trans (hostStore_window (s := s.taken rest ops) (regionOf_regAddr hp .cmd))
    _ = storeCmd c (s.taken rest ops) := storeWindow_cmd_of_idle (s := s.taken rest ops) hp hidle

/-- Settles O5: a word that does not decode is reported as illegal. -/
theorem illegalWordCompletesAsError : Obligations.IllegalWordCompletesAsError := by
  unfold Obligations.IllegalWordCompletesAsError
  intro s rest ops c why hp hnext hidle hdecode
  rw [step_of_storeCmd hp hidle hnext, storeCmd, hdecode]
  exact whenIdle_of_idle (s := s.taken rest ops) hidle

/-! ### The host's accesses to the registers (R153, R154) -/

theorem storeWindow_of_busy {s : State} {w : Width} {a v : Word} (h : s.phase ≠ .idle) :
    storeWindow w a v s = .fault (.busyWrite (a.toNat - s.params.fpcBase) (narrow w v)) :=
  if_pos (s.busy_iff.2 h)

/-- Settles O6: the busy check comes first of the checks on a window store. -/
theorem windowStoreWhileBusyFaults : Obligations.WindowStoreWhileBusyFaults := by
  unfold Obligations.WindowStoreWhileBusyFaults
  intro s rest ops w a v hp hnext hin hbusy
  rw [step_of_hostNext hnext]
  exact ⟨(hostStore_window (s := s.taken rest ops) (regionOf_of_inWindow hp hin)).trans
    (storeWindow_of_busy (s := s.taken rest ops) hbusy), rfl⟩

/-- R153: a host load of a register, in any phase. -/
theorem hostLoad_regAddr {s : State} (hp : s.params.Wf) (r : Reg) :
    hostLoad .w32 (regAddr s.params r) s = .next { s with rdata := s.readReg r } := by
  have hofs : (regAddr s.params r).toNat - s.params.fpcBase = r.offset := by rw [toNat_regAddr hp]; omega
  rw [hostLoad_window (regionOf_regAddr hp r), loadWindow, hofs, ofOffset_offset]
  simp [admitted_regAddr hp]

/-- Settles O46: the load reads the register file, and each register reads as the statement says. -/
theorem hostReadsARegister : Obligations.HostReadsARegister := by
  unfold Obligations.HostReadsARegister
  intro s r rest ops hp hnext
  rw [step_of_hostNext hnext]
  refine (hostLoad_regAddr (s := s.taken rest ops) hp r).trans ?_
  cases r <;> rfl

/-! ### The issue step, and the end of WRITE_WORD (R158, R160, R174) -/

theorem controllerStep_of_issue {s : State} (hissue : s.phase = .issue) (hfree : s.mpend = none) :
    controllerStep s = .next s.issue := by
  simp [controllerStep, hissue, hfree]

/-- Settles O18: the request is that of the operation in progress. -/
theorem issueStep : Obligations.IssueStep := by
  unfold Obligations.IssueStep
  intro s hissue hfree
  rw [controllerStep_of_issue hissue hfree]
  rfl

/-- R159: the wait step of a word, when its request is completed. -/
theorem controllerStep_of_word {s : State} (hwait : s.phase = .wait) (hdone : s.mfDone = true)
    (hop : s.op = .writeWord ∨ s.op = .writeArray) : controllerStep s = .next (waitWord s) := by
  rw [controllerStep_of_wait hwait, if_pos hdone]
  rcases hop with hop | hop <;> rw [waitStep, hop]

theorem waitWord_of_verified {s : State} (hpre : s.mfPre = false) (heq : s.flash.word s.ta.toNat = s.sref[0]) :
    waitWord s = wordSuccess s := by
  simp [waitWord, hpre, heq]

theorem waitWord_of_postFails {s : State} (hpre : s.mfPre = false) (hne : s.flash.word s.ta.toNat ≠ s.sref[0]) :
    waitWord s = retry Config.maxProgramPulses wordExhausted
      (s.corrected (setLanes s.wiss [postCorrect s.sref[0] (s.flash.word s.ta.toNat)]) s.preEn) := by
  simp [waitWord, State.corrected, hpre, hne]

theorem waitWord_of_preFails {s : State} (hpre : s.mfPre = true) :
    waitWord s = retry Config.maxProgramPulses wordExhausted
      (s.corrected (setLanes s.wiss [preCorrect s.sref[0] (s.flash.word s.ta.toNat)]) false) := by
  simp [waitWord, State.corrected, hpre]

theorem retry_of_cap {cap : Nat} {s : State} {ex : State → State} (h : cap ≤ s.pcnt.toNat) :
    retry cap ex s = ex s :=
  if_neg h.not_gt

/-- R174: outside WRITE_ARRAY, a verified word is the end of the command. -/
theorem wordSuccess_of_ne {s : State} (hop : s.op ≠ .writeArray) : wordSuccess s = s.finish 0 .none 1 := if_neg hop

/-- R174, R206: a word that is exhausted ends its command, with the words before it counted. -/
theorem wordExhausted_eq (s : State) :
    wordExhausted s = s.finish 1 .verifyExhausted (if s.op = .writeArray then s.aIdx else 0) := by
  unfold wordExhausted
  split <;> rfl

/-- R160, R176: at the cap, a corrected word is exhausted, and its lock is restored. -/
theorem retry_word_of_cap {s : State} (hheld : s.lkHeld = true) (hcap : Config.maxProgramPulses ≤ s.pcnt.toNat)
    (ws : Vector Word 16) (pre : Bool) :
    retry Config.maxProgramPulses wordExhausted (s.corrected ws pre) =
      { s.restore with
        wiss := ws, preEn := pre, result := 1, errkind := 3
        written := if s.op = .writeArray then s.aIdx else 0, phase := .idle } := by
  have hexit : retry Config.maxProgramPulses wordExhausted (s.corrected ws pre) = wordExhausted (s.corrected ws pre) :=
    retry_of_cap (s := s.corrected ws pre) hcap
  rw [hexit, wordExhausted_eq, State.finish_of_held (s := s.corrected ws pre) hheld]
  rfl

/-- Settles O21: pre-verify is looked at first, then the word, then the count; each end is a completion with a save
outstanding. -/
theorem writeWordEnds : Obligations.WriteWordEnds := by
  unfold Obligations.WriteWordEnds
  intro s hwait hdone hop hheld e
  have hword : s.op ≠ .writeArray := by simp [hop]
  rw [controllerStep_of_word hwait hdone (.inl hop)]
  refine ⟨fun hpre heq => ?_, fun hpre hne hcap => ?_, fun hpre hcap => ?_⟩
  · rw [waitWord_of_verified hpre heq, wordSuccess_of_ne hword, State.finish_of_held hheld]
    rfl
  · rw [waitWord_of_postFails hpre hne, retry_word_of_cap hheld hcap, if_neg hword]
    rfl
  · rw [waitWord_of_preFails hpre, retry_word_of_cap hheld hcap, if_neg hword]
    rfl

/-! ### What a lock register reads once the outstanding save is restored (R162 to R164) -/

theorem State.restored_of_not_held {s : State} (h : s.lkHeld = false) (b : Bank) : s.restored b = s.weprot b := by
  rw [State.restored, State.restoreIfHeld_of_not_held h]

theorem State.restored_of_held {s : State} (h : s.lkHeld = true) (b : Bank) : s.restored b = s.restore.weprot b := by
  rw [State.restored, State.restoreIfHeld_of_held h]

/-- R26, R46: the part of the state that R164 speaks of. -/
def State.locks (s : State) : Word × Word × Bank × Word × Word × Bool :=
  (s.weprot0, s.weprot1, s.lkBank, s.lkMask, s.lkSave, s.lkHeld)

theorem State.restored_congr {s t : State} (b : Bank) (h : t.locks = s.locks := by rfl) :
    t.restored b = s.restored b := by
  simp only [State.locks, Prod.mk.injEq] at h
  obtain ⟨h0, h1, hbank, hmask, hsave, hheld⟩ := h
  have hweprot (c : Bank) : t.weprot c = s.weprot c := by cases c; exacts [h0, h1]
  cases hs : s.lkHeld with
  | false => rw [State.restored_of_not_held (hheld.trans hs), State.restored_of_not_held hs, hweprot]
  | true =>
    rw [State.restored_of_held (hheld.trans hs), State.restored_of_held hs, State.restored_lock, State.restored_lock,
      hweprot, hbank, hmask, hsave]

/-- R162: an unlock saves what it clears. -/
theorem State.restored_unlock (s : State) (h : s.lkHeld = false) (lo hi : Nat) (b : Bank) :
    (s.unlock lo hi).restored b = s.restored b := by
  rw [State.restored_of_held (s.unlock_lkHeld lo hi), State.weprot_restore_unlock, State.restored_of_not_held h]

/-- R156: the start of a word or burst takes the save of its span. -/
theorem State.restored_startProgram (s : State) (h : s.lkHeld = false) (a : Nat) (ws : List Word) (burst : Bool)
    (b : Bank) : (s.startProgram a ws burst).restored b = s.restored b :=
  calc (s.startProgram a ws burst).restored b = (s.unlock a (a + 4 * ws.length - 1)).restored b :=
        State.restored_congr b
    _ = s.restored b := s.restored_unlock h _ _ b

/-- R160: a completion restores the outstanding save, if there is one. -/
theorem State.restored_finish (s : State) (r : BitVec 1) (k : ErrKind) (w : Word) (b : Bank) :
    (s.finish r k w).restored b = s.restored b := by
  rw [State.restored_of_not_held (s.finish_lkHeld r k w)]
  rfl

theorem State.restored_finishBurst (s : State) (r : BitVec 1) (k : ErrKind) (w : Word) (b : Bank) :
    (s.finishBurst r k w).restored b = s.restored b :=
  (State.restored_congr b).trans (s.restored_finish r k w b)

/-- R155: the acceptance step of a command changes no lock bit but those that it saves. -/
theorem CommandOutcome.restored_eq {s t : State} (h : CommandOutcome s t) (hheld : s.lkHeld = false) (b : Bank) :
    t.restored b = s.restored b := by
  have haccept (o : Op) (e : BitVec 2) : (s.accept o e).restored b = s.restored b := State.restored_congr b
  cases h with
  | unchanged => rfl
  | reported => exact State.restored_congr b
  | ended o e r k => exact (State.restored_finish _ r k 0 b).trans (haccept o e)
  | word e => exact ((s.accept .writeWord e).restored_startProgram hheld _ _ _ b).trans (haccept .writeWord e)
  | array => exact State.restored_congr b
  | burst e _ ds => exact ((s.accept .fastWrite e).restored_startProgram hheld _ _ _ b).trans (haccept .fastWrite e)
  | erase e =>
    have hunlock (lo hi : Nat) : ((s.accept .erase e).unlock lo hi).restored b = s.restored b :=
      ((s.accept .erase e).restored_unlock hheld lo hi b).trans (haccept .erase e)
    exact (State.restored_congr b).trans (hunlock s.addr.toNat (s.addr.toNat + 4095))

/-- R174, R220, R244: a wait step restores the outstanding save, or leaves the locks as they are. -/
theorem WaitOutcome.restored_eq {s t : State} (h : WaitOutcome s t) (hheld : s.lkHeld = true) (b : Bank) :
    t.restored b = s.restored b := by
  have hcorrected (ws : Vector Word 16) (pre : Bool) : (s.corrected ws pre).restored b = s.restored b :=
    State.restored_congr b
  cases h with
  | held => rfl
  | again => exact State.restored_congr b
  | ended ws pre r k w => exact (State.restored_finish _ r k w b).trans (hcorrected ws pre)
  | burstEnded ws pre r k w => exact (State.restored_finishBurst _ r k w b).trans (hcorrected ws pre)
  | wordEnded => exact (State.restored_of_not_held rfl b).trans (State.restored_of_held hheld b).symm

/-- R203: a NEXT step, with no save outstanding, ends the array or takes the save of its next word. -/
theorem nextWord_restored {s t : State} (h : nextWord s = .next t) (hheld : s.lkHeld = false) (b : Bank) :
    t.restored b = s.restored b := by
  have hcount : ({ s with pcnt := 0 } : State).restored b = s.restored b := State.restored_congr b
  obtain ⟨-, rfl⟩ | ⟨-, -, rfl⟩ | ⟨-, -, rfl⟩ | ⟨-, -, -, d, -, rfl⟩ := nextWord_next h
  · exact State.restored_finish s 0 .none _ b
  · exact (State.restored_finish _ 1 .invalidAddress _ b).trans hcount
  · exact (State.restored_finish _ 1 .bankConflict _ b).trans hcount
  · exact (State.restored_startProgram { s with pcnt := 0 } hheld _ _ _ b).trans hcount

theorem controllerStep_restored {s t : State} (h : s.Inv) (ht : controllerStep s = .next t) (b : Bank) :
    t.restored b = s.restored b := by
  obtain ⟨-, -, rfl⟩ | ⟨hwait, -, rfl⟩ | ⟨hnext, ht⟩ | rfl := controllerStep_next ht
  · exact State.restored_congr b
  · exact (waitStep_outcome s).restored_eq (h.lkHeld_of_active (.inr hwait)) b
  · exact nextWord_restored ht (h.lkHeld_eq_false (by simp [State.Active, hnext])) b
  · rfl

theorem pulseUnitStep_restored (s : State) (b : Bank) : (pulseUnitStep s).restored b = s.restored b := by
  obtain ⟨-, h⟩ | ⟨r, -, h⟩ := pulseUnitStep_cases s <;> rw [h]
  obtain ⟨m, pre, regv, h, -⟩ := complete_eq s.drawValue r s.drawNext
  rw [h]
  exact State.restored_congr b

/-- R154, R321: while a command runs, or where the host stores nothing to the window, a host step changes SYSMEM and the
model's own record at most. -/
theorem hostStep_frame {s t : State} (hs : s.phase ≠ .idle ∨ s.HostQuiet) (h : hostStep s = .next t) :
    ∃ m v ops tape drawn, t = { s.recorded v ops s.sched tape drawn with sysmem := m } := by
  unfold hostStep at h
  split at h
  case h_1 =>
    cases h
    exact ⟨s.sysmem, s.rdata, s.host, s.tape, s.drawn, rfl⟩
  case h_2 o ops hhost =>
    cases o with
    | store w a v =>
      obtain ⟨hregion, h⟩ | ⟨-, -, rfl⟩ := hostStore_next h
      · have hquiet (hq : s.HostQuiet) : ¬ InWindow s.params a.toNat := hq (.store w a v) (by simp [hhost])
        exact (hs.elim (absurd (storeWindow_next h).1) fun hq => hquiet hq (inWindow_of_regionOf hregion)).elim
      · exact ⟨_, s.rdata, ops, s.tape, s.drawn, rfl⟩
    | load w a =>
      obtain ⟨v, rfl | rfl⟩ := hostLoad_next h
      · exact ⟨s.sysmem, v, ops, s.tape, s.drawn, rfl⟩
      · exact ⟨s.sysmem, v, ops, s.tape.tail, s.drawn + 1, rfl⟩
    | poll =>
      cases h
      rw [hostPoll_eq]
      exact ⟨s.sysmem, s.status, _, s.tape, s.drawn, rfl⟩

/-- R164: no agent's step changes what a lock register reads once the outstanding save is restored. -/
theorem agentStep_restored {a : Agent} {s t : State} (h : s.Inv) (hs : s.phase ≠ .idle ∨ s.HostQuiet)
    (ht : agentStep a s = .next t) (b : Bank) : t.restored b = s.restored b := by
  cases a with
  | host =>
    obtain ⟨m, v, ops, tape, drawn, rfl⟩ := hostStep_frame hs ht
    exact State.restored_congr b
  | controller => exact controllerStep_restored h ht b
  | pulseUnit => cases ht; exact pulseUnitStep_restored s b

/-! ### The lock registers along a run (R164) -/

/-- `t` is reached from `s` in a run of a command: both lock registers read as in `s` once the outstanding save is
restored. -/
structure State.KeepsLocks (s t : State) : Prop where
  inv : t.Inv
  quiet : t.HostQuiet
  restored : ∀ b, t.restored b = s.restored b

theorem State.KeepsLocks.step {s u t : State} {a : Agent} {rest : List Turn} (h : s.KeepsLocks u)
    (hsched : u.sched = .agent a :: rest) (ht : step u = .next t) : t.sched = rest ∧ s.KeepsLocks t := by
  have hagent : agentStep a { u with sched := rest } = .next t := step_of_sched hsched ▸ ht
  have hcont := agentStep_continues (s := { u with sched := rest }) h.quiet hagent
  have hinv : ({ u with sched := rest } : State).Inv := h.inv.recorded u.rdata u.host rest u.tape u.drawn
  refine ⟨hcont.sched, stepKeepsTheInvariant u t h.inv ht, hcont.quiet h.quiet, fun b => ?_⟩
  calc t.restored b = ({ u with sched := rest } : State).restored b := agentStep_restored hinv (.inr h.quiet) hagent b
    _ = u.restored b := State.restored_congr b
    _ = s.restored b := h.restored b

/-- R155: the acceptance step of a command begins its run, whatever the schedule is. -/
theorem exec_keepsLocks {i : Instr} {s t : State} (h : s.Inv) (hquiet : s.HostQuiet) (ht : exec i s = .next t)
    (ts : List Turn) : s.KeepsLocks { t with sched := ts } := by
  obtain ⟨hidle, hout⟩ := exec_outcome ht
  have hheld : s.lkHeld = false := h.lkHeld_eq_false (by simp [State.Active, hidle])
  exact
    { inv := (hout.inv h hidle).recorded t.rdata t.host ts t.tape t.drawn
      quiet := hquiet.of_eq hout.params_eq hout.host_eq
      restored := fun b => (State.restored_congr b).trans (hout.restored_eq hheld b) }

/-- R164: between two commands no save is outstanding, so the lock registers read what they hold. -/
theorem State.KeepsLocks.weprot_eq {s t : State} (h : s.KeepsLocks t) (hs : s.Inv) (hsidle : s.phase = .idle)
    (htidle : t.phase = .idle) (b : Bank) : t.weprot b = s.weprot b := by
  have hheld {u : State} (hu : u.Inv) (hidle : u.phase = .idle) : u.lkHeld = false :=
    hu.lkHeld_eq_false (by simp [State.Active, hidle])
  calc t.weprot b = t.restored b := (State.restored_of_not_held (hheld h.inv htidle) b).symm
    _ = s.restored b := h.restored b
    _ = s.weprot b := State.restored_of_not_held (hheld hs hsidle) b

/-- Settles O36: each agent's step keeps what the lock registers read once the outstanding save is restored, and so, by
induction on the schedule, does the run of a command. -/
theorem lockRegistersAreRestored : Obligations.LockRegistersAreRestored := by
  unfold Obligations.LockRegistersAreRestored
  refine ⟨fun s t b h hbusy hsched ht => ?_, fun i s s₁ t ts h hquiet hts hexec hrun hended => ?_⟩
  · obtain ⟨rest, hreset, -⟩ | ⟨a, q, d, hagent⟩ := step_cases s
    · exact absurd hreset (hsched rest)
    · have hinv := h.recorded s.rdata s.host q s.tape d
      exact (agentStep_restored hinv (.inl hbusy) (hagent ▸ ht) b).trans (State.restored_congr b)
  · have hkeeps : s.KeepsLocks t :=
      run_induction State.KeepsLocks.step hts (exec_keepsLocks h hquiet hexec ts) rfl hrun
    have hweprot := hkeeps.weprot_eq h (exec_outcome hexec).1 hended
    exact ⟨hweprot .b0, hweprot .b1⟩

end Sys2Proof.Machine

/-! Proofs about the word program loop (spec/42_program_word.md): the corrections and the retry of a word, one pulse of
WRITE_WORD from its issue to its wait step, and the runs of a whole WRITE_WORD. -/

namespace Sys2Proof.Machine

/-! ### The corrections (R172, R173) -/

/-- R172, R173: the two corrections are one function, written in two forms. -/
theorem preCorrect_eq_postCorrect (r e : Word) : preCorrect r e = postCorrect r e := by
  ext i hi
  cases hr : r[i] <;> simp [preCorrect, postCorrect, hr]

theorem getElem_postCorrect (r e : Word) {i : Nat} (hi : i < 32) : (postCorrect r e)[i] = (r[i] || !e[i]) := by
  simp [postCorrect]

/-- Settles O60: the two forms agree, and the second is read bit by bit. -/
theorem preCorrectBitByBit : Obligations.PreCorrectBitByBit := by
  unfold Obligations.PreCorrectBitByBit
  refine ⟨fun s e => ⟨rfl, preCorrect_eq_postCorrect s e, fun i hi => ?_⟩, by decide⟩
  rw [preCorrect_eq_postCorrect, getElem_postCorrect]
  simp

/-- R172, R173: a corrected word leaves every bit alone that the reference asks to stay 1. -/
theorem postCorrect_keeps (r e : Word) : r &&& ~~~(postCorrect r e) = 0 := by
  ext i hi
  simp only [BitVec.getElem_and, BitVec.getElem_not, getElem_postCorrect]
  cases r[i] <;> simp

/-- R173: over a word that the correction was computed from, only the bits that the reference asks for stay 1. -/
theorem and_postCorrect (r e : Word) : e &&& postCorrect r e = e &&& r := by
  ext i hi
  simp only [BitVec.getElem_and, getElem_postCorrect]
  cases e[i] <;> simp

/-! ### A word below the cap (R174, R176) -/

/-- R176: below the cap, a corrected word is issued again. -/
theorem retry_corrected_of_lt {cap : Nat} {s : State} {ex : State → State} (h : s.pcnt.toNat < cap)
    (ws : Vector Word 16) (pre : Bool) :
    retry cap ex (s.corrected ws pre) = { s.corrected ws pre with phase := .issue } :=
  if_pos h

/-- Settles O20: pre-verify is looked at first, and below the cap the corrected word is issued again. -/
theorem wordIsRetried : Obligations.WordIsRetried := by
  unfold Obligations.WordIsRetried
  intro s hwait hdone hop hcap
  have hbelow : s.pcnt.toNat < Config.maxProgramPulses := hcap
  rw [controllerStep_of_word hwait hdone hop]
  refine ⟨fun hpre => ?_, fun hpre hne => ?_⟩
  · rw [waitWord_of_preFails hpre, retry_corrected_of_lt hbelow]
    simp only [State.corrected, preCorrect]
  · rw [waitWord_of_postFails hpre hne, retry_corrected_of_lt hbelow]
    simp only [State.corrected, postCorrect]

/-! ### The wait step of WRITE_WORD (R159, R174) -/

theorem setLanes_head (v : Vector Word 16) (w : Word) : (setLanes v [w])[0] = w := by
  rw [setLanes_getElem _ _ _ (by decide)]
  rfl

theorem waitStep_of_writeWord {s : State} (hop : s.op = .writeWord) : waitStep s = waitWord s := by
  rw [waitStep, hop]

/-- R174, R176: a corrected word of WRITE_WORD is issued again below the cap, and ends the command at the cap. -/
theorem retry_writeWord_cases {s : State} (hop : s.op = .writeWord) (ws : Vector Word 16) (pre : Bool) :
    retry Config.maxProgramPulses wordExhausted (s.corrected ws pre) = { s.corrected ws pre with phase := .issue } ∨
    (Config.maxProgramPulses ≤ s.pcnt.toNat ∧
      retry Config.maxProgramPulses wordExhausted (s.corrected ws pre) =
        (s.corrected ws pre).finish 1 .verifyExhausted 0) := by
  have hne : s.op ≠ .writeArray := by simp [hop]
  have hexhausted : wordExhausted (s.corrected ws pre) = (s.corrected ws pre).finish 1 .verifyExhausted 0 := if_neg hne
  obtain ⟨-, h⟩ | ⟨hcap, h⟩ := retry_cases Config.maxProgramPulses wordExhausted (s.corrected ws pre)
  · exact .inl h
  · exact .inr ⟨hcap, h.trans hexhausted⟩

/-- R174: the wait step of WRITE_WORD ends it with its word verified, issues a corrected word that leaves the bits that
the reference asks for alone, or ends it exhausted. -/
theorem waitStep_writeWord_cases {s : State} (hop : s.op = .writeWord) :
    (s.flash.word s.ta.toNat = s.sref[0] ∧ waitStep s = s.finish 0 .none 1) ∨
    ∃ ws pre, s.sref[0] &&& ~~~ws[0] = 0 ∧
      (waitStep s = { s.corrected ws pre with phase := .issue } ∨
        (Config.maxProgramPulses ≤ s.pcnt.toNat ∧ waitStep s = (s.corrected ws pre).finish 1 .verifyExhausted 0)) := by
  have hne : s.op ≠ .writeArray := by simp [hop]
  have hkeeps (e : Word) : s.sref[0] &&& ~~~(setLanes s.wiss [postCorrect s.sref[0] e])[0] = 0 := by
    rw [setLanes_head]
    exact postCorrect_keeps _ _
  rw [waitStep_of_writeWord hop]
  obtain ⟨-, h⟩ | ⟨-, -, h⟩ | ⟨-, hverified, h⟩ := waitWord_cases s <;> rw [h]
  · rw [preCorrect_eq_postCorrect]
    exact .inr ⟨_, false, hkeeps _, retry_writeWord_cases hop _ false⟩
  · exact .inr ⟨_, s.preEn, hkeeps _, retry_writeWord_cases hop _ s.preEn⟩
  · exact .inl ⟨hverified, wordSuccess_of_ne hne⟩

/-! ### One pulse: an issue, its completion and the wait step (R71, R158, R159) -/

/-- R71, R158: the state after an issue and its completion. Proofs go through the lemmas about its fields. -/
@[irreducible] def State.pulsed (s : State) : State := pulseUnitStep s.issue

/-- R71, R158: an issue and its completion count the issue, take one draw and change the array and its flags. -/
theorem pulsed_eq (s : State) :
    ∃ m pre regv, s.pulsed = { s.issue.drawNext.completed with flash := m, mfPre := pre, mfRegv := regv } := by
  obtain ⟨m, pre, regv, h, -⟩ := complete_eq s.issue.drawValue s.request s.issue.drawNext
  rw [State.pulsed, pulseUnitStep_of_pending (s := s.issue) rfl]
  exact ⟨m, pre, regv, h⟩

/-- `s.pulsed` with its array and flags named. -/
theorem pulsed_frame (s : State) :
    s.pulsed =
      { s.issue.drawNext.completed with
        flash := s.pulsed.flash, mfPre := s.pulsed.mfPre, mfRegv := s.pulsed.mfRegv } := by
  obtain ⟨m, pre, regv, h⟩ := pulsed_eq s
  rw [h]

section
variable (s : State)

@[simp] theorem State.pulsed_phase : s.pulsed.phase = .wait := by rw [pulsed_frame]; rfl
@[simp] theorem State.pulsed_mfDone : s.pulsed.mfDone = true := by rw [pulsed_frame]; rfl
@[simp] theorem State.pulsed_op : s.pulsed.op = s.op := by rw [pulsed_frame]; rfl
@[simp] theorem State.pulsed_ta : s.pulsed.ta = s.ta := by rw [pulsed_frame]; rfl
@[simp] theorem State.pulsed_sref : s.pulsed.sref = s.sref := by rw [pulsed_frame]; rfl
@[simp] theorem State.pulsed_wiss : s.pulsed.wiss = s.wiss := by rw [pulsed_frame]; rfl
@[simp] theorem State.pulsed_pcnt : s.pulsed.pcnt = s.pcnt + 1 := by rw [pulsed_frame]; rfl
@[simp] theorem State.pulsed_sched : s.pulsed.sched = s.sched := by rw [pulsed_frame]; rfl
@[simp] theorem State.pulsed_tape : s.pulsed.tape = s.tape.tail := by rw [pulsed_frame]; rfl
end

theorem State.Inv.pulsed {s : State} (h : s.Inv) (hissue : s.phase = .issue) : s.pulsed.Inv := by
  rw [State.pulsed]
  exact pulseUnitStep_inv (issue_inv h hissue)

/-- The state under another schedule (log 1). -/
def State.withSched (s : State) (ts : List Turn) : State := { s with sched := ts }

theorem State.Inv.withSched {s : State} (h : s.Inv) (ts : List Turn) : (s.withSched ts).Inv :=
  h.recorded s.rdata s.host ts s.tape s.drawn

/-- R71, R158, R159: the state after one pulse, `ts` what is then left of the schedule. -/
def State.pulse (s : State) (ts : List Turn) : State := waitStep (s.pulsed.withSched ts)

theorem pulse_outcome (s : State) (ts : List Turn) : WaitOutcome (s.pulsed.withSched ts) (s.pulse ts) :=
  waitStep_outcome _

theorem State.pulse_sched (s : State) (ts : List Turn) : (s.pulse ts).sched = ts :=
  (WaitOutcome.continues (s := s.pulsed.withSched ts) s.pulsed_phase (pulse_outcome s ts)).sched

/-- R69: the wait step of a pulse leaves the array to its completion. -/
theorem State.pulse_flash (s : State) (ts : List Turn) : (s.pulse ts).flash = s.pulsed.flash :=
  (pulse_outcome s ts).sameMemories.1

theorem State.Inv.pulse {s : State} (h : s.Inv) (hissue : s.phase = .issue) (ts : List Turn) : (s.pulse ts).Inv :=
  (pulse_outcome s ts).inv ((h.pulsed hissue).withSched ts) s.pulsed_phase s.pulsed_mfDone

/-! ### Runs of pulses (log 1) -/

/-- A scheduled turn is the next step, and is used up. -/
theorem step_of_turn {s : State} {a : Agent} {ts : List Turn} (h : s.sched = .agent a :: ts) :
    step s = agentStep a (s.withSched ts) :=
  step_of_sched h

theorem run_succ_of_step {s t : State} (h : step s = .next t) (n : Nat) : core.run (n + 1) s = core.run n t := by
  simp [Host.Core.run, core, h]

theorem run_add_of_next {m : Nat} {s t : State} (h : core.run m s = .next t) (n : Nat) :
    core.run (m + n) s = core.run n t := by
  induction m generalizing s with
  | zero => cases h; rw [Nat.zero_add]
  | succ m ih =>
    rw [Nat.add_right_comm]
    cases hu : step s with
    | next u =>
      rw [run_succ_of_step hu] at h ⊢
      exact ih h
    | fault r => simp [Host.Core.run, core, hu] at h
    | refused r => simp [Host.Core.run, core, hu] at h

/-- R71, R158, R159: the three turns of a pulse, from an issue on. -/
theorem run_onePulse_of_issue {s : State} {ts : List Turn} (hsched : s.sched = onePulse ++ ts)
    (hissue : s.phase = .issue) (hfree : s.mpend = none) :
    core.run onePulse.length s = .next ((s.withSched (.agent .controller :: ts)).pulse ts) := by
  let u : State := s.withSched (.agent .controller :: ts)
  let v : State := u.issue.withSched (.agent .pulseUnit :: u.sched)
  have hissued : step s = .next v :=
    (step_of_turn hsched).trans (controllerStep_of_issue (s := s.withSched _) hissue hfree)
  have hcompleted : step v = .next u.pulsed := by
    rw [State.pulsed]
    exact step_of_turn (s := v) (ts := u.sched) rfl
  have hverified : step u.pulsed = .next (u.pulse ts) := by
    rw [step_of_turn u.pulsed_sched]
    exact (controllerStep_of_wait (s := u.pulsed.withSched ts) u.pulsed_phase).trans
      (congrArg _ (if_pos u.pulsed_mfDone))
  exact (run_succ_of_step hissued 2).trans ((run_succ_of_step hcompleted 1).trans (run_succ_of_step hverified 0))

/-- R14: once the command has ended, a turn of any agent but the host is only used up. -/
theorem step_of_ended {s : State} {a : Agent} {ts : List Turn} (ha : a ≠ .host) (hsched : s.sched = .agent a :: ts)
    (hidle : s.phase = .idle) (hfree : s.mpend = none) : step s = .next (s.withSched ts) := by
  rw [step_of_turn hsched]
  cases a with
  | host => exact absurd rfl ha
  | controller => exact controllerStep_of_idle (s := s.withSched ts) hidle
  | pulseUnit =>
    obtain ⟨-, h⟩ | ⟨r, hr, -⟩ := pulseUnitStep_cases (s.withSched ts)
    · exact congrArg _ h
    · cases hfree.symm.trans hr

/-- R14: the three turns of a pulse, once the command has ended. -/
theorem run_onePulse_of_ended {s : State} {ts : List Turn} (hsched : s.sched = onePulse ++ ts) (hidle : s.phase = .idle)
    (hfree : s.mpend = none) : core.run onePulse.length s = .next (s.withSched ts) :=
  (run_succ_of_step (step_of_ended (by decide) hsched hidle hfree) 2).trans
    ((run_succ_of_step (step_of_ended (s := s.withSched _) (by decide) rfl hidle hfree) 1).trans
      (run_succ_of_step (step_of_ended (s := s.withSched _) (by decide) rfl hidle hfree) 0))

/-- What the pulses of a schedule keep, one by one, holds after the run. -/
theorem runTurns_pulses {P : Nat → State → Prop}
    (hpulse : ∀ {k s ts}, P (k + 1) s → s.sched = onePulse ++ ts →
      ∃ t, core.run onePulse.length s = .next t ∧ t.sched = ts ∧ P k t)
    {k : Nat} {s : State} (h : P k (s.withSched (pulses k))) : ∃ t, s.runTurns (pulses k) = .next t ∧ P 0 t := by
  have hrun (k : Nat) (u : State) (hu : P k u) (hsched : u.sched = pulses k) :
      ∃ t, core.run (pulses k).length u = .next t ∧ P 0 t := by
    induction k generalizing u with
    | zero => exact ⟨u, rfl, hu⟩
    | succ k ih =>
      have hsplit : pulses (k + 1) = onePulse ++ pulses k := by simp [pulses, List.replicate_succ]
      obtain ⟨v, hv, hvs, hP⟩ := hpulse hu (hsched.trans hsplit)
      rw [hsplit, List.length_append, run_add_of_next hv]
      exact ih v hP hvs
  exact hrun k _ h rfl

/-! ### What the pulses of a word do to the array (R70, R73) -/

/-- `m'` is what pulses that program the word `d` at `a` may leave of `m`: the word loses 1 bits only, none of those that
`d` asks for, and every other byte is as before. -/
structure Memory.Programs (m m' : Memory) (a : Nat) (d : Word) : Prop where
  sets_none : m'.word a &&& ~~~(m.word a) = 0
  keeps : (m.word a &&& d) &&& ~~~(m'.word a) = 0
  frame : ∀ b, (b < a ∨ a + 4 ≤ b) → m'.read b = m.read b

/-- Read bit by bit, `x &&& ~~~y = 0` says that `x` has no bit that `y` has not. -/
theorem and_not_eq_zero_iff (x y : Word) : x &&& ~~~y = 0 ↔ ∀ i (_ : i < 32), x[i] = true → y[i] = true := by
  constructor
  · intro h i hi hx
    have := congrArg (·[i]) h
    simpa [hx] using this
  · intro h
    ext i hi
    cases hx : x[i] <;> simp [hx, h i hi]

theorem Memory.Programs.refl (m : Memory) (a : Nat) (d : Word) : m.Programs m a d where
  sets_none := BitVec.and_not_self _
  keeps := (and_not_eq_zero_iff ..).2 fun i hi hbit => (by simpa using hbit : _ ∧ _).1
  frame _ _ := rfl

theorem Memory.Programs.trans {m₁ m₂ m₃ : Memory} {a : Nat} {d : Word} (h : m₁.Programs m₂ a d)
    (h' : m₂.Programs m₃ a d) : m₁.Programs m₃ a d where
  sets_none := by
    have hfirst := (and_not_eq_zero_iff ..).1 h.sets_none
    have hsecond := (and_not_eq_zero_iff ..).1 h'.sets_none
    exact (and_not_eq_zero_iff ..).2 fun i hi hbit => hfirst i hi (hsecond i hi hbit)
  keeps := by
    have hfirst := (and_not_eq_zero_iff ..).1 h.keeps
    have hsecond := (and_not_eq_zero_iff ..).1 h'.keeps
    refine (and_not_eq_zero_iff ..).2 fun i hi hbit => hsecond i hi ?_
    have hasked : d[i] = true := (by simpa using hbit : _ ∧ _).2
    simp [hfirst i hi hbit, hasked]
  frame b hb := (h'.frame b hb).trans (h.frame b hb)

theorem and_eq_of_and_not_eq_zero {x y : Word} (h : x &&& ~~~y = 0) : y &&& x = x := by
  ext i hi
  have hbit := (and_not_eq_zero_iff ..).1 h i hi
  cases hx : x[i] <;> simp_all

/-- R73: a committed pulse keeps the bits that the issued word leaves alone. -/
theorem programWord_keeps {d w : Word} (h : d &&& ~~~w = 0) (old f : Word) :
    (old &&& d) &&& ~~~(programWord old w f) = 0 := by
  refine (and_not_eq_zero_iff ..).2 fun i hi hbit => ?_
  have hissued := (and_not_eq_zero_iff ..).1 h i hi
  simp_all [programWord]

/-- R73, R178: a committed pulse that clears every bit it is asked to clear leaves what the issued word asks for. -/
theorem programWord_of_clears {d w old f : Word} (hw : old &&& w = d) (hf : f &&& ~~~d = 0) :
    programWord old w f = d := by
  subst hw
  ext i hi
  have hfailed := (and_not_eq_zero_iff ..).1 hf i hi
  simp only [programWord, BitVec.getElem_and, BitVec.getElem_or, BitVec.getElem_not] at hfailed ⊢
  cases hold : old[i] <;> cases hissued : w[i] <;> simp_all

/-! ### The lock of a target in progress (R71, R161) -/

/-- R15: a lock register has a bit for each sector of its bank. -/
theorem sidx_lt {p : Params} (hp : p.Wf) (a : Nat) : sidx p a < 32 := by
  obtain ⟨hsize, -, -, -⟩ := hp
  simp only [Params.BankSizeOk, List.mem_cons, List.not_mem_nil, or_false] at hsize
  have hmod := Nat.mod_lt (off p a) (show 0 < p.bankSize by omega)
  rw [sidx, Nat.div_lt_iff_lt_mul (by decide), Config.sectorSize]
  omega

/-- R46, R161: the sector of a target in progress is unlocked. -/
theorem State.Inv.not_locked {s : State} (h : s.Inv) (hactive : s.Active) : s.locked s.ta.toNat = false := by
  obtain ⟨hbank, hmask, -, hclear⟩ := h.lock.2 (h.lkHeld_of_active hactive)
  have hindex := sidx_lt h.params s.ta.toNat
  have hbit := congrArg (·.getLsbD (sidx s.params s.ta.toNat)) hclear
  rw [hbank, hmask] at hbit
  simpa [lockMask, State.locked, hindex] using hbit

/-! ### One pulse of WRITE_WORD (R71 to R74, R174) -/

/-- WRITE_WORD of `d` at `a` is about to issue, with a word that leaves the bits that `d` asks for alone. -/
structure State.WordIssue (s : State) (a : Nat) (d : Word) : Prop where
  inv : s.Inv
  phase : s.phase = .issue
  op : s.op = .writeWord
  ta : s.ta.toNat = a
  sref : s.sref[0] = d
  keeps : d &&& ~~~s.wiss[0] = 0

/-- R160, R174: WRITE_WORD of `d` at `a` has ended, with the word written or exhausted. -/
structure State.WordEnded (s : State) (a : Nat) (d : Word) : Prop where
  phase : s.phase = .idle
  report : (s.result = 0 ∧ s.errkind = 0 ∧ s.written = 1 ∧ s.flash.word a = d) ∨
    (s.result = 1 ∧ s.errkind = 3 ∧ s.written = 0 ∧ s.pcnt = 5)

section
variable {s : State} {a : Nat} {d : Word} (h : s.WordIssue a d)
include h

theorem State.WordIssue.withSched (ts : List Turn) : (s.withSched ts).WordIssue a d :=
  { h with inv := h.inv.withSched ts }

theorem State.WordIssue.free : s.mpend = none :=
  h.inv.mpend_eq_none (by simp [h.phase])

/-- R71, R158, R159: the run of one pulse. -/
theorem State.WordIssue.run {ts : List Turn} (hsched : s.sched = onePulse ++ ts) :
    core.run onePulse.length s = .next ((s.withSched (.agent .controller :: ts)).pulse ts) :=
  run_onePulse_of_issue hsched h.phase h.free

/-- R158: the request of an issue is one word. -/
theorem State.WordIssue.request : s.request = .prog s.ta [s.wiss[0]] s.preEn false := by
  obtain ⟨-, -, -, hword, -⟩ := h.inv.target (.inl h.phase)
  have hburst : s.burst = false := h.inv.burst_eq_false (.inr (by simp [h.op]))
  have hlanes : lanes s.wiss 1 = [s.wiss[0]] := by
    rw [lanes, show (1 : BitVec 5).toNat = 1 from rfl, List.take_one, List.head?_eq_getElem?]
    simp
  rw [State.request, if_neg (by simp [h.op]), (hword (.inl h.op)).1, hlanes, hburst]

/-- R176: an issue is below the cap. -/
theorem State.WordIssue.pcnt_lt : s.pcnt.toNat < 5 := by
  have hcap : s.cap = 5 := by simp [State.cap, h.op, Config.maxProgramPulses]
  rw [← hcap]
  exact h.inv.count.2.1 h.phase

/-- R47, R176: the count after an issue. -/
theorem State.WordIssue.toNat_pcnt : s.pulsed.pcnt.toNat = s.pcnt.toNat + 1 := by
  rw [State.pulsed_pcnt]
  exact h.inv.toNat_pcnt_issue

/-- R72, R74: an issue that pre-verify inhibits. -/
theorem State.WordIssue.pulsed_of_preFails (hpre : s.preEn = true)
    (hfails : preFails s.wiss[0] (s.flash.word a) = true) : s.pulsed.mfPre = true ∧ s.pulsed.flash = s.flash := by
  have hpending : s.issue.mpend = some (.prog s.ta [s.wiss[0]] true false) := by
    rw [State.issue_mpend, h.request, hpre]
  have hany : anyPreFails [s.wiss[0]] (s.flash.words s.ta.toNat 1) = true := by
    simpa [anyPreFails, Memory.words_one, h.ta] using hfails
  have hstep : s.pulsed = { s.issue.drawNext.completed with mfPre := true } := by
    rw [State.pulsed]
    exact pulseUnitStep_of_preFails (s := s.issue) hpending (by simp) hany
  rw [hstep]
  exact ⟨rfl, rfl⟩

/-- R72, R73: an issue whose pulse is committed. -/
theorem State.WordIssue.pulsed_of_passes (hpass : s.preEn = true → preFails s.wiss[0] (s.flash.word a) = false) :
    s.pulsed.mfPre = false ∧
      s.pulsed.flash.word a = programWord (s.flash.word a) s.wiss[0] (drawWord s.drawValue 0) ∧
      ∀ b, (b < a ∨ a + 4 ≤ b) → s.pulsed.flash.read b = s.flash.read b := by
  have hpending : s.issue.mpend = some (.prog s.ta [s.wiss[0]] s.preEn false) := by
    rw [State.issue_mpend, h.request]
  have hany (hpre : s.preEn = true) : anyPreFails [s.wiss[0]] (s.flash.words s.ta.toNat 1) = false := by
    simpa [anyPreFails, Memory.words_one, h.ta] using hpass hpre
  have hstep : s.pulsed = { s.issue.drawNext.completed with flash := s.pulsedFlash s.drawValue a [s.wiss[0]] } := by
    rw [← h.ta, State.pulsed]
    exact pulseUnitStep_of_passes (s := s.issue) hpending (by simp) hany
  have hunlocked : s.locked a = false := by rw [← h.ta]; exact h.inv.not_locked (.inl h.phase)
  have hword := word_pulsedFlash s s.drawValue a (ws := [s.wiss[0]]) (i := 0) (by simp)
  rw [hstep]
  refine ⟨rfl, ?_, fun b hb => read_pulsedFlash_of_outside _ _ _ _ hb⟩
  simpa [hunlocked] using hword

/-- R70, R72, R73: an issue and its completion program the word, or nothing. -/
theorem State.WordIssue.pulsed_programs : s.flash.Programs s.pulsed.flash a d := by
  by_cases hfails : s.preEn = true ∧ preFails s.wiss[0] (s.flash.word a) = true
  · rw [(h.pulsed_of_preFails hfails.1 hfails.2).2]
    exact .refl _ _ _
  · obtain ⟨-, hword, hframe⟩ := h.pulsed_of_passes (by simpa using hfails)
    exact
      { sets_none := by rw [hword]; exact programWord_sets_none ..
        keeps := by rw [hword]; exact programWord_keeps h.keeps _ _
        frame := hframe }

/-- R176: at the cap, exactly five issues were made. -/
theorem State.WordIssue.pulsed_pcnt_of_cap (hcap : Config.maxProgramPulses ≤ s.pulsed.pcnt.toNat) :
    s.pulsed.pcnt = 5 := by
  have hmax : s.pulsed.pcnt.toNat ≤ Config.maxProgramPulses := by
    rw [h.toNat_pcnt]
    exact h.pcnt_lt
  exact BitVec.eq_of_toNat_eq (le_antisymm hmax hcap)

/-- R174, R176: one pulse of WRITE_WORD goes on to the next issue, or ends it. -/
theorem State.WordIssue.pulse_cases (ts : List Turn) :
    ((s.pulse ts).WordIssue a d ∧ (s.pulse ts).pcnt.toNat = s.pcnt.toNat + 1) ∨ (s.pulse ts).WordEnded a d := by
  have hinv := h.inv.pulse h.phase ts
  have hop : s.pulsed.op = .writeWord := s.pulsed_op.trans h.op
  have hta : s.pulsed.ta.toNat = a := by rw [State.pulsed_ta, h.ta]
  have hsref : s.pulsed.sref[0] = d := by rw [State.pulsed_sref, h.sref]
  rw [State.pulse] at hinv ⊢
  obtain ⟨hverified, hstep⟩ | ⟨ws, pre, hkeeps, hstep | ⟨hcap, hstep⟩⟩ :=
    waitStep_writeWord_cases (s := s.pulsed.withSched ts) hop <;> rw [hstep] at hinv ⊢
  · have hword : s.pulsed.flash.word a = d := hta ▸ hverified.trans hsref
    exact .inr ⟨rfl, .inl ⟨rfl, rfl, rfl, by rw [State.finish_flash]; exact hword⟩⟩
  · have hnext : d &&& ~~~ws[0] = 0 := hsref ▸ hkeeps
    exact .inl ⟨⟨hinv, rfl, hop, hta, hsref, hnext⟩, h.toNat_pcnt⟩
  · exact .inr ⟨rfl, .inr ⟨rfl, rfl, rfl, by rw [State.finish_pcnt]; exact h.pulsed_pcnt_of_cap hcap⟩⟩
end

/-! ### The run of WRITE_WORD (R170 to R178) -/

/-- `t` is reached from `s` in a run of WRITE_WORD of `d` at `a`, with `k` pulses left of the five. -/
structure State.WordRun (s : State) (a : Nat) (d : Word) (k : Nat) (t : State) : Prop where
  inv : t.Inv
  programs : s.flash.Programs t.flash a d
  progress : (t.WordIssue a d ∧ t.pcnt.toNat + k = 5) ∨ t.WordEnded a d

/-- R176: within five pulses the word is written or exhausted. -/
theorem State.WordRun.ended {s t : State} {a : Nat} {d : Word} (h : s.WordRun a d 0 t) : t.WordEnded a d := by
  obtain ⟨hissue, hcount⟩ | hended := h.progress
  · have := hissue.pcnt_lt
    omega
  · exact hended

/-- R14, R174: a pulse keeps what a run of WRITE_WORD has done so far, and uses up one of its five. -/
theorem State.WordRun.step {s u : State} {a : Nat} {d : Word} {k : Nat} {ts : List Turn} (h : s.WordRun a d (k + 1) u)
    (hsched : u.sched = onePulse ++ ts) :
    ∃ t, core.run onePulse.length u = .next t ∧ t.sched = ts ∧ s.WordRun a d k t := by
  obtain ⟨hissue, hcount⟩ | hended := h.progress
  · have hv : (u.withSched (.agent .controller :: ts)).WordIssue a d := hissue.withSched _
    refine ⟨_, hissue.run hsched, State.pulse_sched _ ts, hv.inv.pulse hv.phase ts, ?_, ?_⟩
    · rw [State.pulse_flash]
      exact h.programs.trans hv.pulsed_programs
    · refine (hv.pulse_cases ts).imp_left fun ⟨hnext, hpcnt⟩ => ⟨hnext, ?_⟩
      rw [hpcnt, ← hcount]
      exact Nat.add_right_comm ..
  · have hfree : u.mpend = none := h.inv.mpend_eq_none (by simp [hended.phase])
    exact ⟨u.withSched ts, run_onePulse_of_ended hsched hended.phase hfree, rfl,
      h.inv.withSched ts, h.programs, .inr ⟨hended.phase, hended.report⟩⟩

/-- R171: what the acceptance step of WRITE_WORD leaves. -/
theorem exec_writeWord_issue {e : BitVec 2} {s : State} (h : s.Inv) (hidle : s.phase = .idle) (he : e ≠ 0)
    (hvalid : WriteAddrValid s.params s.addr.toNat)
    (hbank : ¬ BankConflict s.params s.addr.toNat (s.addr.toNat + 3) e) :
    ∃ t, exec (.writeWord e) s = .next t ∧ t.WordIssue s.addr.toNat s.data ∧ t.wiss[0] = s.data ∧ t.preEn = true ∧
      t.pcnt = 0 ∧ t.flash = s.flash ∧ t.tape = s.tape ∧ t.drawValue = s.drawValue := by
  have hexec := writeWordAccepted e s h.params hidle he hvalid hbank
  have hinv := (exec_outcome hexec).2.inv h hidle
  have hlane (v : Vector Word 16) : (setLanes v [s.data])[0] = s.data := setLanes_head v s.data
  refine ⟨_, hexec, ⟨hinv, rfl, rfl, rfl, hlane _, ?_⟩, hlane _, rfl, rfl, rfl, rfl, rfl⟩
  dsimp only
  rw [hlane, BitVec.and_not_self]

/-- Settles O39, by induction on the pulses. -/
theorem writeWordRunsToItsEnd : Obligations.WriteWordRunsToItsEnd := by
  unfold Obligations.WriteWordRunsToItsEnd
  intro e s h hidle he hvalid hbank
  obtain ⟨s₁, hexec, hissue, -, -, hcount, hflash, -⟩ := exec_writeWord_issue h hidle he hvalid hbank
  have hstart : s.WordRun s.addr.toNat s.data 5 (s₁.withSched (pulses 5)) :=
    { inv := hissue.inv.withSched _
      programs := by rw [State.withSched, hflash]; exact .refl ..
      progress := .inl ⟨hissue.withSched _, by simp [State.withSched, hcount]⟩ }
  obtain ⟨t, hrun, ht⟩ := runTurns_pulses State.WordRun.step hstart
  have hended := ht.ended
  exact ⟨s₁, t, hexec, hrun, hended.phase, hended.report, ht.programs.sets_none, ht.programs.keeps, ht.programs.frame⟩

/-- Settles O40: a word that only loses 1 bits never reads as its data. -/
theorem setBitAttemptExhausts : Obligations.SetBitAttemptExhausts := by
  unfold Obligations.SetBitAttemptExhausts
  intro e s h hidle he hvalid hbank hset
  obtain ⟨s₁, t, hexec, hrun, hended, hreport, hloses, -⟩ := writeWordRunsToItsEnd e s h hidle he hvalid hbank
  obtain ⟨-, -, -, hword⟩ | hexhausted := hreport
  · rw [hword] at hloses
    exact absurd hloses hset
  · exact ⟨s₁, t, hexec, hrun, hended, hexhausted⟩

/-! ### The examples of R178 -/

/-- R160, R178: WRITE_WORD of `d` at `a` has succeeded with `k` issues. -/
def State.WordWritten (s : State) (a : Nat) (d : Word) (k : BitVec 8) : Prop :=
  s.phase = .idle ∧ s.result = 0 ∧ s.errkind = 0 ∧ s.written = 1 ∧ s.pcnt = k ∧ s.flash.word a = d

section
variable {s : State} {a : Nat} {d : Word} (h : s.WordIssue a d)
include h

/-- R178: a committed pulse that clears every bit it is asked to clear ends WRITE_WORD with success, where those are all
the bits left to clear. -/
theorem State.WordIssue.pulse_of_clears (hpass : s.preEn = true → preFails s.wiss[0] (s.flash.word a) = false)
    (hasked : s.flash.word a &&& s.wiss[0] = d) (hclears : drawWord s.drawValue 0 &&& ~~~d = 0) (ts : List Turn) :
    (s.pulse ts).WordWritten a d (s.pcnt + 1) := by
  obtain ⟨hmfPre, hpulsed, -⟩ := h.pulsed_of_passes hpass
  have hop : s.pulsed.op = .writeWord := s.pulsed_op.trans h.op
  have hword : s.pulsed.flash.word a = d := hpulsed.trans (programWord_of_clears hasked hclears)
  have hverified : s.pulsed.flash.word s.pulsed.ta.toNat = s.pulsed.sref[0] := by
    rw [State.pulsed_ta, h.ta, hword, State.pulsed_sref, h.sref]
  have hpulse : s.pulse ts = (s.pulsed.withSched ts).finish 0 .none 1 :=
    calc s.pulse ts = waitWord (s.pulsed.withSched ts) := waitStep_of_writeWord (s := s.pulsed.withSched ts) hop
      _ = wordSuccess (s.pulsed.withSched ts) := waitWord_of_verified (s := s.pulsed.withSched ts) hmfPre hverified
      _ = _ := wordSuccess_of_ne (s := s.pulsed.withSched ts) (by simp [State.withSched, h.op])
  rw [State.WordWritten, hpulse, State.finish_pcnt, State.finish_flash]
  exact ⟨rfl, rfl, rfl, rfl, s.pulsed_pcnt, hword⟩

/-- R174, R175: below the cap, an issue that pre-verify inhibits goes on to the corrected word without pre-verify. -/
theorem State.WordIssue.pulse_eq_of_preFails (hpre : s.preEn = true)
    (hfails : preFails s.wiss[0] (s.flash.word a) = true) (hcap : s.pcnt.toNat + 1 < Config.maxProgramPulses)
    (ts : List Turn) :
    s.pulse ts =
      { (s.pulsed.withSched ts).corrected (setLanes s.wiss [postCorrect d (s.flash.word a)]) false with
        phase := .issue } := by
  obtain ⟨hmfPre, hflash⟩ := h.pulsed_of_preFails hpre hfails
  have hop : s.pulsed.op = .writeWord := s.pulsed_op.trans h.op
  have hbelow : s.pulsed.pcnt.toNat < Config.maxProgramPulses := by rwa [h.toNat_pcnt]
  have hword : preCorrect s.pulsed.sref[0] (s.pulsed.flash.word s.pulsed.ta.toNat) = postCorrect d (s.flash.word a) := by
    rw [preCorrect_eq_postCorrect, State.pulsed_sref, h.sref, hflash, State.pulsed_ta, h.ta]
  rw [← hword, ← s.pulsed_wiss]
  exact (waitStep_of_writeWord (s := s.pulsed.withSched ts) hop).trans
    ((waitWord_of_preFails (s := s.pulsed.withSched ts) hmfPre).trans
      (retry_corrected_of_lt (s := s.pulsed.withSched ts) hbelow _ false))

/-- R174, R175: the run of a pulse that pre-verify inhibits, below the cap. -/
theorem State.WordIssue.run_of_preFails (hpre : s.preEn = true) (hfails : preFails s.wiss[0] (s.flash.word a) = true)
    (hcap : s.pcnt.toNat + 1 < Config.maxProgramPulses) {ts : List Turn} (hsched : s.sched = onePulse ++ ts) :
    ∃ t, core.run onePulse.length s = .next t ∧ t.sched = ts ∧ t.WordIssue a d ∧
      t.wiss[0] = postCorrect d (s.flash.word a) ∧ t.preEn = false ∧ t.pcnt = s.pcnt + 1 ∧ t.flash = s.flash ∧
      t.tape = s.tape.tail := by
  let u := s.withSched (.agent .controller :: ts)
  have hu : u.WordIssue a d := h.withSched _
  have hpulse := hu.pulse_eq_of_preFails hpre hfails hcap ts
  have hissue : (u.pulse ts).WordIssue a d := by
    obtain ⟨hissue, -⟩ | hended := hu.pulse_cases ts
    · exact hissue
    · cases hended.phase.symm.trans (congrArg State.phase hpulse)
  have hflash : (u.pulse ts).flash = s.flash := (u.pulse_flash ts).trans (hu.pulsed_of_preFails hpre hfails).2
  refine ⟨_, h.run hsched, u.pulse_sched ts, hissue, ?_, ?_, ?_, hflash, ?_⟩ <;> rw [hpulse]
  · exact setLanes_head _ _
  all_goals simp [State.corrected, State.withSched, u]

/-- R178: the run of a pulse that clears every bit it is asked to clear. -/
theorem State.WordIssue.run_of_clears (hpass : s.preEn = true → preFails s.wiss[0] (s.flash.word a) = false)
    (hasked : s.flash.word a &&& s.wiss[0] = d) (hclears : drawWord s.drawValue 0 &&& ~~~d = 0) {ts : List Turn}
    (hsched : s.sched = onePulse ++ ts) :
    ∃ t, core.run onePulse.length s = .next t ∧ t.WordWritten a d (s.pcnt + 1) :=
  ⟨_, h.run hsched, (h.withSched (.agent .controller :: ts)).pulse_of_clears hpass hasked hclears ts⟩
end

/-- Settles O41: the first issue passes pre-verify, and its pulse clears every 0 bit of the data. -/
theorem freshProgramTakesOneIssue : Obligations.FreshProgramTakesOneIssue := by
  unfold Obligations.FreshProgramTakesOneIssue
  intro e s h hidle he hvalid hbank herased hclears
  obtain ⟨s₁, hexec, hissue, hword, -, hcount, hflash, -, hdraw⟩ := exec_writeWord_issue h hidle he hvalid hbank
  have hpass : preFails s₁.wiss[0] (s₁.flash.word s.addr.toNat) = false := by
    rw [hflash, herased]
    simp [preFails]
  have hasked : s₁.flash.word s.addr.toNat &&& s₁.wiss[0] = s.data := by
    rw [hflash, herased, hword]
    exact BitVec.allOnes_and
  obtain ⟨t, hrun, hwritten⟩ := (hissue.withSched (pulses 1)).run_of_clears (ts := []) (fun _ => hpass) hasked
    (hdraw ▸ hclears) rfl
  have hcount₁ : s₁.pcnt + 1 = 1 := by rw [hcount]; rfl
  exact ⟨s₁, t, hexec, hrun, hcount₁ ▸ hwritten⟩

/-- Settles O42: pre-verify inhibits the first issue, and the pulse of the second clears the bits that are left. -/
theorem programOverProgrammedTakesTwoIssues : Obligations.ProgramOverProgrammedTakesTwoIssues := by
  unfold Obligations.ProgramOverProgrammedTakesTwoIssues
  intro e s d₁ d₂ ds h hidle he hvalid hbank hnoset hprogrammed htape hclears
  obtain ⟨s₁, hexec, hissue, hword, hpre, hcount, hflash, htape₁, -⟩ := exec_writeWord_issue h hidle he hvalid hbank
  have hfails : preFails s₁.wiss[0] (s₁.flash.word s.addr.toNat) = true := by
    rw [hword, hflash]
    simpa [preFails] using hprogrammed
  have hcap : s₁.pcnt.toNat + 1 < Config.maxProgramPulses := by
    rw [hcount]
    decide
  obtain ⟨u, hfirst, hsched, hu, hcorrected, hoff, hcount₁, hflash₁, htape₂⟩ :=
    (hissue.withSched (pulses 2)).run_of_preFails hpre hfails hcap (ts := onePulse) rfl
  have hflash₂ : u.flash = s.flash := hflash₁.trans hflash
  have hasked : u.flash.word s.addr.toNat &&& u.wiss[0] = s.data := by
    rw [hflash₂, hcorrected, State.withSched, hflash, and_postCorrect, and_eq_of_and_not_eq_zero hnoset]
  have hdraw : u.drawValue = d₂ := by simp [State.drawValue, State.withSched, htape₂, htape₁, htape]
  obtain ⟨t, hsecond, hwritten⟩ := hu.run_of_clears (ts := []) (by simp [hoff]) hasked (by rwa [hdraw]) hsched
  have hcount₂ : u.pcnt + 1 = 2 := by
    rw [hcount₁, State.withSched, hcount]
    rfl
  exact ⟨s₁, t, hexec, (run_add_of_next hfirst onePulse.length).trans hsecond, hcount₂ ▸ hwritten⟩

end Sys2Proof.Machine

/-! Proofs about the array and burst commands (spec/43_program_array.md): the acceptance and the steps of WRITE_ARRAY,
the wait step of FAST_WRITE, and the runs of both to their ends. -/

namespace Sys2Proof.Machine

/-! ### WRITE_ARRAY: acceptance (R201) -/

/-- R200: WRITE_ARRAY, stored while idle with a declared bank, runs its acceptance part. -/
theorem exec_writeArray_of_idle {e : BitVec 2} {s : State} (hidle : s.phase = .idle) (he : e ≠ 0) :
    exec (.writeArray e) s = .next (acceptWriteArray (s.accept .writeArray e)) :=
  acceptMutating_of_idle (part := fun s => .next (acceptWriteArray s)) hidle he

theorem acceptWriteArray_of_aligned {s : State} (h : s.src.toNat % 4 = 0) :
    acceptWriteArray s = { s with aBase := s.addr, aSrc := s.src, aCount := s.count, aIdx := 0, phase := .next } :=
  if_neg (not_not.2 h)

theorem acceptWriteArray_of_misaligned {s : State} (h : s.src.toNat % 4 ≠ 0) :
    acceptWriteArray s = s.finish 1 .invalidAddress 0 :=
  if_pos h

/-- Settles O11: by the alignment of the source; a rejection only reports. -/
theorem writeArrayAccepted : Obligations.WriteArrayAccepted := by
  unfold Obligations.WriteArrayAccepted
  intro e s hidle hheld he
  rw [exec_writeArray_of_idle hidle he]
  refine ⟨fun haligned => ?_, fun hmisaligned => ?_⟩
  · rw [acceptWriteArray_of_aligned (s := s.accept .writeArray e) haligned]
    rfl
  · rw [acceptWriteArray_of_misaligned (s := s.accept .writeArray e) hmisaligned, finish_accept_of_idle hidle hheld]
    rfl

/-! ### WRITE_ARRAY: the end of a word (R174, R205, R206) -/

/-- R205: a verified word of WRITE_ARRAY is counted, and its lock is restored. -/
theorem wordSuccess_of_array {s : State} (hop : s.op = .writeArray) :
    wordSuccess s = { s.restore with aIdx := s.aIdx + 1, written := s.aIdx + 1, phase := .next } :=
  if_pos hop

/-- Settles O22: pre-verify is looked at first, then the word, then the count. -/
theorem arrayWordEnds : Obligations.ArrayWordEnds := by
  unfold Obligations.ArrayWordEnds
  intro s hwait hdone hop hheld e
  rw [controllerStep_of_word hwait hdone (.inr hop)]
  refine ⟨fun hpre heq => ?_, fun hpre hne hcap => ?_, fun hpre hcap => ?_⟩
  · rw [waitWord_of_verified hpre heq, wordSuccess_of_array hop]
  · rw [waitWord_of_postFails hpre hne, retry_word_of_cap hheld hcap, if_pos hop]
    rfl
  · rw [waitWord_of_preFails hpre, retry_word_of_cap hheld hcap, if_pos hop]
    rfl

/-! ### WRITE_ARRAY: the NEXT step (R203) -/

theorem controllerStep_of_next {s : State} (hnext : s.phase = .next) : controllerStep s = nextWord s := by
  rw [controllerStep, hnext]

/-- R203: a NEXT step clears the issue count for its word. -/
def State.uncounted (s : State) : State := { s with pcnt := 0 }

/-- R203: the current word of an array may be programmed: its address is valid, its source ends in the address space,
and it lies in no declared bank. -/
structure State.WordAdmitted (s : State) : Prop where
  valid : WriteAddrValid s.params s.arrayTarget
  source : s.arraySource + 3 ≤ Config.addressSpace - 1
  bank : ¬ BankConflict s.params s.arrayTarget (s.arrayTarget + 3) s.exb

/-- R68, R203: a NEXT step after its checks, by the source word that it reads, if it can be read. -/
def State.startRead (s : State) : Option Word → Result
  | none => .fault (.srcInBlock s.arraySource)
  | some d => .next (s.startProgram s.arrayTarget [d] false)

theorem nextWord_of_finished {s : State} (h : s.aIdx = s.aCount) : nextWord s = .next (s.finish 0 .none s.aIdx) :=
  if_pos h

section
variable {s : State} (hmore : s.aIdx ≠ s.aCount)
include hmore

theorem nextWord_of_invalid
    (h : ¬ WriteAddrValid s.params s.arrayTarget ∨ s.arraySource + 3 > Config.addressSpace - 1) :
    nextWord s = .next (s.uncounted.finish 1 .invalidAddress s.aIdx) := by
  by_cases hvalid : WriteAddrValid s.params s.arrayTarget
  · have hsrc := h.resolve_left (not_not.2 hvalid)
    exact (if_neg hmore).trans ((if_neg (not_not.2 hvalid)).trans (if_pos hsrc))
  · exact (if_neg hmore).trans (if_pos hvalid)

theorem nextWord_of_conflict (hvalid : WriteAddrValid s.params s.arrayTarget)
    (hsrc : s.arraySource + 3 ≤ Config.addressSpace - 1)
    (h : BankConflict s.params s.arrayTarget (s.arrayTarget + 3) s.exb) :
    nextWord s = .next (s.uncounted.finish 1 .bankConflict s.aIdx) :=
  (if_neg hmore).trans ((if_neg (not_not.2 hvalid)).trans ((if_neg hsrc.not_gt).trans (if_pos h)))

/-- R203: with its checks passed, the current word of an array is read and started. -/
theorem nextWord_of_admitted (h : s.WordAdmitted) :
    nextWord s = s.uncounted.startRead (s.uncounted.srcRead s.arraySource) :=
  (if_neg hmore).trans ((if_neg (not_not.2 h.valid)).trans ((if_neg h.source.not_gt).trans (if_neg h.bank)))

theorem nextWord_of_touches (h : s.WordAdmitted) (hbad : touchesWindow s.params s.arraySource = true) :
    nextWord s = .fault (.srcInBlock s.arraySource) := by
  rw [nextWord_of_admitted hmore h, srcRead_of_touches (s := s.uncounted) hbad]
  rfl

theorem nextWord_of_reads (h : s.WordAdmitted) (hgood : touchesWindow s.params s.arraySource = false) :
    nextWord s = .next (s.uncounted.startProgram s.arrayTarget [s.memRead s.arraySource 4] false) := by
  rw [nextWord_of_admitted hmore h, srcRead_of_not_touches (s := s.uncounted) hgood]
  rfl
end

/-- Settles O23: the checks in the order of R203; a completion has no save to restore, and a start is written out by
`startProgram`. -/
theorem arrayNextStep : Obligations.ArrayNextStep := by
  unfold Obligations.ArrayNextStep
  intro s hnext hheld i a src
  rw [controllerStep_of_next hnext]
  refine ⟨fun hfin => ?_, fun hmore hinvalid => ?_, fun hmore hvalid hsrc hbank => ?_,
    fun hmore hvalid hsrc hbank hbad => ?_, fun hmore hvalid hsrc hbank hgood => ?_⟩
  · rw [nextWord_of_finished hfin, State.finish_of_not_held hheld]
    rfl
  · rw [nextWord_of_invalid hmore hinvalid, State.finish_of_not_held (s := s.uncounted) hheld]
    rfl
  · rw [nextWord_of_conflict hmore hvalid hsrc hbank, State.finish_of_not_held (s := s.uncounted) hheld]
    rfl
  · exact nextWord_of_touches hmore ⟨hvalid, hsrc, hbank⟩ ((touchesWindow_iff ..).2 hbad)
  · have hread : touchesWindow s.params s.arraySource = false := by
      rw [← Bool.not_eq_true, touchesWindow_iff]
      rintro ⟨k, hk, hin⟩
      exact hgood k hk hin
    rw [nextWord_of_reads hmore ⟨hvalid, hsrc, hbank⟩ hread]
    rfl

/-! ### FAST_WRITE: the wait step (R219 to R224) -/

/-- R159: the wait step of a burst, when its request is completed. -/
theorem controllerStep_of_burst {s : State} (hwait : s.phase = .wait) (hdone : s.mfDone = true)
    (hop : s.op = .fastWrite) : controllerStep s = .next (waitBurst s) := by
  rw [controllerStep_of_wait hwait, if_pos hdone, waitStep, hop]

/-- R219: the words of a burst as the array has them. -/
def State.burstWords (s : State) : List Word := s.flash.words s.ta.toNat (lanes s.sref s.n).length

theorem waitBurst_of_violation {s : State} (h : s.mfRegv = true) :
    waitBurst s = s.finishBurst 1 .regionLockViolation 0 :=
  if_pos h

theorem waitBurst_of_preFails {s : State} (hregv : s.mfRegv = false) (hpre : s.mfPre = true) :
    waitBurst s = retry Config.maxProgramPulses burstExhausted
      (s.corrected (setLanes s.wiss (List.zipWith preCorrect (lanes s.sref s.n) s.burstWords)) false) :=
  (if_neg (by simp [hregv])).trans (if_pos hpre)

theorem waitBurst_of_postFails {s : State} (hregv : s.mfRegv = false) (hpre : s.mfPre = false)
    (hne : s.burstWords ≠ lanes s.sref s.n) :
    waitBurst s = retry Config.maxProgramPulses burstExhausted
      (s.corrected (setLanes s.wiss (List.zipWith postCorrect (lanes s.sref s.n) s.burstWords)) s.preEn) :=
  (if_neg (by simp [hregv])).trans ((if_neg (by simp [hpre])).trans (if_pos hne))

theorem waitBurst_of_verified {s : State} (hregv : s.mfRegv = false) (hpre : s.mfPre = false)
    (heq : s.burstWords = lanes s.sref s.n) : waitBurst s = s.finishBurst 0 .none (s.n.setWidth 32) :=
  (if_neg (by simp [hregv])).trans ((if_neg (by simp [hpre])).trans (if_neg (not_not.2 heq)))

/-- R42, R160, log 19: the end of a burst with a save outstanding. -/
theorem State.finishBurst_of_held {s : State} (h : s.lkHeld = true) (r : BitVec 1) (k : ErrKind) (w : Word) :
    s.finishBurst r k w =
      { s.restore with result := r, errkind := k.code, written := w, phase := .idle, burst := false } := by
  rw [State.finishBurst, State.finish_of_held h]

/-- R223, R224: at the cap, a corrected burst is exhausted, and its lock is restored. -/
theorem retry_burst_of_cap {s : State} (hheld : s.lkHeld = true) (hcap : Config.maxProgramPulses ≤ s.pcnt.toNat)
    (ws : Vector Word 16) (pre : Bool) :
    retry Config.maxProgramPulses burstExhausted (s.corrected ws pre) =
      { s.restore with
        wiss := ws, preEn := pre, result := 1, errkind := 3, written := 0, phase := .idle, burst := false } := by
  rw [retry_of_cap (s := s.corrected ws pre) hcap, burstExhausted, State.finishBurst_of_held (s := s.corrected ws pre) hheld]
  rfl

/-- Settles O24: the region violation is looked at first, then pre-verify, then the words, then the count. -/
theorem burstWaitStep : Obligations.BurstWaitStep := by
  unfold Obligations.BurstWaitStep
  intro s hwait hdone hop hheld rs es
  rw [controllerStep_of_burst hwait hdone hop]
  refine ⟨fun hregv => ?_, fun hregv hpre hcap => ?_, fun hregv hpre hcap => ?_, fun hregv hpre hne hcap => ?_,
    fun hregv hpre hne hcap => ?_, fun hregv hpre heq => ?_⟩
  · rw [waitBurst_of_violation hregv, State.finishBurst_of_held hheld]
    rfl
  · rw [waitBurst_of_preFails hregv hpre, retry_corrected_of_lt (cap := Config.maxProgramPulses) hcap]
    rfl
  · rw [waitBurst_of_preFails hregv hpre, retry_burst_of_cap hheld hcap]
    rfl
  · rw [waitBurst_of_postFails hregv hpre hne, retry_corrected_of_lt (cap := Config.maxProgramPulses) hcap]
    rfl
  · rw [waitBurst_of_postFails hregv hpre hne, retry_burst_of_cap hheld hcap]
    rfl
  · rw [waitBurst_of_verified hregv hpre heq, State.finishBurst_of_held hheld]
    rfl

/-! ### What a pulse of a program request counts and changes (R47, R69, R176) -/

@[simp] theorem State.pulsed_n (s : State) : s.pulsed.n = s.n := by rw [pulsed_frame]; rfl

/-- R7: a word or burst has the cap of a program request. -/
theorem State.cap_of_program {s : State} (hop : s.op ≠ .erase) : s.cap = Config.maxProgramPulses := if_neg hop

section
variable {s : State} (h : s.Inv)
include h

/-- R47, R158: the count after an issue and its completion. -/
theorem State.Inv.toNat_pcnt_pulsed : s.pulsed.pcnt.toNat = s.pcnt.toNat + 1 := by
  rw [State.pulsed_pcnt]
  exact h.toNat_pcnt_issue

theorem State.Inv.pcnt_lt_of_issue (hissue : s.phase = .issue) (hop : s.op ≠ .erase) : s.pcnt.toNat < 5 := by
  obtain ⟨-, hcap, -⟩ := h.count
  exact (hcap hissue).trans_eq (State.cap_of_program hop)

theorem State.Inv.pcnt_le_of_wait (hwait : s.phase = .wait) (hop : s.op ≠ .erase) : s.pcnt.toNat ≤ 5 := by
  obtain ⟨-, -, hcap⟩ := h.count
  exact (hcap hwait).2.trans_eq (State.cap_of_program hop)

/-- R176, R224: a word or burst that waits at its cap was issued exactly five times. -/
theorem State.Inv.pcnt_of_cap (hwait : s.phase = .wait) (hop : s.op ≠ .erase)
    (hcap : Config.maxProgramPulses ≤ s.pcnt.toNat) : s.pcnt = 5 :=
  BitVec.eq_of_toNat_eq (le_antisymm (h.pcnt_le_of_wait hwait hop) hcap)

/-- R69, R225: a completion leaves every byte outside the target. -/
theorem State.Inv.read_pulseUnitStep {b : Nat} (hb : ¬ s.InTarget b) :
    (pulseUnitStep s).flash.read b = s.flash.read b := by
  by_contra hne
  exact hb (pulseUnitStep_changes_target h hne).2.2

/-- R69, R158, R225: an issue with its completion leaves every byte outside the target. -/
theorem State.Inv.read_pulsed (hissue : s.phase = .issue) {b : Nat} (hb : ¬ s.InTarget b) :
    s.pulsed.flash.read b = s.flash.read b := by
  rw [State.pulsed]
  exact (issue_inv h hissue).read_pulseUnitStep hb
end

/-! ### One pulse of FAST_WRITE (R71 to R77, R219 to R224) -/

/-- R223, R224: a corrected burst is issued again below the cap, and ends the command at the cap. -/
theorem retry_burst_cases (s : State) (ws : Vector Word 16) (pre : Bool) :
    retry Config.maxProgramPulses burstExhausted (s.corrected ws pre) = { s.corrected ws pre with phase := .issue } ∨
    (Config.maxProgramPulses ≤ s.pcnt.toNat ∧
      retry Config.maxProgramPulses burstExhausted (s.corrected ws pre) =
        (s.corrected ws pre).finishBurst 1 .verifyExhausted 0) := by
  obtain ⟨-, h⟩ | ⟨hcap, h⟩ := retry_cases Config.maxProgramPulses burstExhausted (s.corrected ws pre)
  · exact .inl h
  · exact .inr ⟨hcap, h⟩

/-- R220: the wait step of FAST_WRITE ends it at a region violation, ends it with its words verified, issues corrected
words, or ends it exhausted. -/
theorem waitStep_fastWrite_cases {s : State} (hop : s.op = .fastWrite) :
    waitStep s = s.finishBurst 1 .regionLockViolation 0 ∨
    (s.burstWords = lanes s.sref s.n ∧ waitStep s = s.finishBurst 0 .none (s.n.setWidth 32)) ∨
    ∃ ws pre, waitStep s = { s.corrected ws pre with phase := .issue } ∨
      (Config.maxProgramPulses ≤ s.pcnt.toNat ∧
        waitStep s = (s.corrected ws pre).finishBurst 1 .verifyExhausted 0) := by
  have hwait : waitStep s = waitBurst s := by rw [waitStep, hop]
  rw [hwait]
  obtain ⟨-, h⟩ | ⟨-, -, h⟩ | ⟨-, -, -, h⟩ | ⟨-, -, hverified, h⟩ := waitBurst_cases s <;> rw [h]
  · exact .inl rfl
  · exact .inr (.inr ⟨_, false, retry_burst_cases s _ false⟩)
  · exact .inr (.inr ⟨_, s.preEn, retry_burst_cases s _ s.preEn⟩)
  · exact .inr (.inl ⟨hverified, rfl⟩)

/-- FAST_WRITE of `ds` at `a` is about to issue. -/
structure State.BurstIssue (s : State) (a : Nat) (ds : List Word) : Prop where
  inv : s.Inv
  phase : s.phase = .issue
  op : s.op = .fastWrite
  ta : s.ta.toNat = a
  n : s.n.toNat = ds.length
  sref : lanes s.sref s.n = ds

/-- R160, R220: FAST_WRITE of `ds` at `a` has ended, with every word written, or with none counted. -/
structure State.BurstEnded (s : State) (a : Nat) (ds : List Word) : Prop where
  phase : s.phase = .idle
  report : (s.result = 0 ∧ s.errkind = 0 ∧ s.written.toNat = ds.length ∧
      ∀ i < ds.length, s.flash.word (a + 4 * i) = ds.getD i 0) ∨
    (s.result = 1 ∧ s.written = 0 ∧ (s.errkind = 4 ∨ (s.errkind = 3 ∧ s.pcnt = 5)))

section
variable {s : State} {a : Nat} {ds : List Word} (h : s.BurstIssue a ds)
include h

theorem State.BurstIssue.withSched (ts : List Turn) : (s.withSched ts).BurstIssue a ds :=
  { h with inv := h.inv.withSched ts }

theorem State.BurstIssue.not_erase : s.op ≠ .erase := by simp [h.op]

/-- R135: the target of a burst is its words. -/
theorem State.BurstIssue.not_inTarget {b : Nat} (hb : b < a ∨ a + 4 * ds.length ≤ b) : ¬ s.InTarget b := by
  obtain ⟨-, -, hfast, -, -⟩ := h.inv.target (.inl h.phase)
  have hpos := (hfast h.op).1
  rw [State.InTarget, State.targetEnd, State.targetLength, if_neg h.not_erase, h.ta, h.n]
  rw [h.n] at hpos
  omega

/-- R220 to R224: one pulse of FAST_WRITE goes on to the next issue, or ends it. -/
theorem State.BurstIssue.pulse_cases (ts : List Turn) :
    ((s.pulse ts).BurstIssue a ds ∧ (s.pulse ts).pcnt.toNat = s.pcnt.toNat + 1) ∨ (s.pulse ts).BurstEnded a ds := by
  have hinv := h.inv.pulse h.phase ts
  have hop : s.pulsed.op = .fastWrite := s.pulsed_op.trans h.op
  have hta : s.pulsed.ta.toNat = a := by rw [State.pulsed_ta, h.ta]
  have hn : s.pulsed.n.toNat = ds.length := by rw [State.pulsed_n, h.n]
  have hsref : lanes s.pulsed.sref s.pulsed.n = ds := by rw [State.pulsed_sref, State.pulsed_n, h.sref]
  rw [State.pulse] at hinv ⊢
  obtain hstep | ⟨hverified, hstep⟩ | ⟨ws, pre, hstep | ⟨hcap, hstep⟩⟩ :=
    waitStep_fastWrite_cases (s := s.pulsed.withSched ts) hop <;> rw [hstep] at hinv ⊢
  · exact .inr ⟨rfl, .inr ⟨rfl, rfl, .inl rfl⟩⟩
  · have hwords : s.pulsed.flash.words a ds.length = ds := by
      rw [← hta, ← congrArg List.length hsref]
      exact hverified.trans hsref
    refine .inr ⟨rfl, .inl ⟨rfl, rfl, ?_, fun i hi => ?_⟩⟩
    · have hwide : s.pulsed.n.toNat < 2 ^ 32 := s.pulsed.n.isLt.trans (by decide)
      rw [State.finishBurst_written, BitVec.toNat_setWidth, ← hn]
      exact Nat.mod_eq_of_lt hwide
    · rw [State.finishBurst_flash, ← Memory.words_getD _ _ _ _ hi]
      exact congrArg (·.getD i 0) hwords
  · exact .inl ⟨⟨hinv, rfl, hop, hta, hn, hsref⟩, h.inv.toNat_pcnt_pulsed⟩
  · have hcount : s.pulsed.pcnt = 5 :=
      (h.inv.pulsed h.phase).pcnt_of_cap s.pulsed_phase (by simp [h.op]) hcap
    exact .inr ⟨rfl, .inr ⟨rfl, rfl, .inr ⟨rfl, by rw [State.finishBurst_pcnt]; exact hcount⟩⟩⟩
end

/-! ### The run of FAST_WRITE (R217 to R225) -/

/-- `t` is reached from `s` in a run of FAST_WRITE of `ds` at `a`, with `k` pulses left of the five. -/
structure State.BurstRun (s : State) (a : Nat) (ds : List Word) (k : Nat) (t : State) : Prop where
  inv : t.Inv
  frame : ∀ b, (b < a ∨ a + 4 * ds.length ≤ b) → t.flash.read b = s.flash.read b
  progress : (t.BurstIssue a ds ∧ t.pcnt.toNat + k = 5) ∨ t.BurstEnded a ds

/-- R224: within five pulses the burst has ended. -/
theorem State.BurstRun.ended {s t : State} {a : Nat} {ds : List Word} (h : s.BurstRun a ds 0 t) :
    t.BurstEnded a ds := by
  obtain ⟨hissue, hcount⟩ | hended := h.progress
  · have := hissue.inv.pcnt_lt_of_issue hissue.phase hissue.not_erase
    omega
  · exact hended

/-- R14, R220: a pulse keeps what a run of FAST_WRITE has done so far, and uses up one of its five. -/
theorem State.BurstRun.step {s u : State} {a : Nat} {ds : List Word} {k : Nat} {ts : List Turn}
    (h : s.BurstRun a ds (k + 1) u) (hsched : u.sched = onePulse ++ ts) :
    ∃ t, core.run onePulse.length u = .next t ∧ t.sched = ts ∧ s.BurstRun a ds k t := by
  have hfree (hwait : u.phase ≠ .wait) : u.mpend = none := h.inv.mpend_eq_none (absurd · hwait)
  obtain ⟨hissue, hcount⟩ | hended := h.progress
  · have hv : (u.withSched (.agent .controller :: ts)).BurstIssue a ds := hissue.withSched _
    refine ⟨_, run_onePulse_of_issue hsched hissue.phase (hfree (by simp [hissue.phase])), State.pulse_sched _ ts,
      hv.inv.pulse hv.phase ts, fun b hb => ?_, ?_⟩
    · rw [State.pulse_flash, hv.inv.read_pulsed hv.phase (hv.not_inTarget hb)]
      exact h.frame b hb
    · refine (hv.pulse_cases ts).imp_left fun ⟨hnext, hpcnt⟩ => ⟨hnext, ?_⟩
      rw [hpcnt, ← hcount]
      exact Nat.add_right_comm ..
  · exact ⟨u.withSched ts, run_onePulse_of_ended hsched hended.phase (hfree (by simp [hended.phase])), rfl,
      h.inv.withSched ts, h.frame, .inr ⟨hended.phase, hended.report⟩⟩

/-- Settles O43, by induction on the pulses. -/
theorem fastWriteRunsToItsEnd : Obligations.FastWriteRunsToItsEnd := by
  unfold Obligations.FastWriteRunsToItsEnd
  intro e s ds h hidle he hlen hpos htarget hsrc hbank hread
  have hexec := fastWriteAccepted e s ds hidle he hlen hpos htarget hsrc hbank hread
  have hmax : ds.length ≤ 16 := hlen ▸ Nat.min_le_right ..
  have hn : (BitVec.ofNat 5 ds.length).toNat = ds.length := BitVec.toNat_ofNat .. ▸ Nat.mod_eq_of_lt (by omega)
  have hissue : State.BurstIssue _ s.addr.toNat ds :=
    ⟨(exec_outcome hexec).2.inv h hidle, rfl, rfl, rfl, hn, lanes_setLanes s.sref ds _ hn hmax⟩
  have hstart : s.BurstRun s.addr.toNat ds 5 _ :=
    ⟨hissue.inv.withSched (pulses 5), fun _ _ => rfl, .inl ⟨hissue.withSched (pulses 5), rfl⟩⟩
  obtain ⟨t, hrun, ht⟩ := runTurns_pulses State.BurstRun.step hstart
  exact ⟨_, t, hexec, hrun, ht.ended.phase, ht.ended.report, ht.frame⟩

/-! ### What WRITE_ARRAY leaves in the array (R203, R205, R208) -/

/-- R208: the source and the target of the WRITE_ARRAY accepted in `s` do not overlap. -/
def State.ArrayDisjoint (s : State) : Prop :=
  s.src.toNat + 4 * s.count.toNat ≤ s.addr.toNat ∨ s.addr.toNat + 4 * s.count.toNat ≤ s.src.toNat

/-- R68: the source of the WRITE_ARRAY accepted in `s` does not touch the window. -/
def State.SourceClear (s : State) : Prop :=
  ∀ b, s.src.toNat ≤ b → b < s.src.toNat + 4 * s.count.toNat → ¬ InWindow s.params b

/-- `m` is what the WRITE_ARRAY accepted in `s` may leave of the array when it has counted `k` words: at most those and
the one after them are changed, and without overlap each counted word is its source word. -/
structure State.ArrayLeaves (s : State) (m : Memory) (k : Nat) : Prop where
  frame : ∀ b, (b < s.addr.toNat ∨ s.addr.toNat + 4 * (k + 1) ≤ b) → m.read b = s.flash.read b
  copied : s.ArrayDisjoint → ∀ j < k, m.word (s.addr.toNat + 4 * j) = s.memRead (s.src.toNat + 4 * j) 4

theorem State.ArrayLeaves.none_counted (s : State) : s.ArrayLeaves s.flash 0 :=
  ⟨fun _ _ => rfl, fun _ _ hj => absurd hj (Nat.not_lt_zero _)⟩

/-- A pulse of the word after the counted ones. -/
theorem State.ArrayLeaves.pulse {s : State} {m m' : Memory} {k : Nat} (h : s.ArrayLeaves m k)
    (hm : ∀ b, (b < s.addr.toNat + 4 * k ∨ s.addr.toNat + 4 * k + 4 ≤ b) → m'.read b = m.read b) :
    s.ArrayLeaves m' k where
  frame b hb := (hm b (by omega)).trans (h.frame b hb)
  copied hdisj j hj := by
    have hword : m'.word (s.addr.toNat + 4 * j) = m.word (s.addr.toNat + 4 * j) :=
      readLE_congr fun i hi => hm _ (by omega)
    exact hword.trans (h.copied hdisj j hj)

/-- R205: the word after the counted ones is counted too. -/
theorem State.ArrayLeaves.succ {s : State} {m : Memory} {k : Nat} (h : s.ArrayLeaves m k)
    (hword : s.ArrayDisjoint → m.word (s.addr.toNat + 4 * k) = s.memRead (s.src.toNat + 4 * k) 4) :
    s.ArrayLeaves m (k + 1) where
  frame b hb := h.frame b (by omega)
  copied hdisj j hj := by
    obtain hlt | rfl := Nat.lt_succ_iff_lt_or_eq.1 hj
    · exact h.copied hdisj j hlt
    · exact hword hdisj

/-- R203, R208: without overlap, the source words are as they were when the command was accepted. -/
theorem State.ArrayLeaves.memRead_source {s u : State} {k : Nat} (h : s.ArrayLeaves u.flash k)
    (hp : u.params = s.params) (hs : u.sysmem = s.sysmem) (hk : k < s.count.toNat) (hdisj : s.ArrayDisjoint) :
    u.memRead (s.src.toNat + 4 * k) 4 = s.memRead (s.src.toNat + 4 * k) 4 := by
  refine readLE_congr fun i hi => ?_
  rw [State.memByte, State.memByte, hp, hs, h.frame]
  unfold State.ArrayDisjoint at hdisj
  omega

/-! ### WRITE_ARRAY in progress (R202 to R206) -/

/-- The WRITE_ARRAY accepted in `s` is in progress in `u`, and without overlap the word in progress is its source
word. -/
structure State.ArrayBusy (s u : State) : Prop where
  phase : u.phase ≠ .idle
  op : u.op = .writeArray
  base : u.aBase = s.addr
  source : u.aSrc = s.src
  count : u.aCount = s.count
  word : u.Active → s.ArrayDisjoint → u.sref[0] = s.memRead (s.src.toNat + 4 * u.aIdx.toNat) 4

/-- R202, R206, R207: the WRITE_ARRAY accepted in `s` has ended in `u`. -/
structure State.ArrayEnded (s u : State) : Prop where
  phase : u.phase = .idle
  written_le : u.written.toNat ≤ s.count.toNat
  report : u.result = 0 ↔ u.written.toNat = s.count.toNat

/-- `u` is reached from `s` in a run of the WRITE_ARRAY accepted in `s`. -/
structure State.ArrayRun (s u : State) : Prop where
  inv : u.Inv
  params : u.params = s.params
  sysmem : u.sysmem = s.sysmem
  leaves : s.ArrayLeaves u.flash u.written.toNat
  progress : s.ArrayBusy u ∨ s.ArrayEnded u

theorem State.ArrayBusy.withSched {s u : State} (h : s.ArrayBusy u) (ts : List Turn) : s.ArrayBusy (u.withSched ts) :=
  ⟨h.phase, h.op, h.base, h.source, h.count, h.word⟩

theorem State.ArrayRun.withSched {s u : State} (h : s.ArrayRun u) (ts : List Turn) : s.ArrayRun (u.withSched ts) where
  inv := h.inv.withSched ts
  params := h.params
  sysmem := h.sysmem
  leaves := h.leaves
  progress := h.progress.imp (·.withSched ts) fun hended => ⟨hended.phase, hended.written_le, hended.report⟩

theorem State.ArrayRun.busy {s u : State} (h : s.ArrayRun u) (hbusy : u.phase ≠ .idle) : s.ArrayBusy u :=
  h.progress.resolve_right fun hended => hbusy hended.phase

section
variable {s u : State} (hbusy : s.ArrayBusy u) (hinv : u.Inv)
include hbusy hinv

/-- R205, R207: the words before the current one are counted. -/
theorem State.ArrayBusy.counted : u.written = u.aIdx ∧ u.aIdx.toNat ≤ s.count.toNat := by
  obtain ⟨hwritten, hle, -⟩ := hinv.array hbusy.op (u.busy_iff.2 hbusy.phase)
  exact ⟨hwritten, hbusy.count ▸ hle⟩

/-- R203: the current word is one of the array's. -/
theorem State.ArrayBusy.current (hactive : u.Active) :
    u.aIdx.toNat < s.count.toNat ∧ u.ta.toNat = s.addr.toNat + 4 * u.aIdx.toNat := by
  obtain ⟨-, -, hcur⟩ := hinv.array hbusy.op (u.busy_iff.2 hbusy.phase)
  obtain ⟨hlt, hta⟩ := hcur hactive
  exact ⟨hbusy.count ▸ hlt, hbusy.base ▸ hta⟩

/-- R135, R203: the target of the word in progress is the word after the counted ones. -/
theorem State.ArrayBusy.not_inTarget (hactive : u.Active) {b : Nat}
    (hb : b < s.addr.toNat + 4 * u.written.toNat ∨ s.addr.toNat + 4 * u.written.toNat + 4 ≤ b) : ¬ u.InTarget b := by
  obtain ⟨-, -, -, hword, -⟩ := hinv.target hactive
  obtain ⟨hn, -⟩ := hword (.inr hbusy.op)
  obtain ⟨-, hta⟩ := hbusy.current hinv hactive
  obtain ⟨hwritten, -⟩ := hbusy.counted hinv
  rw [hwritten] at hb
  have hlen : u.targetLength = 4 := by simp [State.targetLength, hbusy.op, hn]
  rw [State.InTarget, State.targetEnd, hlen, hta]
  omega
end

/-! ### The decisions that WRITE_ARRAY has left (R176, R203) -/

/-- A bound on the NEXT steps and wait steps that WRITE_ARRAY still takes: for each word its NEXT step and five wait
steps at most, and the NEXT step that ends the array. -/
def State.decisionsLeft (s : State) : Nat :=
  match s.phase with
  | .idle => 0
  | .issue => 6 * (s.aCount.toNat - s.aIdx.toNat) - s.pcnt.toNat
  | .wait => 6 * (s.aCount.toNat - s.aIdx.toNat) + 1 - s.pcnt.toNat
  | .next => 6 * (s.aCount.toNat - s.aIdx.toNat) + 1

theorem decisionsLeft_of_idle {s : State} (h : s.phase = .idle) : s.decisionsLeft = 0 := by
  rw [State.decisionsLeft, h]

theorem decisionsLeft_of_issue {s : State} (h : s.phase = .issue) :
    s.decisionsLeft = 6 * (s.aCount.toNat - s.aIdx.toNat) - s.pcnt.toNat := by
  rw [State.decisionsLeft, h]

theorem decisionsLeft_of_wait {s : State} (h : s.phase = .wait) :
    s.decisionsLeft = 6 * (s.aCount.toNat - s.aIdx.toNat) + 1 - s.pcnt.toNat := by
  rw [State.decisionsLeft, h]

theorem decisionsLeft_of_next {s : State} (h : s.phase = .next) :
    s.decisionsLeft = 6 * (s.aCount.toNat - s.aIdx.toNat) + 1 := by
  rw [State.decisionsLeft, h]

/-- R176: an array in progress has a decision left. -/
theorem State.ArrayBusy.decisionsLeft_pos {s u : State} (hbusy : s.ArrayBusy u) (hinv : u.Inv) :
    0 < u.decisionsLeft := by
  have hop : u.op ≠ .erase := by simp [hbusy.op]
  cases hphase : u.phase with
  | idle => exact absurd hphase hbusy.phase
  | next =>
    rw [decisionsLeft_of_next hphase]
    omega
  | issue =>
    have hlt := (hbusy.current hinv (.inl hphase)).1
    have hcap := hinv.pcnt_lt_of_issue hphase hop
    rw [decisionsLeft_of_issue hphase, hbusy.count]
    omega
  | wait =>
    have hlt := (hbusy.current hinv (.inr hphase)).1
    have hcap := hinv.pcnt_le_of_wait hphase hop
    rw [decisionsLeft_of_wait hphase, hbusy.count]
    omega

/-! ### The steps of WRITE_ARRAY (R158, R174, R203) -/

/-- R69: a controller step changes neither memory, so it keeps the run if its count and its next phase are right. -/
theorem State.ArrayRun.of_controllerStep {s u t : State} (h : s.ArrayRun u) (ht : controllerStep u = .next t)
    (hleaves : s.ArrayLeaves u.flash t.written.toNat) (hprogress : s.ArrayBusy t ∨ s.ArrayEnded t) : s.ArrayRun t := by
  obtain ⟨hflash, hsysmem⟩ := controllerStep_sameMemories ht
  exact
    { inv := controllerStep_inv h.inv ht
      params := (controllerStep_continues ht).params.trans h.params
      sysmem := hsysmem.trans h.sysmem
      leaves := hflash ▸ hleaves
      progress := hprogress }

/-- R202, R206: the array ends with the words before the current one counted. -/
theorem State.ArrayRun.of_end {s u t : State} (h : s.ArrayRun u) (hbusy : s.ArrayBusy u)
    (ht : controllerStep u = .next t) (hidle : t.phase = .idle) (hwritten : t.written = u.aIdx)
    (hresult : t.result = 0 ↔ u.aIdx = u.aCount) :
    s.ArrayRun t ∧ t.decisionsLeft < u.decisionsLeft := by
  obtain ⟨hcounted, hle⟩ := hbusy.counted h.inv
  refine ⟨h.of_controllerStep ht (hwritten.trans hcounted.symm ▸ h.leaves) (.inr ⟨hidle, hwritten ▸ hle, ?_⟩), ?_⟩
  · rw [hresult, hwritten, hbusy.count, BitVec.toNat_inj]
  · rw [decisionsLeft_of_idle hidle]
    exact hbusy.decisionsLeft_pos h.inv

/-- R68, R203: a NEXT step whose source word does not touch the window does not fault. -/
theorem exists_nextWord {s : State} (hgood : s.aIdx ≠ s.aCount → touchesWindow s.params s.arraySource = false) :
    ∃ t, nextWord s = .next t := by
  by_cases hfin : s.aIdx = s.aCount
  · exact ⟨_, nextWord_of_finished hfin⟩
  by_cases hvalid : WriteAddrValid s.params s.arrayTarget
  · by_cases hsrc : s.arraySource + 3 ≤ Config.addressSpace - 1
    · by_cases hbank : BankConflict s.params s.arrayTarget (s.arrayTarget + 3) s.exb
      · exact ⟨_, nextWord_of_conflict hfin hvalid hsrc hbank⟩
      · exact ⟨_, nextWord_of_reads hfin ⟨hvalid, hsrc, hbank⟩ (hgood hfin)⟩
    · exact ⟨_, nextWord_of_invalid hfin (.inr (Nat.lt_of_not_le hsrc))⟩
  · exact ⟨_, nextWord_of_invalid hfin (.inl hvalid)⟩

/-- R203: a NEXT step ends the array, or starts the word after the counted ones. -/
theorem State.ArrayRun.next_step {s u : State} (h : s.ArrayRun u) (hclear : s.SourceClear) (hnext : u.phase = .next) :
    ∃ t, controllerStep u = .next t ∧ s.ArrayRun t ∧ t.decisionsLeft < u.decisionsLeft := by
  have hbusy := h.busy (by simp [hnext])
  obtain ⟨hcounted, hle⟩ := hbusy.counted h.inv
  have hsource : u.arraySource = s.src.toNat + 4 * u.aIdx.toNat := by rw [State.arraySource, hbusy.source]
  have hlt (hmore : u.aIdx ≠ u.aCount) : u.aIdx.toNat < s.count.toNat := by
    rw [← hbusy.count] at hle ⊢
    exact lt_of_le_of_ne hle fun heq => hmore (BitVec.eq_of_toNat_eq heq)
  have hgood (hmore : u.aIdx ≠ u.aCount) : touchesWindow u.params u.arraySource = false := by
    have := hlt hmore
    rw [← Bool.not_eq_true, touchesWindow_iff, h.params, hsource]
    rintro ⟨k, hk, hin⟩
    exact hclear _ (by omega) (by omega) hin
  obtain ⟨t, hword⟩ := exists_nextWord hgood
  have ht := (controllerStep_of_next hnext).trans hword
  refine ⟨t, ht, ?_⟩
  obtain ⟨hfin, rfl⟩ | ⟨hmore, -, rfl⟩ | ⟨hmore, -, rfl⟩ | ⟨hmore, -, -, d, hread, rfl⟩ := nextWord_next hword
  · exact h.of_end hbusy ht rfl rfl (by simp [hfin])
  · exact h.of_end hbusy ht rfl rfl (by simp [hmore])
  · exact h.of_end hbusy ht rfl rfl (by simp [hmore])
  · have hd : d = u.memRead u.arraySource 4 :=
      Option.some.inj (hread.symm.trans (srcRead_of_not_touches (hgood hmore)))
    refine ⟨h.of_controllerStep ht (by simpa using h.leaves) (.inl ?_), ?_⟩
    · refine ⟨by simp, by simpa using hbusy.op, by simpa using hbusy.base, by simpa using hbusy.source,
        by simpa using hbusy.count, fun _ hdisj => ?_⟩
      have hsame := (hcounted ▸ h.leaves).memRead_source h.params h.sysmem (hlt hmore) hdisj
      rw [State.startProgram_sref, setLanes_head, State.startProgram_aIdx, hd, hsource, hsame]
    · rw [decisionsLeft_of_next hnext, decisionsLeft_of_issue (by simp)]
      simp

/-- R174 to R176, R205, R206: everything that the wait step of a word of WRITE_ARRAY can do. -/
theorem waitWord_writeArray_cases {s : State} (hop : s.op = .writeArray) :
    (s.flash.word s.ta.toNat = s.sref[0] ∧
      waitWord s = { s.restore with aIdx := s.aIdx + 1, written := s.aIdx + 1, phase := .next }) ∨
    ∃ ws pre, waitWord s = { s.corrected ws pre with phase := .issue } ∨
      waitWord s = (s.corrected ws pre).finish 1 .verifyExhausted s.aIdx := by
  have hretry (ws : Vector Word 16) (pre : Bool) :
      retry Config.maxProgramPulses wordExhausted (s.corrected ws pre) = { s.corrected ws pre with phase := .issue } ∨
      retry Config.maxProgramPulses wordExhausted (s.corrected ws pre) =
        (s.corrected ws pre).finish 1 .verifyExhausted s.aIdx :=
    (retry_cases ..).imp (·.2) fun hcap => hcap.2.trans (if_pos hop)
  obtain ⟨-, h⟩ | ⟨-, -, h⟩ | ⟨-, hverified, h⟩ := waitWord_cases s <;> rw [h]
  · exact .inr ⟨_, false, hretry _ false⟩
  · exact .inr ⟨_, s.preEn, hretry _ s.preEn⟩
  · exact .inl ⟨hverified, wordSuccess_of_array hop⟩

/-- R174, R205, R206: a wait step counts its word, issues it again, or ends the array. -/
theorem State.ArrayRun.wait_step {s u : State} (h : s.ArrayRun u) (hwait : u.phase = .wait) (hdone : u.mfDone = true) :
    ∃ t, controllerStep u = .next t ∧ s.ArrayRun t ∧ t.decisionsLeft < u.decisionsLeft := by
  have hbusy := h.busy (by simp [hwait])
  obtain ⟨hcounted, -⟩ := hbusy.counted h.inv
  obtain ⟨hlt, hta⟩ := hbusy.current h.inv (.inr hwait)
  have hcap := h.inv.pcnt_le_of_wait hwait (by simp [hbusy.op])
  have ht := controllerStep_of_word hwait hdone (.inr hbusy.op)
  refine ⟨_, ht, ?_⟩
  obtain ⟨hverified, hstep⟩ | ⟨ws, pre, hstep | hstep⟩ := waitWord_writeArray_cases hbusy.op <;> rw [hstep] at ht ⊢
  · have hsucc : (u.aIdx + 1).toNat = u.aIdx.toNat + 1 := by
      have := s.count.isLt
      bv_omega
    refine ⟨h.of_controllerStep ht ?_ (.inl ?_), ?_⟩
    · rw [hsucc]
      refine (hcounted ▸ h.leaves).succ fun hdisj => ?_
      rw [← hta, hverified]
      exact hbusy.word (.inr hwait) hdisj
    · exact ⟨by simp, hbusy.op, hbusy.base, hbusy.source, hbusy.count, by simp [State.Active]⟩
    · rw [decisionsLeft_of_wait hwait, decisionsLeft_of_next rfl]
      dsimp only [State.restore_aCount]
      rw [hsucc, hbusy.count]
      omega
  · refine ⟨h.of_controllerStep ht h.leaves (.inl ?_), ?_⟩
    · exact ⟨by simp, hbusy.op, hbusy.base, hbusy.source, hbusy.count, fun _ => hbusy.word (.inr hwait)⟩
    · rw [decisionsLeft_of_wait hwait, decisionsLeft_of_issue rfl]
      dsimp only [State.corrected]
      rw [hbusy.count]
      omega
  · refine h.of_end hbusy ht rfl rfl ?_
    have hne : u.aIdx ≠ u.aCount := fun heq => by simp [heq, hbusy.count] at hlt
    simp [hne]

/-- The controller decides on the current word: a NEXT step, or a wait step with its request completed. -/
abbrev State.Decides (s : State) : Prop := s.phase = .next ∨ (s.phase = .wait ∧ s.mfDone = true)

/-- The current word is to be issued, or its request is pending. -/
abbrev State.Awaits (s : State) : Prop := s.phase = .issue ∨ (s.phase = .wait ∧ s.mfDone = false)

theorem State.phase_cases (s : State) : s.phase = .idle ∨ s.Decides ∨ s.Awaits := by
  cases hphase : s.phase with
  | idle => exact .inl rfl
  | next => exact .inr (.inl (.inl hphase))
  | issue => exact .inr (.inr (.inl hphase))
  | wait => exact .inr (s.mfDone.eq_false_or_eq_true.imp (fun h => .inr ⟨hphase, h⟩) fun h => .inr ⟨hphase, h⟩)

theorem State.ArrayRun.decides_step {s u : State} (h : s.ArrayRun u) (hclear : s.SourceClear) (hdecides : u.Decides) :
    ∃ t, controllerStep u = .next t ∧ s.ArrayRun t ∧ t.decisionsLeft < u.decisionsLeft := by
  obtain hnext | ⟨hwait, hdone⟩ := hdecides
  · exact h.next_step hclear hnext
  · exact h.wait_step hwait hdone

/-- R158, R159: while a word awaits its completion, the controller issues it or is held. -/
theorem State.ArrayRun.awaits_step {s u : State} (h : s.ArrayRun u) (hawaits : u.Awaits) :
    ∃ t, controllerStep u = .next t ∧ s.ArrayRun t ∧ t.decisionsLeft = u.decisionsLeft ∧
      t.phase = .wait ∧ t.mfDone = false := by
  obtain hissue | ⟨hwait, hdone⟩ := hawaits
  · have hbusy := h.busy (by simp [hissue])
    have ht := controllerStep_of_issue hissue (h.inv.mpend_eq_none (by simp [hissue]))
    refine ⟨_, ht, h.of_controllerStep ht h.leaves (.inl ?_), ?_, rfl, rfl⟩
    · exact ⟨by simp, hbusy.op, hbusy.base, hbusy.source, hbusy.count, fun _ => hbusy.word (.inl hissue)⟩
    · rw [decisionsLeft_of_issue hissue, decisionsLeft_of_wait rfl, h.inv.toNat_pcnt_issue]
      exact Nat.add_sub_add_right ..
  · exact ⟨u, by simp [controllerStep_of_wait hwait, hdone], h, rfl, hwait, hdone⟩

/-- R14: no controller step takes the run back. -/
theorem State.ArrayRun.controller_step {s u : State} (h : s.ArrayRun u) (hclear : s.SourceClear) :
    ∃ t, controllerStep u = .next t ∧ s.ArrayRun t ∧ t.decisionsLeft ≤ u.decisionsLeft := by
  obtain hidle | hdecides | hawaits := u.phase_cases
  · exact ⟨u, controllerStep_of_idle hidle, h, le_rfl⟩
  · obtain ⟨t, ht, hrun, hlt⟩ := h.decides_step hclear hdecides
    exact ⟨t, ht, hrun, hlt.le⟩
  · obtain ⟨t, ht, hrun, heq, -⟩ := h.awaits_step hawaits
    exact ⟨t, ht, hrun, heq.le⟩

/-- R71: a completion changes the array, its flags, the request and the draws only. -/
theorem pulseUnitStep_frame (s : State) :
    pulseUnitStep s =
      { s with
        flash := (pulseUnitStep s).flash, mfDone := (pulseUnitStep s).mfDone, mfPre := (pulseUnitStep s).mfPre
        mfRegv := (pulseUnitStep s).mfRegv, mpend := (pulseUnitStep s).mpend
        tape := (pulseUnitStep s).tape, drawn := (pulseUnitStep s).drawn } := by
  obtain ⟨-, h⟩ | ⟨r, -, h⟩ := pulseUnitStep_cases s
  · rw [h]
  · obtain ⟨m, pre, regv, hcomplete, -⟩ := complete_eq s.drawValue r s.drawNext
    rw [h, hcomplete]
    rfl

theorem decisionsLeft_pulseUnitStep (s : State) : (pulseUnitStep s).decisionsLeft = s.decisionsLeft := by
  rw [pulseUnitStep_frame]
  rfl

/-- R71, R165: a request that the controller waits for is completed by the step of the pulse unit. -/
theorem pulseUnitStep_of_wait {s : State} (h : s.Inv) (hwait : s.phase = .wait) (hdone : s.mfDone = false) :
    (pulseUnitStep s).phase = .wait ∧ (pulseUnitStep s).mfDone = true := by
  obtain ⟨hnone, -⟩ | ⟨r, -, hstep⟩ := pulseUnitStep_cases s
  · exact absurd hnone (h.request.1.2 ⟨hwait, hdone⟩)
  · obtain ⟨m, pre, regv, hcomplete, -⟩ := complete_eq s.drawValue r s.drawNext
    rw [hstep, hcomplete]
    exact ⟨hwait, rfl⟩

/-- R71, R203: a completion changes the word after the counted ones at most. -/
theorem State.ArrayRun.completion {s u : State} (h : s.ArrayRun u) : s.ArrayRun (pulseUnitStep u) := by
  obtain ⟨-, hstep⟩ | ⟨r, hr, -⟩ := pulseUnitStep_cases u
  · rwa [hstep]
  · have hwait := (h.inv.wait_of_pending (by simp [hr])).1
    have hbusy := h.busy (by simp [hwait])
    have hleaves : s.ArrayLeaves (pulseUnitStep u).flash u.written.toNat :=
      h.leaves.pulse fun b hb => h.inv.read_pulseUnitStep (hbusy.not_inTarget h.inv (.inr hwait) hb)
    have hinv := pulseUnitStep_inv h.inv
    rw [pulseUnitStep_frame] at hinv ⊢
    exact ⟨hinv, h.params, h.sysmem, hleaves,
      .inl ⟨hbusy.phase, hbusy.op, hbusy.base, hbusy.source, hbusy.count, hbusy.word⟩⟩

/-! ### The run of WRITE_ARRAY (R201 to R208) -/

/-- R71, R81: the three turns of a pulse, from the controller's two steps. -/
theorem run_onePulse_of_steps {s u t : State} {ts : List Turn} (hsched : s.sched = onePulse ++ ts)
    (hfirst : controllerStep (s.withSched (.agent .pulseUnit :: .agent .controller :: ts)) = .next u)
    (hlast : controllerStep ((pulseUnitStep (u.withSched (.agent .controller :: ts))).withSched ts) = .next t) :
    core.run onePulse.length s = .next t ∧ t.sched = ts := by
  let v : State := pulseUnitStep (u.withSched (.agent .controller :: ts))
  have hu : u.sched = .agent .pulseUnit :: .agent .controller :: ts := (controllerStep_continues hfirst).sched
  have hv : v.sched = .agent .controller :: ts := (pulseUnitStep_continues _).sched
  have hrun₁ : step s = .next u := (step_of_turn hsched).trans hfirst
  have hrun₂ : step u = .next v := step_of_turn hu
  have hrun₃ : step v = .next t := (step_of_turn hv).trans hlast
  exact ⟨(run_succ_of_step hrun₁ 2).trans ((run_succ_of_step hrun₂ 1).trans (run_succ_of_step hrun₃ 0)),
    (controllerStep_continues hlast).sched⟩

/-- `u` is reached in a run of the WRITE_ARRAY accepted in `s`, with at most `k` decisions left. -/
structure State.ArrayRunWithin (s : State) (k : Nat) (u : State) : Prop where
  run : s.ArrayRun u
  left : u.decisionsLeft ≤ k

/-- R207: with no decision left, the array has ended. -/
theorem State.ArrayRunWithin.ended {s t : State} (h : s.ArrayRunWithin 0 t) : s.ArrayEnded t :=
  h.run.progress.resolve_left fun hbusy => (hbusy.decisionsLeft_pos h.run.inv).not_ge h.left

/-- R14, R174, R203: each pulse turn holds a decision of the controller, its first step or its last. -/
theorem State.ArrayRunWithin.step {s u : State} {k : Nat} {ts : List Turn} (hclear : s.SourceClear)
    (h : s.ArrayRunWithin (k + 1) u) (hsched : u.sched = onePulse ++ ts) :
    ∃ t, core.run onePulse.length u = .next t ∧ t.sched = ts ∧ s.ArrayRunWithin k t := by
  have hrun := h.run.withSched (.agent .pulseUnit :: .agent .controller :: ts)
  have hleft := h.left
  obtain hidle | hdecides | hawaits := u.phase_cases
  · have hfree : u.mpend = none := h.run.inv.mpend_eq_none (by simp [hidle])
    refine ⟨_, run_onePulse_of_ended hsched hidle hfree, rfl, h.run.withSched ts, ?_⟩
    exact (decisionsLeft_of_idle (s := u.withSched ts) hidle).trans_le (Nat.zero_le k)
  · obtain ⟨v, hfirst, hv, hlt⟩ := hrun.decides_step hclear hdecides
    have hw := (hv.withSched (.agent .controller :: ts)).completion
    obtain ⟨t, hlast, ht, hle⟩ := (hw.withSched ts).controller_step hclear
    obtain ⟨hturns, hused⟩ := run_onePulse_of_steps hsched hfirst hlast
    have hkept := decisionsLeft_pulseUnitStep (v.withSched (.agent .controller :: ts))
    refine ⟨t, hturns, hused, ht, Nat.le_of_lt_succ ?_⟩
    calc t.decisionsLeft ≤ v.decisionsLeft := hle.trans_eq hkept
      _ < u.decisionsLeft := hlt
      _ ≤ k + 1 := hleft
  · obtain ⟨v, hfirst, hv, heq, hwait, hdone⟩ := hrun.awaits_step hawaits
    have hv' := hv.withSched (.agent .controller :: ts)
    have hcompleted := pulseUnitStep_of_wait hv'.inv hwait hdone
    obtain ⟨t, hlast, ht, hlt⟩ := (hv'.completion.withSched ts).decides_step hclear (.inr hcompleted)
    obtain ⟨hturns, hused⟩ := run_onePulse_of_steps hsched hfirst hlast
    have hkept := decisionsLeft_pulseUnitStep (v.withSched (.agent .controller :: ts))
    refine ⟨t, hturns, hused, ht, Nat.le_of_lt_succ ?_⟩
    calc t.decisionsLeft < v.decisionsLeft := hlt.trans_eq hkept
      _ = u.decisionsLeft := heq
      _ ≤ k + 1 := hleft

/-- R201: what the acceptance step of WRITE_ARRAY leaves. -/
theorem exec_writeArray_run {e : BitVec 2} {s : State} (h : s.Inv) (hidle : s.phase = .idle) (he : e ≠ 0)
    (haligned : s.src.toNat % 4 = 0) :
    ∃ t, exec (.writeArray e) s = .next t ∧ s.ArrayRun t ∧ t.decisionsLeft = 6 * s.count.toNat + 1 := by
  have hheld := h.lkHeld_eq_false (by simp [State.Active, hidle])
  have hexec := (writeArrayAccepted e s hidle hheld he).1 haligned
  have hinv := (exec_outcome hexec).2.inv h hidle
  exact ⟨_, hexec, ⟨hinv, rfl, rfl, .none_counted s, .inl ⟨by simp, rfl, rfl, rfl, rfl, by simp [State.Active]⟩⟩, rfl⟩

/-- Settles O44, by induction on the pulse turns: each of them uses up a decision, and there are six a word and one
more. -/
theorem writeArrayRunsToItsEnd : Obligations.WriteArrayRunsToItsEnd := by
  unfold Obligations.WriteArrayRunsToItsEnd
  intro e s h hidle he haligned n a src hclear
  obtain ⟨s₁, hexec, hrun, hleft⟩ := exec_writeArray_run h hidle he haligned
  have hstart : s.ArrayRunWithin (6 * n + 1) (s₁.withSched (pulses (6 * n + 1))) := ⟨hrun.withSched _, hleft.le⟩
  obtain ⟨t, hturns, ht⟩ := runTurns_pulses (State.ArrayRunWithin.step hclear) hstart
  have hended := ht.ended
  exact ⟨s₁, t, hexec, hturns, hended.phase, hended.written_le, hended.report, ht.run.leaves.frame,
    ht.run.leaves.copied⟩

end Sys2Proof.Machine

/-! Proofs about the erase (spec/44_erase.md): the verify and retry of an erase, one pulse of ERASE from its issue to its
wait step, and the run of a whole ERASE. -/

namespace Sys2Proof.Machine

/-! ### The verify of a sector (R245) -/

/-- R245: every byte of the sector at `sb` reads all ones. -/
def Memory.Clean (m : Memory) (sb : Nat) : Prop := ∀ k < 4096, m.read (sb + k) = 0xFF#8

theorem byteOf_allOnes {k : Nat} (hk : k < 4) : byteOf 0xFFFFFFFF k = 0xFF#8 := by
  interval_cases k <;> decide

/-- R62: a word is all ones exactly when its four bytes are. -/
theorem Memory.word_eq_allOnes_iff (m : Memory) (a : Nat) :
    m.word a = 0xFFFFFFFF ↔ ∀ k < 4, m.read (a + k) = 0xFF#8 := by
  constructor
  · intro hword k hk
    rw [← Memory.byteOf_word _ _ _ hk, hword, byteOf_allOnes hk]
  · intro hbytes
    refine readLE_byteOf _ _ _ fun k hk => ?_
    rw [hbytes k hk, byteOf_allOnes hk]

/-- R245: the 1024 words that the verify compares are the 4096 bytes of the sector. -/
theorem eraseVerify_iff (m : Memory) (sb : Nat) : eraseVerify m sb = true ↔ m.Clean sb := by
  simp only [eraseVerify, List.all_eq_true, List.mem_range, beq_iff_eq, Memory.word_eq_allOnes_iff]
  constructor
  · intro hwords k hk
    have hbyte := hwords (k / 4) (by omega) (k % 4) (by omega)
    rwa [Nat.add_assoc, Nat.div_add_mod] at hbyte
  · intro hclean i hi k hk
    rw [Nat.add_assoc]
    exact hclean _ (by omega)

/-! ### The wait step of ERASE (R159, R244, R246) -/

theorem waitErase_of_clean {s : State} (h : s.flash.Clean s.ta.toNat) : waitErase s = s.finish 0 .none 0 :=
  if_pos ((eraseVerify_iff ..).2 h)

theorem waitErase_of_not_clean {s : State} (h : ¬ s.flash.Clean s.ta.toNat) :
    waitErase s = retry Config.maxErasePulses eraseExhausted s :=
  if_neg (mt (eraseVerify_iff ..).1 h)

theorem waitStep_of_erase {s : State} (hop : s.op = .erase) : waitStep s = waitErase s := by
  rw [waitStep, hop]

/-- Settles O25: the sector is verified first, then the count is compared with its cap. -/
theorem eraseWaitStep : Obligations.EraseWaitStep := by
  unfold Obligations.EraseWaitStep
  intro s hwait hdone hop hheld clean
  rw [controllerStep_of_wait hwait, if_pos hdone, waitStep_of_erase hop]
  refine ⟨fun hclean => ?_, fun hdirty hbelow => ?_, fun hdirty hcap => ?_⟩
  · rw [waitErase_of_clean hclean, State.finish_of_held hheld]
    rfl
  · have hlt : s.pcnt.toNat < Config.maxErasePulses := hbelow
    rw [waitErase_of_not_clean hdirty, retry, if_pos hlt]
  · have hexhausted : eraseExhausted s = s.finish 1 .verifyExhausted 0 := rfl
    rw [waitErase_of_not_clean hdirty, retry_of_cap (cap := Config.maxErasePulses) hcap, hexhausted,
      State.finish_of_held hheld]
    rfl

/-- R244, R246: the wait step of an erase ends it with its sector clean, issues it again, or ends it exhausted. -/
theorem waitStep_erase_cases {s : State} (hop : s.op = .erase) :
    (s.flash.Clean s.ta.toNat ∧ waitStep s = s.finish 0 .none 0) ∨
    waitStep s = { s with phase := .issue } ∨
    (Config.maxErasePulses ≤ s.pcnt.toNat ∧ waitStep s = s.finish 1 .verifyExhausted 0) := by
  rw [waitStep_of_erase hop]
  by_cases hclean : s.flash.Clean s.ta.toNat
  · exact .inl ⟨hclean, waitErase_of_clean hclean⟩
  · rw [waitErase_of_not_clean hclean]
    obtain ⟨-, h⟩ | ⟨hcap, h⟩ := retry_cases Config.maxErasePulses eraseExhausted s
    · exact .inr (.inl h)
    · exact .inr (.inr ⟨hcap, h⟩)

/-! ### What the pulses of an erase do to the array (R70, R75, R247) -/

/-- Read as `x` having no bit that `y` has not, `x &&& ~~~y = 0` is transitive. -/
theorem and_not_eq_zero_trans {w : Nat} {x y z : BitVec w} (hxy : x &&& ~~~y = 0) (hyz : y &&& ~~~z = 0) :
    x &&& ~~~z = 0 := by
  ext i hi
  have hfirst : x[i] = true → y[i] = true := by simpa using congrArg (·[i]) hxy
  have hsecond : y[i] = true → z[i] = true := by simpa using congrArg (·[i]) hyz
  simpa using hsecond ∘ hfirst

/-- `m'` is what erase pulses of the sector at `a` may leave of `m`: no byte loses a 1 bit, and every byte outside the
sector is as before. -/
structure Memory.Erases (m m' : Memory) (a : Nat) : Prop where
  clears_none : ∀ b, m.read b &&& ~~~(m'.read b) = 0
  frame : ∀ b, (b < a ∨ a + 4096 ≤ b) → m'.read b = m.read b

theorem Memory.Erases.refl (m : Memory) (a : Nat) : m.Erases m a where
  clears_none _ := BitVec.and_not_self _
  frame _ _ := rfl

theorem Memory.Erases.trans {m₁ m₂ m₃ : Memory} {a : Nat} (h : m₁.Erases m₂ a) (h' : m₂.Erases m₃ a) :
    m₁.Erases m₃ a where
  clears_none b := and_not_eq_zero_trans (h.clears_none b) (h'.clears_none b)
  frame b hb := (h'.frame b hb).trans (h.frame b hb)

/-! ### One pulse of ERASE (R75, R158, R244 to R246) -/

/-- ERASE of the sector at `a` is about to issue. -/
structure State.EraseIssue (s : State) (a : Nat) : Prop where
  inv : s.Inv
  phase : s.phase = .issue
  op : s.op = .erase
  ta : s.ta.toNat = a

/-- R160, R244: ERASE of the sector at `a` has ended, with the sector clean or exhausted. -/
structure State.EraseEnded (s : State) (a : Nat) : Prop where
  phase : s.phase = .idle
  written : s.written = 0
  report : (s.result = 0 ∧ s.errkind = 0 ∧ s.flash.Clean a) ∨ (s.result = 1 ∧ s.errkind = 3 ∧ s.pcnt = 50)

section
variable {s : State} {a : Nat} (h : s.EraseIssue a)
include h

theorem State.EraseIssue.withSched (ts : List Turn) : (s.withSched ts).EraseIssue a :=
  { h with inv := h.inv.withSched ts }

/-- R246: an issue is below the cap. -/
theorem State.EraseIssue.pcnt_lt : s.pcnt.toNat < 50 := by
  obtain ⟨-, hcap, -⟩ := h.inv.count
  exact (hcap h.phase).trans_eq (if_pos h.op)

/-- R135: the target of an erase is its sector. -/
theorem State.EraseIssue.not_inTarget {b : Nat} (hb : b < a ∨ a + 4096 ≤ b) : ¬ s.InTarget b := by
  rw [State.InTarget, State.targetEnd, State.targetLength, if_pos h.op, h.ta, Config.sectorSize]
  omega

/-- R75, R158, R247: an issue and its completion erase bits of the sector only. -/
theorem State.EraseIssue.pulsed_erases : s.flash.Erases s.pulsed.flash a where
  clears_none b := by
    have hpending : s.issue.mpend = some (.erase s.ta) := by rw [State.issue_mpend, State.request, if_pos h.op]
    rw [State.pulsed]
    exact (pulsesMoveBitsOneWay s.issue b).2 _ hpending
  frame _ hb := h.inv.read_pulsed h.phase (h.not_inTarget hb)

/-- R244, R246: one pulse of ERASE goes on to the next issue, or ends it. -/
theorem State.EraseIssue.pulse_cases (ts : List Turn) :
    ((s.pulse ts).EraseIssue a ∧ (s.pulse ts).pcnt.toNat = s.pcnt.toNat + 1) ∨ (s.pulse ts).EraseEnded a := by
  have hinv := h.inv.pulse h.phase ts
  have hop : s.pulsed.op = .erase := s.pulsed_op.trans h.op
  have hta : s.pulsed.ta.toNat = a := by rw [State.pulsed_ta, h.ta]
  rw [State.pulse] at hinv ⊢
  obtain ⟨hclean, hstep⟩ | hstep | ⟨hcap, hstep⟩ := waitStep_erase_cases (s := s.pulsed.withSched ts) hop <;>
    rw [hstep] at hinv ⊢
  · have hsector : s.pulsed.flash.Clean a := hta ▸ hclean
    exact .inr ⟨rfl, rfl, .inl ⟨rfl, rfl, by rw [State.finish_flash]; exact hsector⟩⟩
  · exact .inl ⟨⟨hinv, rfl, hop, hta⟩, h.inv.toNat_pcnt_pulsed⟩
  · have hcount : s.pulsed.pcnt = 50 :=
      BitVec.eq_of_toNat_eq (le_antisymm (h.inv.pulsed h.phase).count.1 hcap)
    exact .inr ⟨rfl, rfl, .inr ⟨rfl, rfl, by rw [State.finish_pcnt]; exact hcount⟩⟩
end

/-! ### The run of ERASE (R240 to R247) -/

/-- `t` is reached from `s` in a run of ERASE of the sector at `a`, with `k` pulses left of the fifty. -/
structure State.EraseRun (s : State) (a k : Nat) (t : State) : Prop where
  inv : t.Inv
  erases : s.flash.Erases t.flash a
  progress : (t.EraseIssue a ∧ t.pcnt.toNat + k = 50) ∨ t.EraseEnded a

/-- R246: within fifty pulses the sector is clean or the erase is exhausted. -/
theorem State.EraseRun.ended {s t : State} {a : Nat} (h : s.EraseRun a 0 t) : t.EraseEnded a := by
  obtain ⟨hissue, hcount⟩ | hended := h.progress
  · have hbelow := hissue.pcnt_lt
    omega
  · exact hended

/-- R14, R244: a pulse keeps what a run of ERASE has done so far, and uses up one of its fifty. -/
theorem State.EraseRun.step {s u : State} {a k : Nat} {ts : List Turn} (h : s.EraseRun a (k + 1) u)
    (hsched : u.sched = onePulse ++ ts) :
    ∃ t, core.run onePulse.length u = .next t ∧ t.sched = ts ∧ s.EraseRun a k t := by
  have hfree (hwait : u.phase ≠ .wait) : u.mpend = none := h.inv.mpend_eq_none (absurd · hwait)
  obtain ⟨hissue, hcount⟩ | hended := h.progress
  · have hv : (u.withSched (.agent .controller :: ts)).EraseIssue a := hissue.withSched _
    refine ⟨_, run_onePulse_of_issue hsched hissue.phase (hfree (by simp [hissue.phase])), State.pulse_sched _ ts,
      hv.inv.pulse hv.phase ts, ?_, ?_⟩
    · rw [State.pulse_flash]
      exact h.erases.trans hv.pulsed_erases
    · refine (hv.pulse_cases ts).imp_left fun ⟨hnext, hpcnt⟩ => ⟨hnext, ?_⟩
      rw [hpcnt, ← hcount]
      exact Nat.add_right_comm ..
  · exact ⟨u.withSched ts, run_onePulse_of_ended hsched hended.phase (hfree (by simp [hended.phase])), rfl,
      h.inv.withSched ts, h.erases, .inr ⟨hended.phase, hended.written, hended.report⟩⟩

/-- Settles O45, by induction on the pulses. -/
theorem eraseRunsToItsEnd : Obligations.EraseRunsToItsEnd := by
  unfold Obligations.EraseRunsToItsEnd
  intro e s h hidle he hvalid hbank
  have hexec := eraseAccepted e s h.params hidle he hvalid hbank
  have hissue : State.EraseIssue _ s.addr.toNat := ⟨(exec_outcome hexec).2.inv h hidle, rfl, rfl, rfl⟩
  have hstart : s.EraseRun s.addr.toNat 50 _ :=
    ⟨hissue.inv.withSched (pulses 50), .refl .., .inl ⟨hissue.withSched (pulses 50), rfl⟩⟩
  obtain ⟨t, hrun, ht⟩ := runTurns_pulses State.EraseRun.step hstart
  exact ⟨_, t, hexec, hrun, ht.ended.phase, ht.ended.written, ht.ended.report, ht.erases.clears_none, ht.erases.frame⟩

end Sys2Proof.Machine

/-! Proofs about reset (spec/70_reset_and_hazards.md): what a reset leaves in the span of the request that it cuts off,
and everything that a reset does to the state. -/

namespace Sys2Proof.Machine

/-! ### What a reset leaves in the array (R302) -/

/-- R62: the bytes of drawn words are drawn bytes, in order. -/
theorem byteOf_drawnWords (d n k : Nat) (hk : k < 4 * n) :
    byteOf (((List.range n).map (drawWord d)).getD (k / 4) 0) (k % 4) = drawByte d k := by
  have hword : ((List.range n).map (drawWord d)).getD (k / 4) 0 = drawWord d (k / 4) := by
    simp [List.getD_eq_getElem?_getD, show k / 4 < n by omega]
  rw [hword, byteOf_drawWord _ _ _ (Nat.mod_lt _ (by decide)), Nat.div_add_mod]

/-- R302: after a cut-off every byte in the span of the request is drawn, and every other byte is as before. -/
theorem read_cutOff (d : Nat) (r : Request) (m : Memory) (a : Nat) :
    (cutOff d r m).read a =
      if r.base ≤ a ∧ a < r.base + r.size then drawByte d (a - r.base) else m.read a := by
  cases r with
  | prog ta ws pre burst =>
    simp only [cutOff, Memory.read_putWords, List.length_map, List.length_range, Request.base, Request.size]
    exact ite_congr rfl (fun hspan => byteOf_drawnWords _ _ _ (Nat.sub_lt_left_of_lt_add hspan.1 hspan.2)) fun _ => rfl
  | erase ta => exact Memory.read_fill ..

/-- R302: every content of the span of a request is some draw. -/
theorem exists_cutOff_eq (r : Request) (m : Memory) (c : Nat → Byte) :
    ∃ d, ∀ a, (cutOff d r m).read a = if r.base ≤ a ∧ a < r.base + r.size then c a else m.read a := by
  obtain ⟨d, hd⟩ := exists_drawByte r.size fun k => c (r.base + k)
  refine ⟨d, fun a => (read_cutOff ..).trans (ite_congr rfl (fun ⟨hlo, hhi⟩ => ?_) fun _ => rfl)⟩
  rw [hd _ (Nat.sub_lt_left_of_lt_add hlo hhi), Nat.add_sub_cancel' hlo]

/-- R48, R135: the target of the command in progress is the span of its pending request. -/
theorem State.Inv.inTarget_iff_span {s : State} (h : s.Inv) {r : Request} (hr : s.mpend = some r) (a : Nat) :
    s.InTarget a ↔ r.base ≤ a ∧ a < r.base + r.size := by
  obtain ⟨hactive, hbase, hsize⟩ := h.request_span hr
  have hpos := h.targetLength_pos hactive
  rw [State.InTarget, State.targetEnd, hbase, hsize]
  omega

/-! ### The step of a reset (R300 to R302) -/

/-- R302: a reset whose turn it is happens, whatever else could step. -/
theorem step_of_reset {s : State} {rest : List Turn} (hsched : s.sched = .reset :: rest) :
    step s = .next (resetStep (s.withSched rest)) := by
  rw [step, State.nextTurn, hsched]
  rfl

theorem resetStep_of_free {s : State} (hfree : s.mpend = none) : resetStep s = s.restart := by
  rw [resetStep, hfree]

theorem resetStep_of_pending {s : State} {r : Request} (hr : s.mpend = some r) :
    resetStep s = { s.drawNext.restart with flash := cutOff s.drawValue r s.flash } := by
  rw [resetStep, hr]

/-- R302: a reset whose turn it is takes one draw and cuts off the pending request with it. -/
theorem step_of_reset_pending {s : State} {rest : List Turn} {r : Request} (hsched : s.sched = .reset :: rest)
    (hr : s.mpend = some r) :
    step s = .next { (s.withSched rest).drawNext.restart with flash := cutOff s.drawValue r s.flash } :=
  (step_of_reset hsched).trans (congrArg _ (resetStep_of_pending (s := s.withSched rest) hr))

/-- Settles O57: with nothing pending a reset restarts the block and draws nothing. -/
theorem resetKeepsMemories : Obligations.ResetKeepsMemories := by
  unfold Obligations.ResetKeepsMemories
  intro s rest hsched hfree
  exact (step_of_reset hsched).trans (congrArg _ (resetStep_of_free (s := s.withSched rest) hfree))

/-- Settles O58: what a reset draws is the span of the pending request, which is the target, and nothing else. -/
theorem resetCutsOffTheRequest : Obligations.ResetCutsOffTheRequest := by
  unfold Obligations.ResetCutsOffTheRequest
  intro s rest h hsched hpending
  obtain ⟨r, hr⟩ := Option.ne_none_iff_exists'.1 hpending
  simp only [h.inTarget_iff_span hr]
  refine ⟨⟨_, step_of_reset_pending hsched hr, fun a hout => ?_⟩, fun c => ?_⟩
  · rw [read_cutOff, if_neg hout]
  · obtain ⟨d, hd⟩ := exists_cutOff_eq r s.flash c
    exact ⟨d, _, step_of_reset_pending (s := { s with tape := d :: s.tape }) hsched hr, hd⟩

end Sys2Proof.Machine
